-- ==== Sys2Proof/Word.lean ====
section
/-! DEFINITION. The word types: bytes, 32-bit words, byte sequences (00_scope.md R7, R8). -/

namespace Sys2Proof

/-- One byte of system memory, of a BC block, of a pixel or of the text (R7). -/
abbrev Byte := BitVec 8

/-- A 32-bit register, address or shader token (00_scope.md R6: ADDR_WIDTH = REG_WIDTH = 32). -/
abbrev Word := BitVec 32

/-- A byte sequence: a command's input, its output, or text (R8: "Strings are sequences of ASCII bytes"). -/
abbrev Bytes := List Byte

end Sys2Proof
end

