-- ==== Sys2Proof/Machine/State.lean ====
section
/-! DEFINITION. The state of the machine as plain data (10_state.md), the host's actions, and the reasons a step stops. -/

namespace Sys2Proof.Machine

/-- The status of a command (R214). No other STATUS.ERR code is ever produced. -/
inductive Status where
  | ok | unsupportedFormat | insufficientData
  deriving DecidableEq, Repr

/-- The two register windows (R42). -/
inductive Window where
  | bcd | sbd
  deriving DecidableEq, Repr

/-- The BCD register window's fields (R17 to R23). START has no storage; reserved bits have none (R16). -/
structure BcdRegs where
  ie : Bool
  bc5Fix : Bool
  busy : Bool
  done : Bool
  err : Status
  fmt : BitVec 3
  width : Word
  height : Word
  srcAddr : Word
  srcLen : Word
  dstAddr : Word
  outLen : Word
  deriving DecidableEq, Repr

/-- The BCD's latch L (R24). -/
structure BcdLatch where
  fmt : BitVec 3
  width : Word
  height : Word
  srcAddr : Word
  srcLen : Word
  dstAddr : Word
  bc5Fix : Bool
  deriving DecidableEq, Repr

/-- A palette entry: red, green, blue, alpha, each 0 to 255 (R111). -/
structure Rgba where
  r : Nat
  g : Nat
  b : Nat
  a : Nat
  deriving DecidableEq, Repr

/-- What the BCD holds of the current block (R25): endpoints, palette, ramps, texels. Ramp B is BC5's green one. -/
structure BlockRegs where
  color0 : BitVec 16
  color1 : BitVec 16
  endsA : Byte × Byte
  endsB : Byte × Byte
  palette : List Rgba
  rampA : List Nat
  rampB : List Nat
  texels : List Bytes
  deriving DecidableEq, Repr

/-- The BCD's internal state beside its latch (R25). -/
structure BcdInternal where
  /-- The block index k, 0 to BX*BY. -/
  block : Nat
  regs : BlockRegs
  deriving DecidableEq, Repr

/-- The SBD register window's fields (R26 to R31). -/
structure SbdRegs where
  ie : Bool
  busy : Bool
  done : Bool
  err : Status
  ovf : Bool
  srcAddr : Word
  srcLen : Word
  dstAddr : Word
  dstCap : Word
  outLen : Word
  cursor : Word
  deriving DecidableEq, Repr

/-- The SBD's latch L (R32). -/
structure SbdLatch where
  srcAddr : Word
  srcLen : Word
  dstAddr : Word
  dstCap : Word
  deriving DecidableEq, Repr

/-- The SBD's internal state beside its latch (R33, R34). -/
structure SbdInternal where
  /-- The token count (R130). -/
  n : Nat
  major : BitVec 8
  minor : BitVec 8
  /-- The cursor, this hardware's program counter: a token index. -/
  cur : Nat
  /-- The text produced so far; its length is the byte count of R33. -/
  text : Bytes
  /-- The operand texts of the instruction rendered last (R34). -/
  operands : List Bytes
  /-- The line or partial line rendered last (R34). -/
  line : Bytes
  /-- What the decode loop returned (status and cursor, R129), while the completion step has not run. -/
  ended : Option (Status × Nat)
  deriving DecidableEq, Repr

/-- A range of SYS: `len` bytes from `base`. -/
structure Extent where
  base : Nat
  len : Nat
  deriving DecidableEq, Repr

/-- SYS as the cells that do not read 0: addresses strictly rising (R42). -/
abbrev Memory := List Host.Cell

/-- The ranges of one command: the bytes it reads and its output range (R37, R43, R44). -/
structure Footprint where
  input : Extent
  output : Extent
  deriving DecidableEq, Repr

/-- A command that completed, and whose DONE = 1 the host has not observed: its window of R60 and R61 is open. The
model's own record, log 9. -/
structure Unseen where
  ranges : Footprint
  /-- What its output range held just before it completed (R37: "the previous contents"). -/
  before : Memory
  /-- What it left there (R37: "the final values"). -/
  after : Memory
  deriving DecidableEq, Repr

/-- The model's record of one engine's commands that have ended (R59 to R61), not state of the hardware. -/
structure Duty where
  /-- This engine's completed commands whose window is still open, latest first (R60, R61). Log 9. -/
  unseen : List Unseen
  /-- The other engine's commands that ran at the same time as the running one and have completed (R59). Log 11. -/
  rivals : List Footprint
  deriving DecidableEq, Repr

/-- Where a register access goes: an offset in a window, or an address of the register bus (R42, R54). The spec gives
that bus no width, so its addresses are natural numbers. DESIGN CHOICE, safe: log 14. -/
inductive RegTarget where
  | window (win : Window) (offset : BitVec 8)
  | bus (addr : Nat)
  deriving DecidableEq, Repr

/-- What the host can do (R13, R45, R63, R241). Register accesses say their width in bytes (R56). -/
inductive HostAction where
  | regRead (target : RegTarget) (bytes : Nat)
  | regWrite (target : RegTarget) (bytes : Nat) (v : Word)
  | memRead (addr : Word)
  | memWrite (addr : Word) (v : Byte)
  | observeIrq (win : Window)
  | rst
  deriving DecidableEq, Repr

/-- Who acts at a step: the host, or an engine (R235). Log 5. -/
inductive Event where
  | host (a : HostAction)
  | bcd
  | sbd
  deriving DecidableEq, Repr

/-- The whole machine. -/
structure State where
  bcd : BcdRegs
  bcdLatch : BcdLatch
  bcdInt : BcdInternal
  sbd : SbdRegs
  sbdLatch : SbdLatch
  sbdInt : SbdInternal
  mem : Memory
  /-- The model's own: the BCD's commands that have ended, as the host's duties need them. -/
  bcdDuty : Duty
  /-- The model's own: the SBD's. -/
  sbdDuty : Duty
  /-- The model's own: what acts next, oldest first. Log 5. -/
  agenda : List Event
  /-- The model's own: what the host's last read returned. Log 3. -/
  lastRead : Word
  /-- The model's own: how many free values have been used. Log 3. -/
  freeIdx : Nat
  deriving DecidableEq, Repr

/-- Why the machine stops with a fault: never. R55: "no access can fault"; R213: no trap exists. -/
inductive Fault where
  deriving DecidableEq, Repr

/-- Why a step has no meaning: host duties broken (R222: the model takes no step and proves nothing about what
follows). All safe. -/
inductive Refusal where
  /-- An instruction whose meaning has not been written; raised by `exec` alone. Safe. -/
  | notModelled (mnemonic : String)
  /-- A register access that is not 32-bit at a multiple of 4 (R56); raised by a host action. Safe. -/
  | badRegisterAccess
  /-- A bus access outside both windows: not this hardware's (R42); raised by a host action. Safe. -/
  | outsideWindows
  /-- A command's input range runs past 2^32 - 1 (R58); raised by its engine. Safe. -/
  | inputRangeWraps
  /-- A command's output range runs past 2^32 - 1 (R58); raised by its engine. Safe. -/
  | outputRangeWraps
  /-- A command's output range overlaps its own input range (R59); raised by its engine. Safe. -/
  | outputOverlapsInput
  /-- A command's output range overlaps a range of the other engine's command that ran at the same time (R59);
  raised by its engine. Safe. -/
  | outputOverlapsOther
  /-- A command's input range overlaps the output range of the other engine's command that ran at the same time (R37,
  R60); raised by its engine. Safe. -/
  | inputOverlapsOther
  /-- A command would write a byte of the input range of an earlier command whose DONE the host has not observed (R60:
  "nothing else may"); raised by its engine. Safe. -/
  | unseenInputOverwritten
  /-- The host wrote a byte of an input range before it observed DONE = 1 (R60); raised by a host action. Safe. -/
  | inputWritten
  /-- The host wrote a byte of an output range before it observed DONE = 1 (R61); raised by a host action. Safe. -/
  | outputWritten
  /-- There is no token to decode; raised by the SBD step, which no state of it reaches. Safe. -/
  | noToken
  deriving DecidableEq, Repr

/-! ### Reset (R38, R241) -/

def BcdRegs.reset : BcdRegs where
  ie := false
  bc5Fix := false
  busy := false
  done := false
  err := .ok
  fmt := 0
  width := 0
  height := 0
  srcAddr := 0
  srcLen := 0
  dstAddr := 0
  outLen := 0

def SbdRegs.reset : SbdRegs where
  ie := false
  busy := false
  done := false
  err := .ok
  ovf := false
  srcAddr := 0
  srcLen := 0
  dstAddr := 0
  dstCap := 0
  outLen := 0
  cursor := 0

/-- DESIGN CHOICE, unsafe: R38 leaves internal state undefined after reset, log 2. -/
def BcdLatch.reset : BcdLatch := ⟨0, 0, 0, 0, 0, 0, false⟩

/-- DESIGN CHOICE, unsafe: log 2. -/
def BlockRegs.reset : BlockRegs := ⟨0, 0, (0, 0), (0, 0), [], [], [], []⟩

/-- DESIGN CHOICE, unsafe: log 2. -/
def BcdInternal.reset : BcdInternal := ⟨0, .reset⟩

/-- DESIGN CHOICE, unsafe: log 2. -/
def SbdLatch.reset : SbdLatch := ⟨0, 0, 0, 0⟩

/-- DESIGN CHOICE, unsafe: log 2. -/
def SbdInternal.reset : SbdInternal := ⟨0, 0, 0, 0, [], [], [], none⟩

/-- No command has ended: no window is open. DESIGN CHOICE, safe at power-on (log 3), unsafe after `rst` (log 21). -/
def Duty.reset : Duty := ⟨[], []⟩

/-- The machine right after reset: every shell register 0 (R38), both engines idle (R39), memory with nothing listed
(R40, log 1). The internal state and the model's own fields: DESIGN CHOICE, log 2, log 3. -/
def State.reset : State where
  bcd := .reset
  bcdLatch := .reset
  bcdInt := .reset
  sbd := .reset
  sbdLatch := .reset
  sbdInt := .reset
  mem := []
  bcdDuty := .reset
  sbdDuty := .reset
  agenda := []
  lastRead := 0
  freeIdx := 0

end Sys2Proof.Machine
end

