-- ==== Sys2Proof/Machine/Flags.lean ====
section
/-! DEFINITION. The flags and every word computed from them: status codes (60_exceptions.md R214), the CTRL and STATUS
words (10_state.md R17, R18, R26, R27), OVF (42_shader_stream.md R150) and the interrupt lines (R233). -/

namespace Sys2Proof.Machine

/-- STATUS.ERR's code (R214). -/
def Status.code : Status → BitVec 4
  | .ok => 0 | .unsupportedFormat => 1 | .insufficientData => 2

/-- BCD CTRL as read (R17): START reads 0, reserved bits read 0. -/
def BcdRegs.ctrl (r : BcdRegs) : Word := 0#29 ++ BitVec.ofBool r.bc5Fix ++ BitVec.ofBool r.ie ++ 0#1

/-- BCD STATUS as read (R18). -/
def BcdRegs.status (r : BcdRegs) : Word :=
  0#24 ++ r.err.code ++ 0#2 ++ BitVec.ofBool r.done ++ BitVec.ofBool r.busy

/-- SBD CTRL as read (R26). -/
def SbdRegs.ctrl (r : SbdRegs) : Word := 0#30 ++ BitVec.ofBool r.ie ++ 0#1

/-- SBD STATUS as read (R27). -/
def SbdRegs.status (r : SbdRegs) : Word :=
  0#23 ++ BitVec.ofBool r.ovf ++ r.err.code ++ 0#2 ++ BitVec.ofBool r.done ++ BitVec.ofBool r.busy

/-- STATUS.OVF of a text of `len` bytes (R150, R229). -/
def overflows (len : Nat) (cap : Word) : Bool := cap.toNat < len

/-- irq_bcd (R233). -/
def irqBcd (s : State) : Bool := s.bcd.done && s.bcd.ie

/-- irq_sbd (R233). -/
def irqSbd (s : State) : Bool := s.sbd.done && s.sbd.ie

end Sys2Proof.Machine
end

