-- ==== Sys2Proof/Syntax.lean ====
section
/-! DEFINITION. The instructions: one constructor of `Instr` per row of the opcode table, and the operand fields of
30_encoding.md R78 to R88 under their names. -/

namespace Sys2Proof

/-- Register types by the symbol R81 prints; `unk code` is a type with no symbol. -/
inductive RegType where
  | r | v | c | t | oFog | oPos | oT | i | oC | oDepth | s | b | aL | l | p
  | unk (code : BitVec 5)
  deriving DecidableEq, Repr

/-- A component letter of a swizzle (R83). -/
inductive Component where
  | x | y | z | w
  deriving DecidableEq, Repr

/-- A source swizzle: the component each of the four positions selects (R79). -/
structure Swizzle where
  c0 : Component
  c1 : Component
  c2 : Component
  c3 : Component
  deriving DecidableEq, Repr

/-- A write mask, one bit a component (R84). -/
structure WriteMask where
  x : Bool
  y : Bool
  z : Bool
  w : Bool
  deriving DecidableEq, Repr

/-- The destination modifier flags that print (R85; bit 23 is ignored). -/
structure DstMods where
  saturate : Bool
  partialPrecision : Bool
  centroid : Bool
  deriving DecidableEq, Repr

/-- Source modifiers, in the order of their codes 0 to 15 (R86). -/
inductive SrcMod where
  | none | negate | bias | biasNegate | sign | signNegate | complement | x2 | x2Negate | dz | dw | abs | absNegate
  | not | undefined14 | undefined15
  deriving DecidableEq, Repr

/-- A destination parameter token (R78). -/
structure DstOp where
  reg : RegType
  num : BitVec 11
  mask : WriteMask
  mods : DstMods
  deriving DecidableEq, Repr

/-- A source parameter token (R79). -/
structure SrcOp where
  reg : RegType
  num : BitVec 11
  swz : Swizzle
  mod : SrcMod
  deriving DecidableEq, Repr

/-- Declaration usages, in the order of their codes 0 to 15 (R88). -/
inductive Usage where
  | position | blendweight | blendindices | normal | psize | texcoord | tangent | binormal | tessfactor | positiont
  | color | fog | depth | sample | unnamed14 | unnamed15
  deriving DecidableEq, Repr

/-- Sampler texture types (R88): the three named ones, or a code that prints `unknown`. -/
inductive TexType where
  | twoD | cube | volume
  | unknown (code : BitVec 3)
  deriving DecidableEq, Repr

/-- A declaration token (R87). -/
structure Decl where
  usage : Usage
  index : BitVec 4
  tex : TexType
  deriving DecidableEq, Repr

/-- The instructions, one constructor per row of spec/opcode_table.json. `hi` is bits 31:16 of the opcode token,
which the diagnostic comment prints (R77, R141). An operand is `none` when the stream ends before its token: the
instruction is then truncated (R143). -/
inductive Instr where
  -- BCD commands, by FORMAT.FMT (R67)
  | decodeBc1
  | decodeBc2
  | decodeBc3
  | decodeBc4
  | decodeBc5
  | unsupportedFormat5
  | unsupportedFormat6
  | unsupportedFormat7
  -- SBD header tokens (R76)
  | headerPs (major minor : BitVec 8)
  | headerVs (major minor : BitVec 8)
  | headerRejected (tok : Word)
  -- SBD generic opcodes (R91)
  | nop (hi : BitVec 16)
  | mov (hi : BitVec 16) (d : Option DstOp) (a : Option SrcOp)
  | add (hi : BitVec 16) (d : Option DstOp) (a b : Option SrcOp)
  | sub (hi : BitVec 16) (d : Option DstOp) (a b : Option SrcOp)
  | mad (hi : BitVec 16) (d : Option DstOp) (a b c : Option SrcOp)
  | mul (hi : BitVec 16) (d : Option DstOp) (a b : Option SrcOp)
  | rcp (hi : BitVec 16) (d : Option DstOp) (a : Option SrcOp)
  | rsq (hi : BitVec 16) (d : Option DstOp) (a : Option SrcOp)
  | dp3 (hi : BitVec 16) (d : Option DstOp) (a b : Option SrcOp)
  | dp4 (hi : BitVec 16) (d : Option DstOp) (a b : Option SrcOp)
  | min (hi : BitVec 16) (d : Option DstOp) (a b : Option SrcOp)
  | max (hi : BitVec 16) (d : Option DstOp) (a b : Option SrcOp)
  | slt (hi : BitVec 16) (d : Option DstOp) (a b : Option SrcOp)
  | sge (hi : BitVec 16) (d : Option DstOp) (a b : Option SrcOp)
  | exp (hi : BitVec 16) (d : Option DstOp) (a : Option SrcOp)
  | log (hi : BitVec 16) (d : Option DstOp) (a : Option SrcOp)
  | lit (hi : BitVec 16) (d : Option DstOp) (a : Option SrcOp)
  | dst (hi : BitVec 16) (d : Option DstOp) (a b : Option SrcOp)
  | lrp (hi : BitVec 16) (d : Option DstOp) (a b c : Option SrcOp)
  | frc (hi : BitVec 16) (d : Option DstOp) (a : Option SrcOp)
  | m4x4 (hi : BitVec 16) (d : Option DstOp) (a b : Option SrcOp)
  | m4x3 (hi : BitVec 16) (d : Option DstOp) (a b : Option SrcOp)
  | m3x4 (hi : BitVec 16) (d : Option DstOp) (a b : Option SrcOp)
  | m3x3 (hi : BitVec 16) (d : Option DstOp) (a b : Option SrcOp)
  | m3x2 (hi : BitVec 16) (d : Option DstOp) (a b : Option SrcOp)
  | call (hi : BitVec 16) (a : Option SrcOp)
  | callnz (hi : BitVec 16) (a b : Option SrcOp)
  | loop (hi : BitVec 16) (a b : Option SrcOp)
  | ret (hi : BitVec 16)
  | endloop (hi : BitVec 16)
  | label (hi : BitVec 16) (a : Option SrcOp)
  | pow (hi : BitVec 16) (d : Option DstOp) (a b : Option SrcOp)
  | crs (hi : BitVec 16) (d : Option DstOp) (a b : Option SrcOp)
  | sgn (hi : BitVec 16) (d : Option DstOp) (a b c : Option SrcOp)
  | abs (hi : BitVec 16) (d : Option DstOp) (a : Option SrcOp)
  | nrm (hi : BitVec 16) (d : Option DstOp) (a : Option SrcOp)
  | sincos (hi : BitVec 16) (d : Option DstOp) (a b c : Option SrcOp)
  | rep (hi : BitVec 16) (a : Option SrcOp)
  | endrep (hi : BitVec 16)
  | mova (hi : BitVec 16) (d : Option DstOp) (a : Option SrcOp)
  | phase (hi : BitVec 16)
  | end_ (hi : BitVec 16)
  -- SBD special opcodes (R92, R93)
  | dcl (hi : BitVec 16) (u : Option Decl) (d : Option DstOp)
  | tex (hi : BitVec 16) (d : Option DstOp)
  | texld14 (hi : BitVec 16) (d : Option DstOp) (a : Option SrcOp)
  | texld20 (hi : BitVec 16) (d : Option DstOp) (a b : Option SrcOp)
  | def_ (hi : BitVec 16) (d : Option DstOp) (f0 f1 f2 f3 : Option Word)
  -- every other opcode (R95)
  | unrecognised (tok : Word)
  deriving DecidableEq, Repr

end Sys2Proof
end

