-- ==== Sys2Proof/WellFormed.lean ====
section
/-! DEFINITION. Which instructions stand for something the stream can hold: a type code named `unk` has no symbol,
a missing operand is followed by no present one, and a token that names an instruction is not called unrecognised. -/

namespace Sys2Proof

/-- `unk` holds only the codes R81 gives no symbol: 11 to 13, 16, 17, 20 to 31. -/
def RegType.wellFormed : RegType → Bool
  | .unk code => let n := code.toNat; (11 ≤ n && n ≤ 13) || n = 16 || n = 17 || 20 ≤ n
  | _ => true

def DstOp.wellFormed (d : DstOp) : Bool := d.reg.wellFormed

def SrcOp.wellFormed (s : SrcOp) : Bool := s.reg.wellFormed

/-- `unknown` holds only the codes R88 gives no name: 0, 1, 5, 6, 7. -/
def Decl.wellFormed (u : Decl) : Bool :=
  match u.tex with
  | .unknown code => code ≠ 2 && code ≠ 3 && code ≠ 4
  | _ => true

/-- An operand that is present is well formed. -/
def presentWf {α : Type} (wf : α → Bool) : Option α → Bool
  | none => true
  | some a => wf a

/-- After a missing operand no operand is present: tokens run out once (R143). -/
def present : List Bool → Bool
  | [] => true
  | true :: rest => present rest
  | false :: rest => rest.all (· = false)

/-- The opcodes some row of R91 to R93 names (R90 classes 1 to 4). -/
def recognised (op : BitVec 16) : Bool :=
  let n := op.toNat
  n ≤ 39 || n = 46 || n = 66 || n = 81 || n = 65533 || n = 65535

/-- Destination and source operands of a generic instruction, in token order. -/
def operandsWf (d : Option (Option DstOp)) (srcs : List (Option SrcOp)) : Bool :=
  (match d with
    | none => true
    | some d => presentWf DstOp.wellFormed d) &&
  srcs.all (presentWf SrcOp.wellFormed) &&
  present ((match d with | none => [] | some d => [d.isSome]) ++ srcs.map (·.isSome))

/-- Well-formed instructions: those the decoder can answer. -/
def Instr.wellFormed : Instr → Bool
  | .decodeBc1 | .decodeBc2 | .decodeBc3 | .decodeBc4 | .decodeBc5 => true
  | .unsupportedFormat5 | .unsupportedFormat6 | .unsupportedFormat7 => true
  | .headerPs _ _ | .headerVs _ _ => true
  | .headerRejected tok => tok.extractLsb' 16 16 ≠ 0xFFFF#16 && tok.extractLsb' 16 16 ≠ 0xFFFE#16
  | .nop _ | .ret _ | .endloop _ | .endrep _ | .phase _ | .end_ _ => true
  | .mov _ d a | .rcp _ d a | .rsq _ d a | .exp _ d a | .log _ d a | .lit _ d a | .frc _ d a | .abs _ d a
  | .nrm _ d a | .mova _ d a | .texld14 _ d a => operandsWf (some d) [a]
  | .add _ d a b | .sub _ d a b | .mul _ d a b | .dp3 _ d a b | .dp4 _ d a b | .min _ d a b | .max _ d a b
  | .slt _ d a b | .sge _ d a b | .dst _ d a b | .m4x4 _ d a b | .m4x3 _ d a b | .m3x4 _ d a b | .m3x3 _ d a b
  | .m3x2 _ d a b | .pow _ d a b | .crs _ d a b | .texld20 _ d a b => operandsWf (some d) [a, b]
  | .mad _ d a b c | .lrp _ d a b c | .sgn _ d a b c | .sincos _ d a b c => operandsWf (some d) [a, b, c]
  | .call _ a | .label _ a | .rep _ a => operandsWf none [a]
  | .callnz _ a b | .loop _ a b => operandsWf none [a, b]
  | .tex _ d => operandsWf (some d) []
  | .dcl _ u d => presentWf Decl.wellFormed u && presentWf DstOp.wellFormed d && present [u.isSome, d.isSome]
  | .def_ _ d f0 f1 f2 f3 =>
    presentWf DstOp.wellFormed d && present [d.isSome, f0.isSome, f1.isSome, f2.isSome, f3.isSome]
  | .unrecognised tok => !recognised (tok.extractLsb' 0 16)

end Sys2Proof
end

