-- ==== Sys2Proof/Decode.lean ====
section
/-! DEFINITION. From words to instructions and back (30_encoding.md). A word stands in one of three places: the
FORMAT register (R67), token 0 of a stream (R76), or a later token of a stream whose header gave the version (R90). -/

namespace Sys2Proof

/-- Where the word being decoded stands; the version selects the form of opcode 66 (R92). -/
inductive Place where
  | format
  | header
  | stream (major minor : BitVec 8)
  deriving DecidableEq, Repr

/-- Why nothing is decoded. R212: no value of a word is rejected, so only an absent word is. -/
inductive Reject where
  /-- There is no word at the place. Safe. -/
  | noWord
  deriving DecidableEq, Repr

/-! ### Fields -/

/-- R81's codes. -/
def RegType.ofCode (code : BitVec 5) : RegType :=
  match code.toNat with
  | 0 => .r | 1 => .v | 2 => .c | 3 => .t | 4 => .oFog | 5 => .oPos | 6 => .oT | 7 => .i | 8 => .oC | 9 => .oDepth
  | 10 => .s | 14 => .b | 15 => .aL | 18 => .l | 19 => .p
  | _ => .unk code

def RegType.toCode : RegType → BitVec 5
  | .r => 0 | .v => 1 | .c => 2 | .t => 3 | .oFog => 4 | .oPos => 5 | .oT => 6 | .i => 7 | .oC => 8 | .oDepth => 9
  | .s => 10 | .b => 14 | .aL => 15 | .l => 18 | .p => 19
  | .unk code => code

/-- R80: type = tok[30:28] | tok[12:11] << 3. -/
def regTypeOf (tok : Word) : RegType := .ofCode (tok.extractLsb' 11 2 ++ tok.extractLsb' 28 3)

def Component.ofCode (code : BitVec 2) : Component :=
  match code.toNat with
  | 0 => .x | 1 => .y | 2 => .z | _ => .w

def Component.toCode : Component → BitVec 2
  | .x => 0 | .y => 1 | .z => 2 | .w => 3

/-- R79: component k selects swz[2k+1:2k]. -/
def Swizzle.ofCode (swz : BitVec 8) : Swizzle where
  c0 := .ofCode (swz.extractLsb' 0 2)
  c1 := .ofCode (swz.extractLsb' 2 2)
  c2 := .ofCode (swz.extractLsb' 4 2)
  c3 := .ofCode (swz.extractLsb' 6 2)

def Swizzle.toCode (s : Swizzle) : BitVec 8 := s.c3.toCode ++ s.c2.toCode ++ s.c1.toCode ++ s.c0.toCode

/-- R86's codes. -/
def SrcMod.ofCode (code : BitVec 4) : SrcMod :=
  match code.toNat with
  | 0 => .none | 1 => .negate | 2 => .bias | 3 => .biasNegate | 4 => .sign | 5 => .signNegate | 6 => .complement
  | 7 => .x2 | 8 => .x2Negate | 9 => .dz | 10 => .dw | 11 => .abs | 12 => .absNegate | 13 => .not
  | 14 => .undefined14 | _ => .undefined15

def SrcMod.toCode : SrcMod → BitVec 4
  | .none => 0 | .negate => 1 | .bias => 2 | .biasNegate => 3 | .sign => 4 | .signNegate => 5 | .complement => 6
  | .x2 => 7 | .x2Negate => 8 | .dz => 9 | .dw => 10 | .abs => 11 | .absNegate => 12 | .not => 13
  | .undefined14 => 14 | .undefined15 => 15

/-- R88's usage codes. -/
def Usage.ofCode (code : BitVec 4) : Usage :=
  match code.toNat with
  | 0 => .position | 1 => .blendweight | 2 => .blendindices | 3 => .normal | 4 => .psize | 5 => .texcoord
  | 6 => .tangent | 7 => .binormal | 8 => .tessfactor | 9 => .positiont | 10 => .color | 11 => .fog | 12 => .depth
  | 13 => .sample | 14 => .unnamed14 | _ => .unnamed15

def Usage.toCode : Usage → BitVec 4
  | .position => 0 | .blendweight => 1 | .blendindices => 2 | .normal => 3 | .psize => 4 | .texcoord => 5
  | .tangent => 6 | .binormal => 7 | .tessfactor => 8 | .positiont => 9 | .color => 10 | .fog => 11 | .depth => 12
  | .sample => 13 | .unnamed14 => 14 | .unnamed15 => 15

/-- R88's texture-type codes. -/
def TexType.ofCode (code : BitVec 3) : TexType :=
  match code.toNat with
  | 2 => .twoD | 3 => .cube | 4 => .volume | _ => .unknown code

def TexType.toCode : TexType → BitVec 3
  | .twoD => 2 | .cube => 3 | .volume => 4 | .unknown code => code

/-! ### Parameter tokens -/

/-- R78. Bits 15:13, 23, 27:24 and 31 are ignored. -/
def DstOp.ofToken (tok : Word) : DstOp where
  reg := regTypeOf tok
  num := tok.extractLsb' 0 11
  mask := ⟨tok.getLsbD 16, tok.getLsbD 17, tok.getLsbD 18, tok.getLsbD 19⟩
  mods := ⟨tok.getLsbD 20, tok.getLsbD 21, tok.getLsbD 22⟩

/-- R79. Bits 15:13 and 31 are ignored. -/
def SrcOp.ofToken (tok : Word) : SrcOp where
  reg := regTypeOf tok
  num := tok.extractLsb' 0 11
  swz := .ofCode (tok.extractLsb' 16 8)
  mod := .ofCode (tok.extractLsb' 24 4)

/-- R87. -/
def Decl.ofToken (tok : Word) : Decl where
  usage := .ofCode (tok.extractLsb' 0 4)
  index := tok.extractLsb' 16 4
  tex := .ofCode (tok.extractLsb' 27 3)

/-! ### Decoding -/

/-- The k-th parameter token as a destination, missing when the tokens run out (R143). -/
def dstAt (rest : List Word) (k : Nat) : Option DstOp := rest[k]?.map DstOp.ofToken

/-- The k-th parameter token as a source. -/
def srcAt (rest : List Word) (k : Nat) : Option SrcOp := rest[k]?.map SrcOp.ofToken

/-- The k-th parameter token as a declaration token. -/
def declAt (rest : List Word) (k : Nat) : Option Decl := rest[k]?.map Decl.ofToken

/-- The three forms of opcode 66 (R92). -/
inductive TexForm where
  | tex | texld14 | texld20
  deriving DecidableEq, Repr

/-- TEX_FORM(major, minor) (R92). -/
def texForm (version : BitVec 8 × BitVec 8) : TexForm :=
  if version.1 = 0 then .tex
  else if version.1 = 1 then (if version.2.toNat < 4 then .tex else .texld14)
  else .texld20

/-- Opcode 66, in the version's form (R197). -/
def decodeTex (version : BitVec 8 × BitVec 8) (hi : BitVec 16) (rest : List Word) : Instr × List Word :=
  match texForm version with
  | .tex => (.tex hi (dstAt rest 0), rest.drop 1)
  | .texld14 => (.texld14 hi (dstAt rest 0) (srcAt rest 1), rest.drop 2)
  | .texld20 => (.texld20 hi (dstAt rest 0) (srcAt rest 1) (srcAt rest 2), rest.drop 3)

/-- An opcode token and the tokens after it (R90 to R95): the instruction and the tokens it leaves. -/
def decodeOpcode (version : BitVec 8 × BitVec 8) (tok : Word) (rest : List Word) : Instr × List Word :=
  let hi := tok.extractLsb' 16 16
  match (tok.extractLsb' 0 16).toNat with
  | 0 => (.nop hi, rest)
  | 1 => (.mov hi (dstAt rest 0) (srcAt rest 1), rest.drop 2)
  | 2 => (.add hi (dstAt rest 0) (srcAt rest 1) (srcAt rest 2), rest.drop 3)
  | 3 => (.sub hi (dstAt rest 0) (srcAt rest 1) (srcAt rest 2), rest.drop 3)
  | 4 => (.mad hi (dstAt rest 0) (srcAt rest 1) (srcAt rest 2) (srcAt rest 3), rest.drop 4)
  | 5 => (.mul hi (dstAt rest 0) (srcAt rest 1) (srcAt rest 2), rest.drop 3)
  | 6 => (.rcp hi (dstAt rest 0) (srcAt rest 1), rest.drop 2)
  | 7 => (.rsq hi (dstAt rest 0) (srcAt rest 1), rest.drop 2)
  | 8 => (.dp3 hi (dstAt rest 0) (srcAt rest 1) (srcAt rest 2), rest.drop 3)
  | 9 => (.dp4 hi (dstAt rest 0) (srcAt rest 1) (srcAt rest 2), rest.drop 3)
  | 10 => (.min hi (dstAt rest 0) (srcAt rest 1) (srcAt rest 2), rest.drop 3)
  | 11 => (.max hi (dstAt rest 0) (srcAt rest 1) (srcAt rest 2), rest.drop 3)
  | 12 => (.slt hi (dstAt rest 0) (srcAt rest 1) (srcAt rest 2), rest.drop 3)
  | 13 => (.sge hi (dstAt rest 0) (srcAt rest 1) (srcAt rest 2), rest.drop 3)
  | 14 => (.exp hi (dstAt rest 0) (srcAt rest 1), rest.drop 2)
  | 15 => (.log hi (dstAt rest 0) (srcAt rest 1), rest.drop 2)
  | 16 => (.lit hi (dstAt rest 0) (srcAt rest 1), rest.drop 2)
  | 17 => (.dst hi (dstAt rest 0) (srcAt rest 1) (srcAt rest 2), rest.drop 3)
  | 18 => (.lrp hi (dstAt rest 0) (srcAt rest 1) (srcAt rest 2) (srcAt rest 3), rest.drop 4)
  | 19 => (.frc hi (dstAt rest 0) (srcAt rest 1), rest.drop 2)
  | 20 => (.m4x4 hi (dstAt rest 0) (srcAt rest 1) (srcAt rest 2), rest.drop 3)
  | 21 => (.m4x3 hi (dstAt rest 0) (srcAt rest 1) (srcAt rest 2), rest.drop 3)
  | 22 => (.m3x4 hi (dstAt rest 0) (srcAt rest 1) (srcAt rest 2), rest.drop 3)
  | 23 => (.m3x3 hi (dstAt rest 0) (srcAt rest 1) (srcAt rest 2), rest.drop 3)
  | 24 => (.m3x2 hi (dstAt rest 0) (srcAt rest 1) (srcAt rest 2), rest.drop 3)
  | 25 => (.call hi (srcAt rest 0), rest.drop 1)
  | 26 => (.callnz hi (srcAt rest 0) (srcAt rest 1), rest.drop 2)
  | 27 => (.loop hi (srcAt rest 0) (srcAt rest 1), rest.drop 2)
  | 28 => (.ret hi, rest)
  | 29 => (.endloop hi, rest)
  | 30 => (.label hi (srcAt rest 0), rest.drop 1)
  | 31 => (.dcl hi (declAt rest 0) (dstAt rest 1), rest.drop 2)
  | 32 => (.pow hi (dstAt rest 0) (srcAt rest 1) (srcAt rest 2), rest.drop 3)
  | 33 => (.crs hi (dstAt rest 0) (srcAt rest 1) (srcAt rest 2), rest.drop 3)
  | 34 => (.sgn hi (dstAt rest 0) (srcAt rest 1) (srcAt rest 2) (srcAt rest 3), rest.drop 4)
  | 35 => (.abs hi (dstAt rest 0) (srcAt rest 1), rest.drop 2)
  | 36 => (.nrm hi (dstAt rest 0) (srcAt rest 1), rest.drop 2)
  | 37 => (.sincos hi (dstAt rest 0) (srcAt rest 1) (srcAt rest 2) (srcAt rest 3), rest.drop 4)
  | 38 => (.rep hi (srcAt rest 0), rest.drop 1)
  | 39 => (.endrep hi, rest)
  | 46 => (.mova hi (dstAt rest 0) (srcAt rest 1), rest.drop 2)
  | 66 => decodeTex version hi rest
  | 81 => (.def_ hi (dstAt rest 0) rest[1]? rest[2]? rest[3]? rest[4]?, rest.drop 5)
  | 65533 => (.phase hi, rest)
  | 65535 => (.end_ hi, rest)
  | _ => (.unrecognised tok, rest)

/-- A header token (R76, R132). -/
def decodeHeader (tok : Word) : Instr :=
  if tok.extractLsb' 16 16 = 0xFFFF#16 then .headerPs (tok.extractLsb' 8 8) (tok.extractLsb' 0 8)
  else if tok.extractLsb' 16 16 = 0xFFFE#16 then .headerVs (tok.extractLsb' 8 8) (tok.extractLsb' 0 8)
  else .headerRejected tok

/-- A FORMAT.FMT value (R67). -/
def decodeFmt (fmt : BitVec 3) : Instr :=
  match fmt.toNat with
  | 0 => .decodeBc1 | 1 => .decodeBc2 | 2 => .decodeBc3 | 3 => .decodeBc4 | 4 => .decodeBc5
  | 5 => .unsupportedFormat5 | 6 => .unsupportedFormat6 | _ => .unsupportedFormat7

/-- The decoder: total, and it rejects only an absent word (R212). It answers the instruction and the words after it. -/
def decode (place : Place) (ws : List Word) : Except Reject (Instr × List Word) :=
  match ws with
  | [] => .error .noWord
  | tok :: rest =>
    match place with
    | .format => .ok (decodeFmt (tok.extractLsb' 0 3), rest)
    | .header => .ok (decodeHeader tok, rest)
    | .stream major minor => .ok (decodeOpcode (major, minor) tok rest)

/-! ### Encoding -/

/-- A destination token; ignored bits 0, bit 31 set. DESIGN CHOICE, safe, log 16. -/
def DstOp.toToken (d : DstOp) : Word :=
  1#1 ++ d.reg.toCode.extractLsb' 0 3 ++ 0#4 ++
    (0#1 ++ BitVec.ofBool d.mods.centroid ++ BitVec.ofBool d.mods.partialPrecision ++ BitVec.ofBool d.mods.saturate) ++
    (BitVec.ofBool d.mask.w ++ BitVec.ofBool d.mask.z ++ BitVec.ofBool d.mask.y ++ BitVec.ofBool d.mask.x) ++
    0#3 ++ d.reg.toCode.extractLsb' 3 2 ++ d.num

/-- A source token; ignored bits 0, bit 31 set. DESIGN CHOICE, safe, log 16. -/
def SrcOp.toToken (s : SrcOp) : Word :=
  1#1 ++ s.reg.toCode.extractLsb' 0 3 ++ s.mod.toCode ++ s.swz.toCode ++ 0#3 ++ s.reg.toCode.extractLsb' 3 2 ++ s.num

/-- A declaration token; ignored bits 0, bit 31 set. DESIGN CHOICE, safe, log 16. -/
def Decl.toToken (u : Decl) : Word :=
  1#1 ++ 0#1 ++ u.tex.toCode ++ 0#7 ++ u.index ++ 0#12 ++ u.usage.toCode

/-- An opcode token from bits 31:16 and the opcode (R77). -/
def opTok (hi op : BitVec 16) : Word := hi ++ op

/-- The tokens of the operands that are present, in token order. -/
def operandToks (d : Option (Option DstOp)) (srcs : List (Option SrcOp)) : List Word :=
  (match d with
    | some (some d) => [d.toToken]
    | _ => []) ++
  srcs.filterMap (·.map SrcOp.toToken)

/-- The words of an instruction: an FMT value for a BCD command, tokens for the rest. -/
def encode : Instr → List Word
  | .decodeBc1 => [0]
  | .decodeBc2 => [1]
  | .decodeBc3 => [2]
  | .decodeBc4 => [3]
  | .decodeBc5 => [4]
  | .unsupportedFormat5 => [5]
  | .unsupportedFormat6 => [6]
  | .unsupportedFormat7 => [7]
  | .headerPs major minor => [0xFFFF#16 ++ major ++ minor]
  | .headerVs major minor => [0xFFFE#16 ++ major ++ minor]
  | .headerRejected tok => [tok]
  | .nop hi => [opTok hi 0]
  | .mov hi d a => opTok hi 1 :: operandToks (some d) [a]
  | .add hi d a b => opTok hi 2 :: operandToks (some d) [a, b]
  | .sub hi d a b => opTok hi 3 :: operandToks (some d) [a, b]
  | .mad hi d a b c => opTok hi 4 :: operandToks (some d) [a, b, c]
  | .mul hi d a b => opTok hi 5 :: operandToks (some d) [a, b]
  | .rcp hi d a => opTok hi 6 :: operandToks (some d) [a]
  | .rsq hi d a => opTok hi 7 :: operandToks (some d) [a]
  | .dp3 hi d a b => opTok hi 8 :: operandToks (some d) [a, b]
  | .dp4 hi d a b => opTok hi 9 :: operandToks (some d) [a, b]
  | .min hi d a b => opTok hi 10 :: operandToks (some d) [a, b]
  | .max hi d a b => opTok hi 11 :: operandToks (some d) [a, b]
  | .slt hi d a b => opTok hi 12 :: operandToks (some d) [a, b]
  | .sge hi d a b => opTok hi 13 :: operandToks (some d) [a, b]
  | .exp hi d a => opTok hi 14 :: operandToks (some d) [a]
  | .log hi d a => opTok hi 15 :: operandToks (some d) [a]
  | .lit hi d a => opTok hi 16 :: operandToks (some d) [a]
  | .dst hi d a b => opTok hi 17 :: operandToks (some d) [a, b]
  | .lrp hi d a b c => opTok hi 18 :: operandToks (some d) [a, b, c]
  | .frc hi d a => opTok hi 19 :: operandToks (some d) [a]
  | .m4x4 hi d a b => opTok hi 20 :: operandToks (some d) [a, b]
  | .m4x3 hi d a b => opTok hi 21 :: operandToks (some d) [a, b]
  | .m3x4 hi d a b => opTok hi 22 :: operandToks (some d) [a, b]
  | .m3x3 hi d a b => opTok hi 23 :: operandToks (some d) [a, b]
  | .m3x2 hi d a b => opTok hi 24 :: operandToks (some d) [a, b]
  | .call hi a => opTok hi 25 :: operandToks none [a]
  | .callnz hi a b => opTok hi 26 :: operandToks none [a, b]
  | .loop hi a b => opTok hi 27 :: operandToks none [a, b]
  | .ret hi => [opTok hi 28]
  | .endloop hi => [opTok hi 29]
  | .label hi a => opTok hi 30 :: operandToks none [a]
  | .dcl hi u d => opTok hi 31 :: (u.toList.map Decl.toToken ++ d.toList.map DstOp.toToken)
  | .pow hi d a b => opTok hi 32 :: operandToks (some d) [a, b]
  | .crs hi d a b => opTok hi 33 :: operandToks (some d) [a, b]
  | .sgn hi d a b c => opTok hi 34 :: operandToks (some d) [a, b, c]
  | .abs hi d a => opTok hi 35 :: operandToks (some d) [a]
  | .nrm hi d a => opTok hi 36 :: operandToks (some d) [a]
  | .sincos hi d a b c => opTok hi 37 :: operandToks (some d) [a, b, c]
  | .rep hi a => opTok hi 38 :: operandToks none [a]
  | .endrep hi => [opTok hi 39]
  | .mova hi d a => opTok hi 46 :: operandToks (some d) [a]
  | .tex hi d => opTok hi 66 :: operandToks (some d) []
  | .texld14 hi d a => opTok hi 66 :: operandToks (some d) [a]
  | .texld20 hi d a b => opTok hi 66 :: operandToks (some d) [a, b]
  | .def_ hi d f0 f1 f2 f3 =>
    opTok hi 81 :: (d.toList.map DstOp.toToken ++ (f0.toList ++ f1.toList ++ f2.toList ++ f3.toList))
  | .phase hi => [opTok hi 65533]
  | .end_ hi => [opTok hi 65535]
  | .unrecognised tok => [tok]

/-- The places an instruction's words can stand in. -/
def Place.admits (place : Place) : Instr → Bool
  | .decodeBc1 | .decodeBc2 | .decodeBc3 | .decodeBc4 | .decodeBc5 | .unsupportedFormat5 | .unsupportedFormat6
  | .unsupportedFormat7 => place = .format
  | .headerPs _ _ | .headerVs _ _ | .headerRejected _ => place = .header
  | i =>
    match place with
    | .stream major minor =>
      match i with
      | .tex _ _ => texForm (major, minor) = .tex
      | .texld14 _ _ _ => texForm (major, minor) = .texld14
      | .texld20 _ _ _ _ => texForm (major, minor) = .texld20
      | _ => true
    | _ => false

/-- Every operand the instruction's form has is there: it is not truncated (R143). -/
def Instr.complete : Instr → Bool
  | .mov _ d a | .rcp _ d a | .rsq _ d a | .exp _ d a | .log _ d a | .lit _ d a | .frc _ d a | .abs _ d a
  | .nrm _ d a | .mova _ d a | .texld14 _ d a => d.isSome && a.isSome
  | .add _ d a b | .sub _ d a b | .mul _ d a b | .dp3 _ d a b | .dp4 _ d a b | .min _ d a b | .max _ d a b
  | .slt _ d a b | .sge _ d a b | .dst _ d a b | .m4x4 _ d a b | .m4x3 _ d a b | .m3x4 _ d a b | .m3x3 _ d a b
  | .m3x2 _ d a b | .pow _ d a b | .crs _ d a b | .texld20 _ d a b => d.isSome && a.isSome && b.isSome
  | .mad _ d a b c | .lrp _ d a b c | .sgn _ d a b c | .sincos _ d a b c =>
    d.isSome && a.isSome && b.isSome && c.isSome
  | .call _ a | .label _ a | .rep _ a => a.isSome
  | .callnz _ a b | .loop _ a b => a.isSome && b.isSome
  | .tex _ d => d.isSome
  | .dcl _ u d => u.isSome && d.isSome
  | .def_ _ d f0 f1 f2 f3 => d.isSome && f0.isSome && f1.isSome && f2.isSome && f3.isSome
  | _ => true

/-! ### The opcode table's words -/

/-- Token j of a word that numbers a whole instruction's bits from its first token up. -/
def tableToken (w j : Nat) : Word := BitVec.ofNat 32 (w / 2 ^ (32 * j))

/-- The words of a table word, up to the longest instruction's 6 tokens (DEF, R93). -/
def tableTokens (w : Nat) : List Word := [0, 1, 2, 3, 4, 5].map (tableToken w)

/-- Which place a table row's width names: the opcode field of a stream token is 16 bits, a header row 32, and every
other width an FMT row. The stream's version is 2.0. DESIGN CHOICE, safe: it concerns the table only, log 7. -/
def tablePlace (nbits : Nat) : Place :=
  if nbits = 32 then .header
  else if nbits = 16 || 32 < nbits then .stream 2 0
  else .format

/-- The instruction the decoder reads from a table word. -/
def decodeTableWord (nbits w : Nat) : Option Instr :=
  match decode (tablePlace nbits) (tableTokens w) with
  | .ok (i, _) => some i
  | .error _ => none

end Sys2Proof
end

