-- ==== Sys2Proof/Config.lean ====
section
/-! DEFINITION. What an implementation fixes: the parameters of 00_scope.md R6 at their defaults, the OPEN window
bases, and the free values. -/

namespace Sys2Proof

/-- RGB565_ORDER (R6, R69): which end of the colour word holds red. -/
inductive Rgb565Order where
  | rHigh | bHigh
  deriving DecidableEq, Repr

/-- BC23_COLOR_MODE (R6, R112): how BC2 and BC3 build their palette. -/
inductive Bc23ColorMode where
  | fourColor | bc1RuleOpaque
  deriving DecidableEq, Repr

/-- RGB565_ORDER, default R_HIGH (decision D9). DESIGN CHOICE, safe: the spec's default, log 13. -/
def Config.rgb565Order : Rgb565Order := .rHigh

/-- BC23_COLOR_MODE, default FOUR_COLOR (decision D11). DESIGN CHOICE, safe: the spec's default, log 13. -/
def Config.bc23ColorMode : Bc23ColorMode := .fourColor

/-- BLEND_DIV, default truncating division (decision D10). DESIGN CHOICE, safe: the spec's default, log 13. -/
def Config.blendDiv (a b : Nat) : Nat := a / b

/-- RAMP_DIV, default truncating division (decision D12). DESIGN CHOICE, safe: the spec's default, log 13. -/
def Config.rampDiv (a b : Nat) : Nat := a / b

/-- PAD_COLUMN (R6). -/
def Config.padColumn : Nat := 60

/-- BCD_BASE div 256. BCD_BASE is OPEN (R6, R54: 256-byte aligned). The spec gives a register-bus address no width;
the model assumes none, so this is a natural number. DESIGN CHOICE, safe: nothing is known of it, log 14. -/
opaque Config.bcdPage : Nat

/-- Which page is SBD_BASE's, counted with BCD_BASE's page left out. DESIGN CHOICE, safe: nothing is known of it,
log 14. -/
opaque Config.sbdPick : Nat

/-- SBD_BASE div 256: OPEN, any page but BCD_BASE's (R54: the windows do not overlap), log 14. -/
def Config.sbdPage : Nat := if Config.sbdPick < Config.bcdPage then Config.sbdPick else Config.sbdPick + 1

/-- A byte of the output range of a command abandoned by reset (R39, R243: unspecified), or the final value of a byte a
refused command never computes (R58). A free value, log 8, log 12. -/
opaque Config.freeByte : Nat → Byte

/-- Which of the values R37 allows a host read of an output byte in its window returns: an index into their list.
A free value, log 8. -/
opaque Config.freePick : Nat → Nat

end Sys2Proof
end

