-- ==== Sys2Proof/Machine/Text.lean ====
section
/-! DEFINITION. The text primitives of 00_scope.md R8, the instruction line of 42_shader_stream.md R141, and
FLOAT_TEXT of 45_shader_special.md R202. -/

namespace Sys2Proof.Machine

/-- A literal of the output text as ASCII bytes (R8, R149). -/
def ascii (s : String) : Bytes := s.toList.map fun c => BitVec.ofNat 8 c.toNat

/-- The ASCII byte of a decimal digit. -/
def decDigit (d : Nat) : Byte := BitVec.ofNat 8 (48 + d)

/-- The decimal digits of `n` in front of `acc`; `fuel` bounds their number. -/
def decDigits : (fuel n : Nat) → (acc : Bytes) → Bytes
  | 0, _, acc => acc
  | fuel + 1, n, acc =>
    if n < 10 then decDigit n :: acc else decDigits fuel (n / 10) (decDigit (n % 10) :: acc)

/-- `dec(n)`: the shortest decimal spelling (R8). A number has no more decimal than binary digits. -/
def dec (n : Nat) : Bytes := decDigits (n.log2 + 1) n []

/-- The low `k` decimal digits of `n`, zero-filled. -/
def decFixed : (k n : Nat) → Bytes
  | 0, _ => []
  | k + 1, n => decFixed k (n / 10) ++ [decDigit (n % 10)]

/-- A lowercase hexadecimal digit. -/
def hexDigit (d : Nat) : Byte := if d < 10 then BitVec.ofNat 8 (48 + d) else BitVec.ofNat 8 (87 + d)

/-- The low `k` hexadecimal digits of `n`, zero-filled. -/
def hexFixed : (k n : Nat) → Bytes
  | 0, _ => []
  | k + 1, n => hexFixed k (n / 16) ++ [hexDigit (n % 16)]

/-- `hex4(n)` (R8). -/
def hex4 (n : Nat) : Bytes := hexFixed 4 n

/-- `hex8(n)` (R8). -/
def hex8 (n : Nat) : Bytes := hexFixed 8 n

/-- `k` spaces. -/
def spaces (k : Nat) : Bytes := List.replicate k 32

/-- `pad2(n)`: `dec(n)` right-aligned in 2 columns (R8). -/
def pad2 (n : Nat) : Bytes := spaces (2 - (dec n).length) ++ dec n

/-- `join(", ", list)` (R8). -/
def joinComma : List Bytes → Bytes
  | [] => []
  | [a] => a
  | a :: rest => a ++ ascii ", " ++ joinComma rest

/-- `opsuffix(ops)` (R137). -/
def opsuffix (ops : List Bytes) : Bytes := if ops = [] then [] else ascii " " ++ joinComma ops

/-- `mkline(b, t)` (R141, R142): the body, its padding to PAD_COLUMN, the diagnostic comment of the opcode token. -/
def mkline (body : Bytes) (tok : Word) : Bytes :=
  body ++ spaces (Config.padColumn - body.length) ++
    ascii "; opcode: 0x" ++ hex4 (tok.extractLsb' 0 16).toNat ++
    ascii ", len: " ++ pad2 (tok.extractLsb' 24 4).toNat ++
    ascii ", val: 0x" ++ hex8 tok.toNat ++ ascii "\n"

/-- `num / den` to the nearest natural, ties to even (R202). -/
def roundHalfEven (num den : Nat) : Nat :=
  let q := num / den
  let r := num % den
  if 2 * r < den then q else if den < 2 * r then q + 1 else if q % 2 = 0 then q else q + 1

/-- The magnitude of a finite binary32 in millionths, rounded (R202): `m * 2^(e - 150)` with `m` the significand. -/
def floatMillionths (expo frac : Nat) : Nat :=
  let m := if expo = 0 then frac else 2 ^ 23 + frac
  let e := if expo = 0 then 1 else expo
  if 150 ≤ e then m * 10 ^ 6 * 2 ^ (e - 150) else roundHalfEven (m * 10 ^ 6) (2 ^ (150 - e))

/-- FLOAT_TEXT(x) (R202), of a binary32 bit pattern (R89). -/
def floatText (x : Word) : Bytes :=
  let expo := (x.extractLsb' 23 8).toNat
  let frac := (x.extractLsb' 0 23).toNat
  (if x.getLsbD 31 then ascii "-" else []) ++
    (if expo = 255 then (if frac = 0 then ascii "inf" else ascii "nan")
     else
      let q := floatMillionths expo frac
      dec (q / 10 ^ 6) ++ ascii "." ++ decFixed 6 q)

end Sys2Proof.Machine
end

