-- ==== Sys2Proof/Machine/Operands.lean ====
section
/-! DEFINITION. The operand forms: the text of every operand field (30_encoding.md R80 to R88) and of the generic
instruction (42_shader_stream.md R137 to R139), DCL (45_shader_special.md R193) and DEF (R201). -/

namespace Sys2Proof.Machine

/-- REGTYPE_SYMBOL (R81), `unk(<type>)` for a type without one. -/
def symbol : RegType → Bytes
  | .r => ascii "r" | .v => ascii "v" | .c => ascii "c" | .t => ascii "t" | .oFog => ascii "oFog"
  | .oPos => ascii "oPos" | .oT => ascii "oT" | .i => ascii "i" | .oC => ascii "oC" | .oDepth => ascii "oDepth"
  | .s => ascii "s" | .b => ascii "b" | .aL => ascii "aL" | .l => ascii "l" | .p => ascii "p"
  | .unk code => ascii "unk(" ++ dec code.toNat ++ ascii ")"

/-- Whether the register's number prints: not for oDepth and aL (R81). -/
def numbered : RegType → Bool
  | .oDepth | .aL => false
  | _ => true

/-- Whether a source's swizzle prints: not for t and s (R81). -/
def swizzled : RegType → Bool
  | .t | .s => false
  | _ => true

/-- `regname(tok)` (R82). -/
def regname (reg : RegType) (num : BitVec 11) : Bytes :=
  symbol reg ++ (if numbered reg then dec num.toNat else [])

def letter : Component → Bytes
  | .x => ascii "x" | .y => ascii "y" | .z => ascii "z" | .w => ascii "w"

/-- The identity swizzle 0xE4 (R83). -/
def identitySwizzle : Swizzle := ⟨.x, .y, .z, .w⟩

/-- `swztext(tok)` (R83). -/
def swztext (reg : RegType) (s : Swizzle) : Bytes :=
  if !swizzled reg then []
  else if s = identitySwizzle then []
  else if s.c0 = s.c1 ∧ s.c1 = s.c2 ∧ s.c2 = s.c3 then ascii "." ++ letter s.c0
  else ascii "." ++ letter s.c0 ++ letter s.c1 ++ letter s.c2 ++ letter s.c3

/-- `masktext(tok)` (R84). -/
def masktext (m : WriteMask) : Bytes :=
  if m.x && m.y && m.z && m.w then []
  else ascii "." ++ (if m.x then ascii "x" else []) ++ (if m.y then ascii "y" else []) ++
    (if m.z then ascii "z" else []) ++ (if m.w then ascii "w" else [])

/-- `dsttext_mod(tok)` (R85): appended to the mnemonic. -/
def dstmods (m : DstMods) : Bytes :=
  (if m.saturate then ascii "_SAT" else []) ++ (if m.partialPrecision then ascii "_PARTIAL" else []) ++
    (if m.centroid then ascii "_CENTROID" else [])

/-- `pre` of R86. -/
def modPre : SrcMod → Bytes
  | .negate | .biasNegate | .signNegate | .x2Negate => ascii "-"
  | .complement => ascii "~"
  | .abs => ascii "abs("
  | .absNegate => ascii "-abs("
  | .not => ascii "!"
  | .none | .bias | .sign | .x2 | .dz | .dw | .undefined14 | .undefined15 => []

/-- `suf` of R86. -/
def modSuf : SrcMod → Bytes
  | .bias | .biasNegate => ascii "_bias"
  | .sign | .signNegate => ascii "_bx2"
  | .x2 | .x2Negate => ascii "_x2"
  | .dz => ascii "_dz"
  | .dw => ascii "_dw"
  | .abs | .absNegate => ascii ")"
  | .none | .negate | .complement | .not | .undefined14 | .undefined15 => []

/-- `dstop(d)` (R138). -/
def dstop (d : DstOp) : Bytes := regname d.reg d.num ++ masktext d.mask

/-- `srcop(s)` (R139). -/
def srcop (s : SrcOp) : Bytes := modPre s.mod ++ regname s.reg s.num ++ modSuf s.mod ++ swztext s.reg s.swz

/-- USAGE_NAME (R88). -/
def usageName : Usage → Bytes
  | .position => ascii "position" | .blendweight => ascii "blendweight" | .blendindices => ascii "blendindices"
  | .normal => ascii "normal" | .psize => ascii "psize" | .texcoord => ascii "texcoord" | .tangent => ascii "tangent"
  | .binormal => ascii "binormal" | .tessfactor => ascii "tessfactor" | .positiont => ascii "positiont"
  | .color => ascii "color" | .fog => ascii "fog" | .depth => ascii "depth" | .sample => ascii "sample"
  | .unnamed14 | .unnamed15 => ascii "unknown"

/-- TEXTYPE_NAME (R88). -/
def textypeName : TexType → Bytes
  | .twoD => ascii "2d" | .cube => ascii "cube" | .volume => ascii "volume" | .unknown _ => ascii "unknown"

/-- What decoding one instruction gives (R129, R137): the operand texts with either its complete lines and the
tokens it used, or the partial text of a truncated instruction (R143). -/
inductive Rendered where
  | done (operands : List Bytes) (lines : Bytes) (used : Nat)
  | truncated (operands : List Bytes) (part : Bytes)
  deriving DecidableEq, Repr

/-- The source operands of DecodeGeneric, after the body and operands so far and `used` tokens (R137). -/
def renderSources (tok : Word) (body : Bytes) : (ops : List Bytes) → (used : Nat) → List (Option SrcOp) → Rendered
  | ops, used, [] => .done ops (mkline (body ++ opsuffix ops) tok) used
  | ops, _, none :: _ => .truncated ops (body ++ opsuffix ops)
  | ops, used, some s :: rest => renderSources tok body (ops ++ [srcop s]) (used + 1) rest

/-- DecodeGeneric (R137): `dst` is absent when D = 0, and `srcs` has S entries. -/
def renderGeneric (name : Bytes) (tok : Word) (dst : Option (Option DstOp)) (srcs : List (Option SrcOp)) : Rendered :=
  match dst with
  | none => renderSources tok name [] 1 srcs
  | some none => .truncated [] name
  | some (some d) => renderSources tok (name ++ dstmods d.mods) [dstop d] 2 srcs

/-- The sampler line of a DCL (R194): only for a destination of type `s`. -/
def dclSamplerLine (tok : Word) (u : Decl) (d : DstOp) : Bytes :=
  if d.reg = .s then mkline (ascii "DCL_" ++ textypeName u.tex ++ ascii " " ++ dstop d) tok else []

/-- The usage line of a DCL (R195). -/
def dclUsageLine (tok : Word) (u : Decl) (d : DstOp) : Bytes :=
  mkline (ascii "DCL_" ++ usageName u.usage ++ dec u.index.toNat ++ ascii " " ++ dstop d) tok

/-- DecodeDCL (R193, R196). -/
def renderDcl (tok : Word) (u : Option Decl) (d : Option DstOp) : Rendered :=
  match u, d with
  | some u, some d => .done [dstop d] (dclSamplerLine tok u d ++ dclUsageLine tok u d) 3
  | _, _ => .truncated [] []

/-- The literals of DecodeDEF, after the body and operands so far (R201). -/
def renderLiterals (tok : Word) : (ops : List Bytes) → (body : Bytes) → (used : Nat) → List (Option Word) → Rendered
  | ops, body, used, [] => .done ops (mkline body tok) used
  | ops, body, _, none :: _ => .truncated ops body
  | ops, body, used, some x :: rest =>
    renderLiterals tok (ops ++ [floatText x]) (body ++ ascii ", " ++ floatText x) (used + 1) rest

/-- DecodeDEF (R201): the destination prints its register name alone. -/
def renderDef (tok : Word) (d : Option DstOp) (literals : List (Option Word)) : Rendered :=
  match d with
  | none => .truncated [] (ascii "DEF")
  | some d =>
    renderLiterals tok [regname d.reg d.num] (ascii "DEF" ++ ascii " " ++ regname d.reg d.num) 2 literals

end Sys2Proof.Machine
end

