-- ==== Sys2Proof/Machine/Ops.lean ====
section
/-! DEFINITION. The named operations: memory (20_memory.md), the ranges of a command and the duties over them (R58 to
R61), the register windows (10_state.md), START (60_exceptions.md R227), completion (R229), and the SBD's line output. -/

namespace Sys2Proof.Machine

/-- What a meaning answers. -/
abbrev Result := Host.Outcome State Fault Refusal

/-! ### Memory -/

/-- One past the last address of SYS (R42). -/
def sysSize : Nat := 2 ^ 32

/-- MemRead(a, 1) (R8, R51). An unlisted address reads 0. DESIGN CHOICE, unsafe: R40 leaves memory after power-on
open, log 1. -/
def Memory.read : Memory → Nat → Byte
  | [], _ => 0
  | (k, v) :: rest, a => if k = a then v else Memory.read rest a

/-- MemWrite(a, 1, v) (R8, R51), keeping the canonical form: rising addresses, no cell that reads 0. -/
def Memory.write : Memory → Nat → Byte → Memory
  | [], a, v => if v = 0 then [] else [(a, v)]
  | (k, w) :: rest, a, v =>
    if a < k then (if v = 0 then (k, w) :: rest else (a, v) :: (k, w) :: rest)
    else if a = k then (if v = 0 then rest else (a, v) :: rest)
    else (k, w) :: Memory.write rest a v

/-- The `n` bytes from address `a` up. -/
def Memory.readBytes (m : Memory) (a : Nat) : (n : Nat) → Bytes
  | 0 => []
  | n + 1 => m.read a :: Memory.readBytes m (a + 1) n

/-- Stores bytes from address `a` up, one by one (R51). -/
def Memory.writeBytes (m : Memory) (a : Nat) : Bytes → Memory
  | [] => m
  | b :: rest => Memory.writeBytes (m.write a b) (a + 1) rest

/-- The canonical form: addresses of SYS, strictly rising, no cell that reads as an unlisted one does. -/
def Memory.wf : Memory → Bool
  | [] => true
  | (k, v) :: rest => k < sysSize && v ≠ 0 && rest.all (fun c => k < c.1) && Memory.wf rest

/-- `byte(buf, k)` (R8). -/
def byteAt (buf : Bytes) (k : Nat) : Byte := buf.getD k 0

/-- `le16(buf, k)` (R8, R47). -/
def le16 (buf : Bytes) (k : Nat) : BitVec 16 := byteAt buf (k + 1) ++ byteAt buf k

/-- `le24(buf, k)` (R8, R47). -/
def le24 (buf : Bytes) (k : Nat) : BitVec 24 := byteAt buf (k + 2) ++ byteAt buf (k + 1) ++ byteAt buf k

/-- `le32(buf, k)` (R8, R46, R47). -/
def le32 (buf : Bytes) (k : Nat) : BitVec 32 :=
  byteAt buf (k + 3) ++ byteAt buf (k + 2) ++ byteAt buf (k + 1) ++ byteAt buf k

/-- The bytes of a word, least significant first (R46). -/
def leBytes (w : Word) : Bytes := [w.extractLsb' 0 8, w.extractLsb' 8 8, w.extractLsb' 16 8, w.extractLsb' 24 8]

/-! ### Ranges -/

/-- Whether an address lies in a range. -/
def Extent.contains (r : Extent) (a : Nat) : Bool := r.base ≤ a && a < r.base + r.len

/-- The part of memory that lies in a range. -/
def Memory.within (m : Memory) (r : Extent) : Memory := m.filter fun c => r.contains c.1

/-- Whether two ranges share a byte. -/
def Extent.overlaps (r q : Extent) : Bool := Nat.max r.base q.base < Nat.min (r.base + r.len) (q.base + q.len)

/-- Whether a range runs past address 2^32 - 1 (R58). -/
def Extent.wraps (r : Extent) : Bool := sysSize < r.base + r.len

/-- `ceil4(n)` (R7). -/
def ceil4 (n : Nat) : Nat := (n + 3) / 4

/-- The grid and the exact sizes of a BCD command that passes its checks (R100, R103, R120). -/
structure Plan where
  blocksX : Nat
  blocksY : Nat
  need : Nat
  outLen : Nat
  deriving DecidableEq, Repr

/-- block_size and channels of a format tag (R67); none for 5, 6, 7. -/
def bcdFormat (fmt : BitVec 3) : Option (Nat × Nat) :=
  match fmt.toNat with
  | 0 => some (8, 4)
  | 1 => some (16, 4)
  | 2 => some (16, 4)
  | 3 => some (8, 1)
  | 4 => some (16, 2)
  | _ => none

/-- The checks of R100 in their order (R101 to R103, R218). -/
def bcdPlan (format : Option (Nat × Nat)) (l : BcdLatch) : Except Status Plan :=
  match format with
  | none => .error .unsupportedFormat
  | some (blockSize, channels) =>
    if l.width = 0 ∨ l.height = 0 then .error .insufficientData
    else
      let bx := ceil4 l.width.toNat
      let byy := ceil4 l.height.toNat
      let need := bx * byy * blockSize
      if l.srcLen.toNat < need then .error .insufficientData
      else .ok ⟨bx, byy, need, l.width.toNat * l.height.toNat * channels⟩

/-- The BCD's input range: the bytes it reads (R43, R58). A command that fails its checks reads none.
DEDUCED, log 10. -/
def bcdInput (l : BcdLatch) : Extent :=
  match bcdPlan (bcdFormat l.fmt) l with
  | .ok p => ⟨l.srcAddr.toNat, p.need⟩
  | .error _ => ⟨l.srcAddr.toNat, 0⟩

/-- The BCD's output range, W*H*channels bytes at DST_ADDR, whether or not the command passes its checks (R37, R107).
FMT 5, 6 and 7 have no channels (R67): empty. DEDUCED, log 10. -/
def bcdOutput (l : BcdLatch) : Extent :=
  match bcdFormat l.fmt with
  | some (_, channels) => ⟨l.dstAddr.toNat, l.width.toNat * l.height.toNat * channels⟩
  | none => ⟨l.dstAddr.toNat, 0⟩

/-- The SBD's token count (R130). -/
def tokenCount (srcLen : Word) : Nat := srcLen.toNat / 4

/-- The SBD's input range: its whole tokens (R44, R58). -/
def sbdInput (l : SbdLatch) : Extent := ⟨l.srcAddr.toNat, 4 * tokenCount l.srcLen⟩

/-- The SBD's output range: its buffer of DST_CAP bytes (R37). DEDUCED, log 10. -/
def sbdOutput (l : SbdLatch) : Extent := ⟨l.dstAddr.toNat, l.dstCap.toNat⟩

/-- The ranges of the BCD's command. -/
def bcdFootprint (l : BcdLatch) : Footprint := ⟨bcdInput l, bcdOutput l⟩

/-- The ranges of the SBD's command. -/
def sbdFootprint (l : SbdLatch) : Footprint := ⟨sbdInput l, sbdOutput l⟩

/-- The duties checked before a completion (R229): wrap of the bytes read and written (R58); overlap of the output
range with the command's own input range and with the ranges of the other engine's commands `others` that ran at the
same time (R59); overlap of its input range with their output ranges, whose bytes are unspecified (R37, R60; log 11);
a write to an input range that R60 still guards, `guarded` (log 9). -/
def brokenDuty (f : Footprint) (written : Extent) (others : List Footprint) (guarded : List Extent) : Option Refusal :=
  if f.input.wraps then some .inputRangeWraps
  else if written.wraps then some .outputRangeWraps
  else if f.output.overlaps f.input then some .outputOverlapsInput
  else if others.any fun g => f.output.overlaps g.input || f.output.overlaps g.output then some .outputOverlapsOther
  else if others.any fun g => g.output.overlaps f.input then some .inputOverlapsOther
  else if guarded.any written.overlaps then some .unseenInputOverwritten
  else none

/-- The commands of the SBD that run beside the BCD's: one that runs now, and those that ran and completed since the
BCD's START (R59). DEDUCED, log 11. -/
def bcdRivals (s : State) : List Footprint :=
  (if s.sbd.busy then [sbdFootprint s.sbdLatch] else []) ++ s.bcdDuty.rivals

/-- The commands of the BCD that run beside the SBD's (R59). DEDUCED, log 11. -/
def sbdRivals (s : State) : List Footprint :=
  (if s.bcd.busy then [bcdFootprint s.bcdLatch] else []) ++ s.sbdDuty.rivals

/-- Every completed command of either engine whose DONE the host has not observed (R60, R61). Log 9. -/
def unseenCommands (s : State) : List Unseen := s.bcdDuty.unseen ++ s.sbdDuty.unseen

/-- Their input ranges: "nothing else may" write there (R60). -/
def unseenInputs (s : State) : List Extent := (unseenCommands s).map (·.ranges.input)

/-! ### START (R227) -/

/-- A new command: nothing has run beside it yet. The windows of the commands before it stay open (R60, R61).
DEDUCED, log 9. -/
def Duty.started (d : Duty) : Duty := { d with rivals := [] }

/-- A command has completed, and the host has not observed its DONE (R60, R61): its ranges, and its output range's
bytes in memory before and after the completion. Log 9. -/
def Duty.ended (d : Duty) (f : Footprint) (before after : Memory) : Duty :=
  { d with unseen := ⟨f, before.within f.output, after.within f.output⟩ :: d.unseen }

/-- The other engine's command has completed while this engine ran one, if it did (R59). Log 11. -/
def Duty.beside (d : Duty) (busy : Bool) (f : Footprint) : Duty := if busy then { d with rivals := f :: d.rivals } else d

/-- What the BCD does on START: latch, clear DONE and ERR, set BUSY (R24, R227). The window of R60 opens. -/
def bcdStart (s : State) : State :=
  { s with
    bcdLatch := ⟨s.bcd.fmt, s.bcd.width, s.bcd.height, s.bcd.srcAddr, s.bcd.srcLen, s.bcd.dstAddr, s.bcd.bc5Fix⟩
    bcdInt := .reset
    bcd := { s.bcd with done := false, err := .ok, busy := true }
    bcdDuty := s.bcdDuty.started }

/-- What the SBD does on START (R32, R33, R227). -/
def sbdStart (s : State) : State :=
  { s with
    sbdLatch := ⟨s.sbd.srcAddr, s.sbd.srcLen, s.sbd.dstAddr, s.sbd.dstCap⟩
    sbdInt := { SbdInternal.reset with n := tokenCount s.sbd.srcLen }
    sbd := { s.sbd with done := false, err := .ok, ovf := false, busy := true }
    sbdDuty := s.sbdDuty.started }

/-! ### Completion (R229): what `raise` and a normal end share (R8) -/

/-- The BCD completes with a status, an output length and the memory after its writes.
DESIGN CHOICE, unsafe: its latch and internal state keep their last values until the next START or `rst`, where R25 says
that none of it survives and gives no value, log 24. -/
def bcdComplete (st : Status) (outLen : Nat) (mem : Memory) (s : State) : State :=
  { s with
    mem := mem
    bcd := { s.bcd with outLen := BitVec.ofNat 32 outLen, err := st, busy := false, done := true }
    bcdDuty := s.bcdDuty.ended (bcdFootprint s.bcdLatch) s.mem mem
    sbdDuty := s.sbdDuty.beside s.sbd.busy (bcdFootprint s.bcdLatch) }

/-- `raise <Status>()` in the BCD (R8, R107): no byte written, OUT_LEN 0. -/
def bcdRaise (st : Status) (s : State) : State := bcdComplete st 0 s.mem s

/-- The text bytes the SBD stores (R150). -/
def sbdWritten (s : State) : Bytes := s.sbdInt.text.take s.sbdLatch.dstCap.toNat

/-- Memory after the SBD has stored its text (R150). -/
def sbdStored (s : State) : Memory := s.mem.writeBytes s.sbdLatch.dstAddr.toNat (sbdWritten s)

/-- The SBD completes with a status and a cursor (R229), its duties kept.
DESIGN CHOICE, unsafe: its latch and internal state, the text among it, keep their last values until the next START or
`rst`, where R34 says that nothing is kept and gives no value, log 24. -/
def sbdComplete (st : Status) (cursor : Nat) (s : State) : State :=
  { s with
    mem := sbdStored s
    sbd :=
      { s.sbd with
        outLen := BitVec.ofNat 32 s.sbdInt.text.length
        cursor := BitVec.ofNat 32 cursor
        ovf := overflows s.sbdInt.text.length s.sbdLatch.dstCap
        err := st
        busy := false
        done := true }
    sbdDuty := s.sbdDuty.ended (sbdFootprint s.sbdLatch) s.mem (sbdStored s)
    bcdDuty := s.bcdDuty.beside s.bcd.busy (sbdFootprint s.sbdLatch) }

/-- The bytes the SBD stores at its completion, as a range (R44, R58). -/
def sbdTextRange (s : State) : Extent := ⟨s.sbdLatch.dstAddr.toNat, (sbdWritten s).length⟩

/-- The SBD's completion step: the duties of R58 to R60, then R229. -/
def sbdFinish (st : Status) (cursor : Nat) (s : State) : Result :=
  match brokenDuty (sbdFootprint s.sbdLatch) (sbdTextRange s) (sbdRivals s) (unseenInputs s) with
  | some r => .refused r
  | none => .next (sbdComplete st cursor s)

/-! ### The SBD's output of one instruction -/

/-- Appends what an instruction rendered and moves the cursor (R129, R147); a truncated instruction ends decoding
with INSUFFICIENT_DATA and cursor n (R143). -/
def emit (r : Rendered) (s : State) : State :=
  match r with
  | .done operands lines used =>
    { s with sbdInt :=
      { s.sbdInt with
        operands := operands, line := lines, text := s.sbdInt.text ++ lines, cur := s.sbdInt.cur + used } }
  | .truncated operands part =>
    { s with sbdInt :=
      { s.sbdInt with
        operands := operands, line := part, text := s.sbdInt.text ++ part, cur := s.sbdInt.n
        ended := some (.insufficientData, s.sbdInt.n) } }

/-- A generic instruction (R137): its name, opcode, bits 31:16, and operands. -/
def generic (name : String) (op hi : BitVec 16) (dst : Option (Option DstOp)) (srcs : List (Option SrcOp))
    (s : State) : Result :=
  .next (emit (renderGeneric (ascii name) (opTok hi op) dst srcs) s)

/-- Ends the decode loop with a status at the present cursor (R134, R144). -/
def endLoop (st : Status) (s : State) : State :=
  { s with sbdInt := { s.sbdInt with ended := some (st, s.sbdInt.cur) } }

/-- The header line and the version (R96, R133). -/
def emitHeader (ptext : String) (major minor : BitVec 8) (s : State) : State :=
  let line := ascii ptext ++ ascii "_" ++ dec major.toNat ++ ascii "_" ++ dec minor.toNat ++ ascii "\n"
  { s with sbdInt :=
    { s.sbdInt with
      major := major, minor := minor, operands := [], line := line, text := s.sbdInt.text ++ line, cur := 1 } }

/-- Token k of the SBD's input, fresh from SYS (R46, R65); where a BCD command has completed, its result (R37).
DEDUCED, log 23. -/
def tokenAt (s : State) (k : Nat) : Word := le32 (s.mem.readBytes (s.sbdLatch.srcAddr.toNat + 4 * k) 4) 0

/-! ### Register windows (R16) -/

/-- A BCD register as read; offsets not listed read 0 (R57). -/
def bcdRead (r : BcdRegs) (offset : BitVec 8) : Word :=
  match offset.toNat with
  | 0x00 => r.ctrl
  | 0x04 => r.status
  | 0x08 => r.fmt.zeroExtend 32
  | 0x0C => r.width
  | 0x10 => r.height
  | 0x14 => r.srcAddr
  | 0x18 => r.srcLen
  | 0x1C => r.dstAddr
  | 0x20 => r.outLen
  | _ => 0

/-- An SBD register as read. -/
def sbdRead (r : SbdRegs) (offset : BitVec 8) : Word :=
  match offset.toNat with
  | 0x00 => r.ctrl
  | 0x04 => r.status
  | 0x08 => r.srcAddr
  | 0x0C => r.srcLen
  | 0x10 => r.dstAddr
  | 0x14 => r.dstCap
  | 0x18 => r.outLen
  | 0x1C => r.cursor
  | _ => 0

/-- A write of BCD CTRL (R17, R228, R232): the other fields first, then START if the engine is idle. -/
def bcdWriteCtrl (v : Word) (s : State) : State :=
  let s := { s with bcd := { s.bcd with ie := v.getLsbD 1, bc5Fix := v.getLsbD 2 } }
  if v.getLsbD 0 && !s.bcd.busy then bcdStart s else s

/-- A write of SBD CTRL (R26, R228, R232). -/
def sbdWriteCtrl (v : Word) (s : State) : State :=
  let s := { s with sbd := { s.sbd with ie := v.getLsbD 1 } }
  if v.getLsbD 0 && !s.sbd.busy then sbdStart s else s

/-- A BCD register write (R16 to R23): RO fields and unlisted offsets ignore it, DONE is W1C (R230). -/
def bcdWrite (offset : BitVec 8) (v : Word) (s : State) : State :=
  match offset.toNat with
  | 0x00 => bcdWriteCtrl v s
  | 0x04 => { s with bcd := { s.bcd with done := s.bcd.done && !v.getLsbD 1 } }
  | 0x08 => { s with bcd := { s.bcd with fmt := v.extractLsb' 0 3 } }
  | 0x0C => { s with bcd := { s.bcd with width := v } }
  | 0x10 => { s with bcd := { s.bcd with height := v } }
  | 0x14 => { s with bcd := { s.bcd with srcAddr := v } }
  | 0x18 => { s with bcd := { s.bcd with srcLen := v } }
  | 0x1C => { s with bcd := { s.bcd with dstAddr := v } }
  | _ => s

/-- An SBD register write (R26 to R31). -/
def sbdWrite (offset : BitVec 8) (v : Word) (s : State) : State :=
  match offset.toNat with
  | 0x00 => sbdWriteCtrl v s
  | 0x04 => { s with sbd := { s.sbd with done := s.sbd.done && !v.getLsbD 1 } }
  | 0x08 => { s with sbd := { s.sbd with srcAddr := v } }
  | 0x0C => { s with sbd := { s.sbd with srcLen := v } }
  | 0x10 => { s with sbd := { s.sbd with dstAddr := v } }
  | 0x14 => { s with sbd := { s.sbd with dstCap := v } }
  | _ => s

end Sys2Proof.Machine
end

