-- ==== Sys2Proof/Machine/Bc.lean ====
section
/-! DEFINITION. The BCD (40_bc_common.md, 41_bc_formats.md): endpoint expansion, palettes, ramps, the block decoders,
cropping, and one meaning per command. -/

namespace Sys2Proof.Machine

/-! ### Endpoint expansion (R109) -/

/-- RGB5TO8 (R109). -/
def rgb5to8 (v : Nat) : Nat := (v * 527 + 23) / 2 ^ 6

/-- RGB6TO8 (R109). -/
def rgb6to8 (v : Nat) : Nat := (v * 259 + 33) / 2 ^ 6

/-- An endpoint expanded, with alpha 255 (R69, R109). -/
def expand (order : Rgb565Order) (color : BitVec 16) : Rgba :=
  let high := (color.extractLsb' 11 5).toNat
  let g6 := (color.extractLsb' 5 6).toNat
  let low := (color.extractLsb' 0 5).toNat
  match order with
  | .rHigh => ⟨rgb5to8 high, rgb6to8 g6, rgb5to8 low, 255⟩
  | .bHigh => ⟨rgb5to8 low, rgb6to8 g6, rgb5to8 high, 255⟩

/-! ### Palettes (R111, R112, R114) -/

/-- The blend `(wp * p + wq * q) div d` of each colour channel (R114), opaque. -/
def blend (wp wq d : Nat) (p q : Rgba) : Rgba where
  r := Config.blendDiv (wp * p.r + wq * q.r) d
  g := Config.blendDiv (wp * p.g + wq * q.g) d
  b := Config.blendDiv (wp * p.b + wq * q.b) d
  a := 255

/-- The four-colour palette: both endpoints and their 2:1 and 1:2 blends (R111, R112). -/
def paletteFour (color0 color1 : BitVec 16) : List Rgba :=
  let p := expand Config.rgb565Order color0
  let q := expand Config.rgb565Order color1
  [p, q, blend 2 1 3 p q, blend 1 2 3 p q]

/-- The three-colour palette: both endpoints, their 1:1 blend, transparent black (R111). -/
def paletteThree (color0 color1 : BitVec 16) : List Rgba :=
  let p := expand Config.rgb565Order color0
  let q := expand Config.rgb565Order color1
  [p, q, blend 1 1 2 p q, ⟨0, 0, 0, 0⟩]

/-- palette_BC1 (R111): the raw words are compared, unsigned. -/
def paletteBc1 (color0 color1 : BitVec 16) : List Rgba :=
  if color1.toNat < color0.toNat then paletteFour color0 color1 else paletteThree color0 color1

/-- The BC2 and BC3 palette in either reading (R112); the machine takes Config's. -/
def paletteBc23 (mode : Bc23ColorMode) (color0 color1 : BitVec 16) : List Rgba :=
  match mode with
  | .fourColor => paletteFour color0 color1
  | .bc1RuleOpaque => paletteBc1 color0 color1

/-- The palette entry of texel i: `P[cidx[2i+1:2i]]` (R113). -/
def colorTexel (palette : List Rgba) (cidx : BitVec 32) (i : Nat) : Rgba :=
  palette.getD (cidx.extractLsb' (2 * i) 2).toNat ⟨0, 0, 0, 0⟩

/-! ### Ramps (R115, R116) -/

/-- build_ramp (R115). -/
def buildRamp (a0 a1 : Nat) : List Nat :=
  if a1 < a0 then
    [a0, a1] ++ [2, 3, 4, 5, 6, 7].map fun i => Config.rampDiv ((8 - i) * a0 + (i - 1) * a1) 7
  else
    [a0, a1] ++ ([2, 3, 4, 5].map fun i => Config.rampDiv ((6 - i) * a0 + (i - 1) * a1) 5) ++ [0, 255]

/-- The 3-bit index of texel i in the ramp block that starts at byte `at0` (R71). -/
def idx3 (blk : Bytes) (at0 i : Nat) : Nat :=
  if i < 8 then ((le24 blk (at0 + 2)).extractLsb' (3 * i) 3).toNat
  else ((le24 blk (at0 + 5)).extractLsb' (3 * (i - 8)) 3).toNat

/-- The ramp value of texel i (R116). -/
def rampTexel (ramp : List Nat) (blk : Bytes) (at0 i : Nat) : Nat := ramp.getD (idx3 blk at0 i) 0

/-! ### Block decoders (R122 to R126) -/

/-- A value of 0 to 255 as an output byte (R119). -/
def octet (v : Nat) : Byte := BitVec.ofNat 8 v

/-- The 16 texels of a tile, in the order of R68. -/
def tile (f : Nat → Bytes) : List Bytes := (List.range 16).map f

/-- The explicit alpha of texel i (R70, R118). -/
def explicitAlpha (blk : Bytes) (i : Nat) : Byte :=
  let v : BitVec 4 := (byteAt blk (i / 2)).extractLsb' (4 * (i % 2)) 4
  v ++ v

/-- DecodeBlock_0 (R122). -/
def decodeBlock1 (_fix : Bool) (blk : Bytes) : BlockRegs :=
  let c0 := le16 blk 0
  let c1 := le16 blk 2
  let palette := paletteBc1 c0 c1
  { BlockRegs.reset with
    color0 := c0, color1 := c1, palette := palette
    texels := tile fun i =>
      let p := colorTexel palette (le32 blk 4) i
      [octet p.r, octet p.g, octet p.b, octet p.a] }

/-- DecodeBlock_1 (R123). -/
def decodeBlock2 (_fix : Bool) (blk : Bytes) : BlockRegs :=
  let c0 := le16 blk 8
  let c1 := le16 blk 10
  let palette := paletteBc23 Config.bc23ColorMode c0 c1
  { BlockRegs.reset with
    color0 := c0, color1 := c1, palette := palette
    texels := tile fun i =>
      let p := colorTexel palette (le32 blk 12) i
      [octet p.r, octet p.g, octet p.b, explicitAlpha blk i] }

/-- DecodeBlock_2 (R124). -/
def decodeBlock3 (_fix : Bool) (blk : Bytes) : BlockRegs :=
  let c0 := le16 blk 8
  let c1 := le16 blk 10
  let palette := paletteBc23 Config.bc23ColorMode c0 c1
  let ramp := buildRamp (byteAt blk 0).toNat (byteAt blk 1).toNat
  { BlockRegs.reset with
    color0 := c0, color1 := c1, palette := palette
    endsA := (byteAt blk 0, byteAt blk 1), rampA := ramp
    texels := tile fun i =>
      let p := colorTexel palette (le32 blk 12) i
      [octet p.r, octet p.g, octet p.b, octet (rampTexel ramp blk 0 i)] }

/-- DecodeBlock_3 (R125). -/
def decodeBlock4 (_fix : Bool) (blk : Bytes) : BlockRegs :=
  let ramp := buildRamp (byteAt blk 0).toNat (byteAt blk 1).toNat
  { BlockRegs.reset with
    endsA := (byteAt blk 0, byteAt blk 1), rampA := ramp
    texels := tile fun i => [octet (rampTexel ramp blk 0 i)] }

/-- DecodeBlock_4 (R126): the green ramp from bytes 0 and 1 in the compatible mode (R127), from bytes 8 and 9 in the
corrected one (R128); the green indices from bytes 10 to 15 in both. -/
def decodeBlock5 (fix : Bool) (blk : Bytes) : BlockRegs :=
  let red := (byteAt blk 0, byteAt blk 1)
  let green := if fix then (byteAt blk 8, byteAt blk 9) else red
  let rampR := buildRamp red.1.toNat red.2.toNat
  let rampG := buildRamp green.1.toNat green.2.toNat
  { BlockRegs.reset with
    endsA := red, endsB := green, rampA := rampR, rampB := rampG
    texels := tile fun i => [octet (rampTexel rampR blk 0 i), octet (rampTexel rampG blk 8 i)] }

/-! ### The command (R100) -/

/-- The bytes of block k (R104), from the memory the command started with (R229); where an SBD command has completed,
its result (R37). DEDUCED, log 23. -/
def blockBytes (l : BcdLatch) (blockSize k : Nat) (m : Memory) : Bytes :=
  m.readBytes (l.srcAddr.toNat + k * blockSize) blockSize

/-- The column of texel i of block k in the image (R100). -/
def texelX (p : Plan) (k i : Nat) : Nat := 4 * (k % p.blocksX) + i % 4

/-- The row of texel i of block k in the image (R100). -/
def texelY (p : Plan) (k i : Nat) : Nat := 4 * (k / p.blocksX) + i / 4

/-- The address of texel (x, y) in the output (R49, R100). -/
def texelAddr (l : BcdLatch) (channels x y : Nat) : Nat := l.dstAddr.toNat + (y * l.width.toNat + x) * channels

/-- Stores texel i of block k unless it lies outside the image (R100, R105). -/
def storeTexel (p : Plan) (l : BcdLatch) (channels k : Nat) (texels : List Bytes) (i : Nat) (m : Memory) : Memory :=
  if texelX p k i < l.width.toNat ∧ texelY p k i < l.height.toNat then
    m.writeBytes (texelAddr l channels (texelX p k i) (texelY p k i)) (texels.getD i [])
  else m

/-- Stores the first `count` texels of block k. -/
def storeTexels (p : Plan) (l : BcdLatch) (channels k : Nat) (texels : List Bytes) (m : Memory) : (count : Nat) → Memory
  | 0 => m
  | i + 1 => storeTexel p l channels k texels i (storeTexels p l channels k texels m i)

/-- The engine after its first k blocks (R25, R100): what it holds, and memory. Input is read from `m`. -/
def bcdAfter (decodeBlock : Bool → Bytes → BlockRegs) (blockSize channels : Nat) (p : Plan) (l : BcdLatch)
    (start : BcdInternal) (m : Memory) : (k : Nat) → BcdInternal × Memory
  | 0 => ({ start with block := 0 }, m)
  | k + 1 =>
    let regs := decodeBlock l.bc5Fix (blockBytes l blockSize k m)
    let out := (bcdAfter decodeBlock blockSize channels p l start m k).2
    (⟨k + 1, regs⟩, storeTexels p l channels k regs.texels out 16)

/-- A DECODE command of a format (R100, R229): the checks, the duties of R58 to R60, the blocks, the completion. A
command that fails its checks completes with its error and no duty refuses it (R102, R103). DEDUCED, log 10. The last block's registers stay after the
completion. DESIGN CHOICE, unsafe: log 24. -/
def bcdCommand (decodeBlock : Bool → Bytes → BlockRegs) (blockSize channels : Nat) (s : State) : Result :=
  match bcdPlan (some (blockSize, channels)) s.bcdLatch with
  | .error st => .next (bcdRaise st s)
  | .ok p =>
    let input : Extent := ⟨s.bcdLatch.srcAddr.toNat, p.need⟩
    let output : Extent := ⟨s.bcdLatch.dstAddr.toNat, p.outLen⟩
    match brokenDuty ⟨input, output⟩ output (bcdRivals s) (unseenInputs s) with
    | some r => .refused r
    | none =>
      let done := bcdAfter decodeBlock blockSize channels p s.bcdLatch s.bcdInt s.mem (p.blocksX * p.blocksY)
      .next { bcdComplete .ok p.outLen done.2 s with bcdInt := done.1 }

/-- DECODE_BC1 (R122). -/
def execDecodeBc1 (s : State) : Result := bcdCommand decodeBlock1 8 4 s

/-- DECODE_BC2 (R123). -/
def execDecodeBc2 (s : State) : Result := bcdCommand decodeBlock2 16 4 s

/-- DECODE_BC3 (R124). -/
def execDecodeBc3 (s : State) : Result := bcdCommand decodeBlock3 16 4 s

/-- DECODE_BC4 (R125). -/
def execDecodeBc4 (s : State) : Result := bcdCommand decodeBlock4 8 1 s

/-- DECODE_BC5 (R126). -/
def execDecodeBc5 (s : State) : Result := bcdCommand decodeBlock5 16 2 s

/-- FMT 5 (R101). -/
def execUnsupportedFormat5 (s : State) : Result := .next (bcdRaise .unsupportedFormat s)

/-- FMT 6 (R101). -/
def execUnsupportedFormat6 (s : State) : Result := .next (bcdRaise .unsupportedFormat s)

/-- FMT 7 (R101). -/
def execUnsupportedFormat7 (s : State) : Result := .next (bcdRaise .unsupportedFormat s)

end Sys2Proof.Machine
end

