-- ==== Sys2Proof/Machine/ShaderArith.lean ====
section
/-! DEFINITION. The arithmetic instructions of 43_shader_arith.md, one meaning each. The SBD prints them: an
instruction's whole effect is its line and the cursor's advance (R148), or its partial text (R143). -/

namespace Sys2Proof.Machine

/-- NOP (R153). -/
def execNop (hi : BitVec 16) (s : State) : Result :=
  generic "NOP" 0x0000 hi none [] s

/-- MOV (R154). -/
def execMov (hi : BitVec 16) (d : Option DstOp) (a : Option SrcOp) (s : State) : Result :=
  generic "MOV" 0x0001 hi (some d) [a] s

/-- ADD (R155). -/
def execAdd (hi : BitVec 16) (d : Option DstOp) (a b : Option SrcOp) (s : State) : Result :=
  generic "ADD" 0x0002 hi (some d) [a, b] s

/-- SUB (R156). -/
def execSub (hi : BitVec 16) (d : Option DstOp) (a b : Option SrcOp) (s : State) : Result :=
  generic "SUB" 0x0003 hi (some d) [a, b] s

/-- MAD (R157). -/
def execMad (hi : BitVec 16) (d : Option DstOp) (a b c : Option SrcOp) (s : State) : Result :=
  generic "MAD" 0x0004 hi (some d) [a, b, c] s

/-- MUL (R158). -/
def execMul (hi : BitVec 16) (d : Option DstOp) (a b : Option SrcOp) (s : State) : Result :=
  generic "MUL" 0x0005 hi (some d) [a, b] s

/-- RCP (R159). -/
def execRcp (hi : BitVec 16) (d : Option DstOp) (a : Option SrcOp) (s : State) : Result :=
  generic "RCP" 0x0006 hi (some d) [a] s

/-- RSQ (R160). -/
def execRsq (hi : BitVec 16) (d : Option DstOp) (a : Option SrcOp) (s : State) : Result :=
  generic "RSQ" 0x0007 hi (some d) [a] s

/-- DP3 (R161). -/
def execDp3 (hi : BitVec 16) (d : Option DstOp) (a b : Option SrcOp) (s : State) : Result :=
  generic "DP3" 0x0008 hi (some d) [a, b] s

/-- DP4 (R162). -/
def execDp4 (hi : BitVec 16) (d : Option DstOp) (a b : Option SrcOp) (s : State) : Result :=
  generic "DP4" 0x0009 hi (some d) [a, b] s

/-- MIN (R163). -/
def execMin (hi : BitVec 16) (d : Option DstOp) (a b : Option SrcOp) (s : State) : Result :=
  generic "MIN" 0x000A hi (some d) [a, b] s

/-- MAX (R164). -/
def execMax (hi : BitVec 16) (d : Option DstOp) (a b : Option SrcOp) (s : State) : Result :=
  generic "MAX" 0x000B hi (some d) [a, b] s

/-- SLT (R165). -/
def execSlt (hi : BitVec 16) (d : Option DstOp) (a b : Option SrcOp) (s : State) : Result :=
  generic "SLT" 0x000C hi (some d) [a, b] s

/-- SGE (R166). -/
def execSge (hi : BitVec 16) (d : Option DstOp) (a b : Option SrcOp) (s : State) : Result :=
  generic "SGE" 0x000D hi (some d) [a, b] s

/-- EXP (R167). -/
def execExp (hi : BitVec 16) (d : Option DstOp) (a : Option SrcOp) (s : State) : Result :=
  generic "EXP" 0x000E hi (some d) [a] s

/-- LOG (R168). -/
def execLog (hi : BitVec 16) (d : Option DstOp) (a : Option SrcOp) (s : State) : Result :=
  generic "LOG" 0x000F hi (some d) [a] s

/-- LIT (R169). -/
def execLit (hi : BitVec 16) (d : Option DstOp) (a : Option SrcOp) (s : State) : Result :=
  generic "LIT" 0x0010 hi (some d) [a] s

/-- DST (R170). -/
def execDst (hi : BitVec 16) (d : Option DstOp) (a b : Option SrcOp) (s : State) : Result :=
  generic "DST" 0x0011 hi (some d) [a, b] s

/-- LRP (R171). -/
def execLrp (hi : BitVec 16) (d : Option DstOp) (a b c : Option SrcOp) (s : State) : Result :=
  generic "LRP" 0x0012 hi (some d) [a, b, c] s

/-- FRC (R172). -/
def execFrc (hi : BitVec 16) (d : Option DstOp) (a : Option SrcOp) (s : State) : Result :=
  generic "FRC" 0x0013 hi (some d) [a] s

/-- M4x4 (R173). -/
def execM4x4 (hi : BitVec 16) (d : Option DstOp) (a b : Option SrcOp) (s : State) : Result :=
  generic "M4x4" 0x0014 hi (some d) [a, b] s

/-- M4x3 (R174). -/
def execM4x3 (hi : BitVec 16) (d : Option DstOp) (a b : Option SrcOp) (s : State) : Result :=
  generic "M4x3" 0x0015 hi (some d) [a, b] s

/-- M3x4 (R175). -/
def execM3x4 (hi : BitVec 16) (d : Option DstOp) (a b : Option SrcOp) (s : State) : Result :=
  generic "M3x4" 0x0016 hi (some d) [a, b] s

/-- M3x3 (R176). -/
def execM3x3 (hi : BitVec 16) (d : Option DstOp) (a b : Option SrcOp) (s : State) : Result :=
  generic "M3x3" 0x0017 hi (some d) [a, b] s

/-- M3x2 (R177). -/
def execM3x2 (hi : BitVec 16) (d : Option DstOp) (a b : Option SrcOp) (s : State) : Result :=
  generic "M3x2" 0x0018 hi (some d) [a, b] s

/-- POW (R178). -/
def execPow (hi : BitVec 16) (d : Option DstOp) (a b : Option SrcOp) (s : State) : Result :=
  generic "POW" 0x0020 hi (some d) [a, b] s

/-- CRS (R179). -/
def execCrs (hi : BitVec 16) (d : Option DstOp) (a b : Option SrcOp) (s : State) : Result :=
  generic "CRS" 0x0021 hi (some d) [a, b] s

/-- SGN (R180). -/
def execSgn (hi : BitVec 16) (d : Option DstOp) (a b c : Option SrcOp) (s : State) : Result :=
  generic "SGN" 0x0022 hi (some d) [a, b, c] s

/-- ABS (R181). -/
def execAbs (hi : BitVec 16) (d : Option DstOp) (a : Option SrcOp) (s : State) : Result :=
  generic "ABS" 0x0023 hi (some d) [a] s

/-- NRM (R182). -/
def execNrm (hi : BitVec 16) (d : Option DstOp) (a : Option SrcOp) (s : State) : Result :=
  generic "NRM" 0x0024 hi (some d) [a] s

/-- SINCOS (R183). -/
def execSincos (hi : BitVec 16) (d : Option DstOp) (a b c : Option SrcOp) (s : State) : Result :=
  generic "SINCOS" 0x0025 hi (some d) [a, b, c] s

/-- MOVA (R184). -/
def execMova (hi : BitVec 16) (d : Option DstOp) (a : Option SrcOp) (s : State) : Result :=
  generic "MOVA" 0x002E hi (some d) [a] s

end Sys2Proof.Machine
end

