-- ==== Sys2Proof/Machine/ShaderFlow.lean ====
section
/-! DEFINITION. The flow-control instructions of 44_shader_flow.md, one meaning each. They are printed, never followed
(R148). -/

namespace Sys2Proof.Machine

/-- CALL (R185). -/
def execCall (hi : BitVec 16) (a : Option SrcOp) (s : State) : Result :=
  generic "CALL" 0x0019 hi none [a] s

/-- CALLNZ (R186). -/
def execCallnz (hi : BitVec 16) (a b : Option SrcOp) (s : State) : Result :=
  generic "CALLNZ" 0x001A hi none [a, b] s

/-- LOOP (R187). -/
def execLoop (hi : BitVec 16) (a b : Option SrcOp) (s : State) : Result :=
  generic "LOOP" 0x001B hi none [a, b] s

/-- RET (R188). -/
def execRet (hi : BitVec 16) (s : State) : Result :=
  generic "RET" 0x001C hi none [] s

/-- ENDLOOP (R189). -/
def execEndloop (hi : BitVec 16) (s : State) : Result :=
  generic "ENDLOOP" 0x001D hi none [] s

/-- LABEL (R190). -/
def execLabel (hi : BitVec 16) (a : Option SrcOp) (s : State) : Result :=
  generic "LABEL" 0x001E hi none [a] s

/-- REP (R191). -/
def execRep (hi : BitVec 16) (a : Option SrcOp) (s : State) : Result :=
  generic "REP" 0x0026 hi none [a] s

/-- ENDREP (R192). -/
def execEndrep (hi : BitVec 16) (s : State) : Result :=
  generic "ENDREP" 0x0027 hi none [] s

end Sys2Proof.Machine
end

