-- ==== Sys2Proof/Machine/ShaderSpecial.lean ====
section
/-! DEFINITION. The header tokens, the special opcodes and the unrecognised ones (45_shader_special.md), one meaning
each. -/

namespace Sys2Proof.Machine

/-- HEADER_PS (R206). -/
def execHeaderPs (major minor : BitVec 8) (s : State) : Result := .next (emitHeader "ps" major minor s)

/-- HEADER_VS (R207). -/
def execHeaderVs (major minor : BitVec 8) (s : State) : Result := .next (emitHeader "vs" major minor s)

/-- HEADER_REJECTED (R132, R208): no text, cursor 0, UNSUPPORTED_FORMAT. -/
def execHeaderRejected (_tok : Word) (s : State) : Result :=
  .next { s with sbdInt := { s.sbdInt with ended := some (.unsupportedFormat, 0) } }

/-- DCL (R193). -/
def execDcl (hi : BitVec 16) (u : Option Decl) (d : Option DstOp) (s : State) : Result :=
  .next (emit (renderDcl (opTok hi 0x001F) u d) s)

/-- TEX, below 1.4 (R198). -/
def execTex (hi : BitVec 16) (d : Option DstOp) (s : State) : Result := generic "TEX" 0x0042 hi (some d) [] s

/-- TEXLD, from 1.4 and below 2 (R199). -/
def execTexld14 (hi : BitVec 16) (d : Option DstOp) (a : Option SrcOp) (s : State) : Result :=
  generic "TEXLD" 0x0042 hi (some d) [a] s

/-- TEXLD, from 2 (R200). -/
def execTexld20 (hi : BitVec 16) (d : Option DstOp) (a b : Option SrcOp) (s : State) : Result :=
  generic "TEXLD" 0x0042 hi (some d) [a, b] s

/-- DEF (R201). -/
def execDef (hi : BitVec 16) (d : Option DstOp) (f0 f1 f2 f3 : Option Word) (s : State) : Result :=
  .next (emit (renderDef (opTok hi 0x0051) d [f0, f1, f2, f3]) s)

/-- PHASE (R204). -/
def execPhase (hi : BitVec 16) (s : State) : Result := generic "PHASE" 0xFFFD hi none [] s

/-- END (R144, R205): its line, then the loop ends with OK at the cursor after it. -/
def execEnd (hi : BitVec 16) (s : State) : Result :=
  .next (endLoop .ok (emit (renderGeneric (ascii "END") (opTok hi 0xFFFF) none []) s))

/-- An unrecognised opcode (R95, R209): one token, no text. -/
def execUnrecognised (_tok : Word) (s : State) : Result := .next (emit (.done [] [] 1) s)

end Sys2Proof.Machine
end

