-- ==== Sys2Proof/Machine/Dispatch.lean ====
section
/-! DEFINITION. One arm per instruction. -/

namespace Sys2Proof.Machine

def exec (i : Instr) (s : State) : Host.Outcome State Fault Refusal :=
  match i with
  | .decodeBc1 => Sys2Proof.Machine.execDecodeBc1 s
  | .decodeBc2 => Sys2Proof.Machine.execDecodeBc2 s
  | .decodeBc3 => Sys2Proof.Machine.execDecodeBc3 s
  | .decodeBc4 => Sys2Proof.Machine.execDecodeBc4 s
  | .decodeBc5 => Sys2Proof.Machine.execDecodeBc5 s
  | .unsupportedFormat5 => Sys2Proof.Machine.execUnsupportedFormat5 s
  | .unsupportedFormat6 => Sys2Proof.Machine.execUnsupportedFormat6 s
  | .unsupportedFormat7 => Sys2Proof.Machine.execUnsupportedFormat7 s
  | .headerPs major minor => Sys2Proof.Machine.execHeaderPs major minor s
  | .headerVs major minor => Sys2Proof.Machine.execHeaderVs major minor s
  | .headerRejected tok => Sys2Proof.Machine.execHeaderRejected tok s
  | .nop hi => Sys2Proof.Machine.execNop hi s
  | .mov hi d a => Sys2Proof.Machine.execMov hi d a s
  | .add hi d a b => Sys2Proof.Machine.execAdd hi d a b s
  | .sub hi d a b => Sys2Proof.Machine.execSub hi d a b s
  | .mad hi d a b c => Sys2Proof.Machine.execMad hi d a b c s
  | .mul hi d a b => Sys2Proof.Machine.execMul hi d a b s
  | .rcp hi d a => Sys2Proof.Machine.execRcp hi d a s
  | .rsq hi d a => Sys2Proof.Machine.execRsq hi d a s
  | .dp3 hi d a b => Sys2Proof.Machine.execDp3 hi d a b s
  | .dp4 hi d a b => Sys2Proof.Machine.execDp4 hi d a b s
  | .min hi d a b => Sys2Proof.Machine.execMin hi d a b s
  | .max hi d a b => Sys2Proof.Machine.execMax hi d a b s
  | .slt hi d a b => Sys2Proof.Machine.execSlt hi d a b s
  | .sge hi d a b => Sys2Proof.Machine.execSge hi d a b s
  | .exp hi d a => Sys2Proof.Machine.execExp hi d a s
  | .log hi d a => Sys2Proof.Machine.execLog hi d a s
  | .lit hi d a => Sys2Proof.Machine.execLit hi d a s
  | .dst hi d a b => Sys2Proof.Machine.execDst hi d a b s
  | .lrp hi d a b c => Sys2Proof.Machine.execLrp hi d a b c s
  | .frc hi d a => Sys2Proof.Machine.execFrc hi d a s
  | .m4x4 hi d a b => Sys2Proof.Machine.execM4x4 hi d a b s
  | .m4x3 hi d a b => Sys2Proof.Machine.execM4x3 hi d a b s
  | .m3x4 hi d a b => Sys2Proof.Machine.execM3x4 hi d a b s
  | .m3x3 hi d a b => Sys2Proof.Machine.execM3x3 hi d a b s
  | .m3x2 hi d a b => Sys2Proof.Machine.execM3x2 hi d a b s
  | .call hi a => Sys2Proof.Machine.execCall hi a s
  | .callnz hi a b => Sys2Proof.Machine.execCallnz hi a b s
  | .loop hi a b => Sys2Proof.Machine.execLoop hi a b s
  | .ret hi => Sys2Proof.Machine.execRet hi s
  | .endloop hi => Sys2Proof.Machine.execEndloop hi s
  | .label hi a => Sys2Proof.Machine.execLabel hi a s
  | .pow hi d a b => Sys2Proof.Machine.execPow hi d a b s
  | .crs hi d a b => Sys2Proof.Machine.execCrs hi d a b s
  | .sgn hi d a b c => Sys2Proof.Machine.execSgn hi d a b c s
  | .abs hi d a => Sys2Proof.Machine.execAbs hi d a s
  | .nrm hi d a => Sys2Proof.Machine.execNrm hi d a s
  | .sincos hi d a b c => Sys2Proof.Machine.execSincos hi d a b c s
  | .rep hi a => Sys2Proof.Machine.execRep hi a s
  | .endrep hi => Sys2Proof.Machine.execEndrep hi s
  | .mova hi d a => Sys2Proof.Machine.execMova hi d a s
  | .phase hi => Sys2Proof.Machine.execPhase hi s
  | .end_ hi => Sys2Proof.Machine.execEnd hi s
  | .dcl hi u d => Sys2Proof.Machine.execDcl hi u d s
  | .tex hi d => Sys2Proof.Machine.execTex hi d s
  | .texld14 hi d a => Sys2Proof.Machine.execTexld14 hi d a s
  | .texld20 hi d a b => Sys2Proof.Machine.execTexld20 hi d a b s
  | .def_ hi d f0 f1 f2 f3 => Sys2Proof.Machine.execDef hi d f0 f1 f2 f3 s
  | .unrecognised tok => Sys2Proof.Machine.execUnrecognised tok s

end Sys2Proof.Machine
end

