-- ==== Sys2Proof/Machine/Engine.lean ====
section
/-! DEFINITION. One step of each engine: fetching the next word, decoding it, running it, and the SBD's completion
(42_shader_stream.md R129, 60_exceptions.md R226, R229). -/

namespace Sys2Proof.Machine

/-- Tokens k, k+1, … of the SBD's input, `count` of them (R46). -/
def tokensFrom (s : State) (k : Nat) : (count : Nat) → List Word
  | 0 => []
  | count + 1 => tokenAt s k :: tokensFrom s (k + 1) count

/-- The tokens the SBD fetches: from the cursor on, at most the longest instruction's six, none at or past n (R44). -/
def fetchTokens (s : State) : List Word := tokensFrom s s.sbdInt.cur (Nat.min 6 (s.sbdInt.n - s.sbdInt.cur))

/-- Where the token at the cursor stands (R33, R75, R76). -/
def sbdPlace (s : State) : Place :=
  if s.sbdInt.cur = 0 then .header else .stream s.sbdInt.major s.sbdInt.minor

/-- Whether the decode loop has ended, and how (R129, R131, R134, R144, R146). -/
def loopExit (i : SbdInternal) : Option (Status × Nat) :=
  if i.ended.isSome then i.ended
  else if i.n = 0 then some (.insufficientData, 0)
  else if i.cur = 0 ∨ i.cur < i.n then none
  else some (.ok, i.cur)

/-- One step of a running SBD: the input-range duty (R58; checked before the tokens are read, log 19), then the
completion if the loop has ended, else the header or instruction at the cursor. -/
def sbdStep (s : State) : Result :=
  if (sbdInput s.sbdLatch).wraps then .refused .inputRangeWraps
  else
    match loopExit s.sbdInt with
    | some (st, cursor) => sbdFinish st cursor s
    | none =>
      match decode (sbdPlace s) (fetchTokens s) with
      | .ok (i, _) => exec i s
      | .error .noWord => .refused .noToken

/-- One step of a running BCD: the command its latched FMT names (R67, R229). -/
def bcdStep (s : State) : Result := exec (decodeFmt s.bcdLatch.fmt) s

/-- An engine acts only while RUNNING (R226, R238: "An IDLE engine does nothing until START"). -/
def runBcd (s : State) : Result := if s.bcd.busy then bcdStep s else .next s

/-- The SBD's turn. -/
def runSbd (s : State) : Result := if s.sbd.busy then sbdStep s else .next s

end Sys2Proof.Machine
end

