-- ==== Sys2Proof/Machine/HostBus.lean ====
section
/-! DEFINITION. The host's side: register and memory accesses with their duties (20_memory.md R56, R60, R61), the
interrupt lines (60_exceptions.md R63, R233) and reset (70_reset_and_hazards.md R241). -/

namespace Sys2Proof.Machine

/-! ### Register accesses -/

/-- The window and offset of a register access (R42, R54). A bus address, of whatever width, is resolved by the OPEN
bases, log 14. -/
def RegTarget.resolve : RegTarget → Option (Window × BitVec 8)
  | .window win offset => some (win, offset)
  | .bus addr =>
    if addr / 256 = Config.bcdPage then some (.bcd, BitVec.ofNat 8 addr)
    else if addr / 256 = Config.sbdPage then some (.sbd, BitVec.ofNat 8 addr)
    else none

/-- An access the hardware admits: 32 bits at a multiple of 4 (R16, R56). -/
def admitted (offset : BitVec 8) (bytes : Nat) : Bool := bytes = 4 && offset.toNat % 4 = 0

/-- A duty record once DONE = 1 has been seen: every window of that engine is closed. -/
def Duty.observed (d : Duty) : Duty := { d with unseen := [] }

/-- The host has observed DONE = 1 of an engine: its duties towards that engine's commands end (R60, R62, R63). -/
def observe (win : Window) (s : State) : State :=
  match win with
  | .bcd => { s with bcdDuty := s.bcdDuty.observed }
  | .sbd => { s with sbdDuty := s.sbdDuty.observed }

/-- Whether an engine's DONE is set. -/
def isDone (win : Window) (s : State) : Bool :=
  match win with
  | .bcd => s.bcd.done
  | .sbd => s.sbd.done

/-- The value of a register (R16). -/
def readReg (win : Window) (offset : BitVec 8) (s : State) : Word :=
  match win with
  | .bcd => bcdRead s.bcd offset
  | .sbd => sbdRead s.sbd offset

/-- A register read: no side effect in the hardware (R52); a STATUS read that returns DONE = 1 is the host's
observation of it (R60, R62). -/
def hostRegRead (win : Window) (offset : BitVec 8) (s : State) : State :=
  let s' := { s with lastRead := readReg win offset s }
  if offset.toNat = 4 && isDone win s then observe win s' else s'

/-- A register write (R16). -/
def hostRegWrite (win : Window) (offset : BitVec 8) (v : Word) (s : State) : State :=
  match win with
  | .bcd => bcdWrite offset v s
  | .sbd => sbdWrite offset v s

/-! ### Memory accesses -/

/-- The commands that run now. -/
def runningCommands (s : State) : List Footprint :=
  (if s.bcd.busy then [bcdFootprint s.bcdLatch] else []) ++ (if s.sbd.busy then [sbdFootprint s.sbdLatch] else [])

/-- Every command whose window of R60 and R61 is open: from START until the host has observed DONE = 1. -/
def openCommands (s : State) : List Footprint := runningCommands s ++ (unseenCommands s).map (·.ranges)

/-- A host write of a byte: refused where R60 or R61 forbids it. -/
def hostMemWrite (addr : Word) (v : Byte) (s : State) : Result :=
  if (openCommands s).any (·.input.contains addr.toNat) then .refused .inputWritten
  else if (openCommands s).any (·.output.contains addr.toNat) then .refused .outputWritten
  else .next { s with mem := s.mem.write addr.toNat v }

/-- The SBD run to its completion, alone, in at most `fuel` steps. -/
def sbdToEnd : (fuel : Nat) → State → Option State
  | 0, s => if s.sbd.busy then none else some s
  | fuel + 1, s =>
    if s.sbd.busy then
      match sbdStep s with
      | .next s' => sbdToEnd fuel s'
      | _ => none
    else some s

/-- Memory as the BCD's running command leaves it, were it to complete now: its final values (R37). A refused command
has none (R58: "The model does not compute its output"). -/
def bcdFinal (s : State) : Option Memory :=
  match runBcd s with
  | .next s' => some s'.mem
  | _ => none

/-- Memory as the SBD's running command leaves it: a header, at most n instructions, and the completion. -/
def sbdFinal (s : State) : Option Memory := (sbdToEnd (s.sbdInt.n + 2) s).map (·.mem)

/-- The final value of a byte of a running command's output range (R37), a free byte if the command has none; nothing
outside the range. -/
def finalByte (busy : Bool) (output : Extent) (final : Option Memory) (free : Byte) (a : Nat) : List Byte :=
  if busy && output.contains a then [(final.map (·.read a)).getD free] else []

/-- The previous and the final value of a byte of an unobserved command's output range (R37, R61); none outside it. -/
def Unseen.bytesAt (u : Unseen) (a : Nat) : List Byte :=
  if u.ranges.output.contains a then [u.before.read a, u.after.read a] else []

/-- What R37 and R61 let a host read of a byte return beside what memory holds: for each open window whose output range
has the byte, its previous and its final value (a running command's previous value is what memory holds). Log 8. -/
def openBytes (s : State) (a : Nat) : List Byte :=
  finalByte s.bcd.busy (bcdOutput s.bcdLatch) (bcdFinal s) (Config.freeByte s.freeIdx) a ++
    finalByte s.sbd.busy (sbdOutput s.sbdLatch) (sbdFinal s) (Config.freeByte s.freeIdx) a ++
    (unseenCommands s).flatMap (·.bytesAt a)

/-- A host read of a byte: memory, or, in an open window's output range, a free choice of the values R37 and R61 allow
(log 8). -/
def hostMemRead (addr : Word) (s : State) : State :=
  match openBytes s addr.toNat with
  | [] => { s with lastRead := (s.mem.read addr.toNat).zeroExtend 32 }
  | others =>
    let values := s.mem.read addr.toNat :: others
    { s with
      lastRead := (byteAt values (Config.freePick s.freeIdx % values.length)).zeroExtend 32
      freeIdx := s.freeIdx + 1 }

/-! ### Interrupt lines -/

/-- A line's level (R233). -/
def irq (win : Window) (s : State) : Bool :=
  match win with
  | .bcd => irqBcd s
  | .sbd => irqSbd s

/-- The host looks at a line; seen asserted, it is an observation of DONE (R63, R240). -/
def hostObserveIrq (win : Window) (s : State) : State :=
  let s' := { s with lastRead := (BitVec.ofBool (irq win s)).zeroExtend 32 }
  if irq win s then observe win s' else s'

/-! ### Reset -/

/-- Free bytes over `len` addresses from `a`, clipped to SYS; free value `idx` and on (R39, R243). Log 12. -/
def freeBytes (m : Memory) (a idx : Nat) : (len : Nat) → Memory
  | 0 => m
  | len + 1 =>
    if a < sysSize then freeBytes (m.write a (Config.freeByte idx)) (a + 1) (idx + 1) len
    else m

/-- How many bytes the command of an engine abandoned by reset leaves unspecified (R39). -/
def abandonedLen (busy : Bool) (output : Extent) : Nat := if busy then output.len else 0

/-- `rst` (R241): every register 0, both engines idle, a running command abandoned with its output range unspecified
(R39); nothing else of memory changes (R40). Internal state as at power-on, log 2.
DESIGN CHOICE, safe: a byte that lies both in the output range and in an input range of abandoned commands is free like
the rest of the output range, where R243 calls the one unspecified and the other unchanged, log 25.
DESIGN CHOICE, unsafe: the spec does not say whether `rst` ends the window of R60 and R61 of a command that completed
and whose DONE the host has not observed; here it does, log 21.
DESIGN CHOICE, unsafe: `rst` is asserted and released in one step, so no host access falls while it is held, log 22. -/
def hostReset (s : State) : State :=
  let bcdLen := abandonedLen s.bcd.busy (bcdOutput s.bcdLatch)
  let sbdLen := abandonedLen s.sbd.busy (sbdOutput s.sbdLatch)
  let mem1 := freeBytes s.mem (bcdOutput s.bcdLatch).base s.freeIdx bcdLen
  let mem2 := freeBytes mem1 (sbdOutput s.sbdLatch).base (s.freeIdx + bcdLen) sbdLen
  { State.reset with
    mem := mem2, agenda := s.agenda, lastRead := s.lastRead, freeIdx := s.freeIdx + bcdLen + sbdLen }

/-! ### The host's turn -/

/-- One host action. -/
def hostAct (a : HostAction) (s : State) : Result :=
  match a with
  | .regRead target bytes =>
    match target.resolve with
    | none => .refused .outsideWindows
    | some (win, offset) =>
      if admitted offset bytes then .next (hostRegRead win offset s) else .refused .badRegisterAccess
  | .regWrite target bytes v =>
    match target.resolve with
    | none => .refused .outsideWindows
    | some (win, offset) =>
      if admitted offset bytes then .next (hostRegWrite win offset v s) else .refused .badRegisterAccess
  | .memRead addr => .next (hostMemRead addr s)
  | .memWrite addr v => hostMemWrite addr v s
  | .observeIrq win => .next (hostObserveIrq win s)
  | .rst => .next (hostReset s)

/-- One entry of the agenda. -/
def runEvent (e : Event) (s : State) : Result :=
  match e with
  | .host a => hostAct a s
  | .bcd => runBcd s
  | .sbd => runSbd s

/-- Nothing more is to come from outside: a running engine goes on, the SBD first (R239). DESIGN CHOICE, safe for
any claim about every agenda, log 5. -/
def runAlone (s : State) : Result := if s.sbd.busy then runSbd s else runBcd s

end Sys2Proof.Machine
end

