-- ==== Sys2Proof/Machine/Step.lean ====
section
/-! DEFINITION. One step of the machine, and the placing of a word where the next step fetches it. -/

namespace Sys2Proof.Machine

/-- One step: the next entry of the agenda acts; with none left a running engine goes on (R226, R235, R239). -/
def step (s : State) : Host.Outcome State Fault Refusal :=
  match s.agenda with
  | e :: rest => runEvent e { s with agenda := rest }
  | [] => runAlone s

/-- A table word as the SBD's next token: at token `cur` of an input at address 0, of a running command. Its turn is put
first where something else would come before it (log 6). -/
def State.withToken (s : State) (w cur : Nat) (major minor : BitVec 8) : State :=
  { s with
    mem := s.mem.writeBytes (4 * cur) ((tableTokens w).flatMap leBytes)
    sbd := { s.sbd with busy := true }
    sbdLatch := { s.sbdLatch with srcAddr := 0, srcLen := BitVec.ofNat 32 (4 * (cur + 6)) }
    sbdInt := { s.sbdInt with n := cur + 6, cur := cur, major := major, minor := minor, ended := none }
    agenda := if s.agenda.isEmpty then [] else .sbd :: s.agenda }

/-- A table word as the BCD's latched FMT, of a running command (log 6). -/
def State.withFmt (s : State) (w : Nat) : State :=
  { s with
    bcd := { s.bcd with busy := true }
    bcdLatch := { s.bcdLatch with fmt := BitVec.ofNat 3 w }
    agenda := if s.agenda.isEmpty && !s.sbd.busy then [] else .bcd :: s.agenda }

/-- The state with a table word where `step` fetches its next instruction, in the place its width names (log 7). -/
def State.withFetchWord (s : State) (nbits w : Nat) : State :=
  match tablePlace nbits with
  | .format => s.withFmt w
  | .header => s.withToken w 0 s.sbdInt.major s.sbdInt.minor
  | .stream major minor => s.withToken w 1 major minor

end Sys2Proof.Machine
end

