-- ==== Sys2Proof/Machine/Reference.lean ====
section
/-! DEFINITION. The spec's own functions, for statements; the machine does not call them: operand text read from raw
token bits (30_encoding.md R80 to R88), SBDecode (42_shader_stream.md R129, R137) on raw tokens over the table of
30_encoding.md R91, the rows of that table by operand shape, what a printed or truncated instruction leaves, block texels as numbers, and
the BCD's output bytes by position (40_bc_common.md R106). -/

namespace Sys2Proof.Machine

/-! ### Operand text from raw bits -/

/-- The field of `len` bits from bit `lo` of a token (R7). -/
def field (tok : Word) (lo len : Nat) : Nat := tok.toNat / 2 ^ lo % 2 ^ len

/-- R80: type = tok[30:28] | tok[12:11] << 3. -/
def rawType (tok : Word) : Nat := field tok 28 3 + 8 * field tok 11 2

/-- REGTYPE_SYMBOL by number (R81). -/
def symbolOf (ty : Nat) : Option String :=
  match ty with
  | 0 => some "r" | 1 => some "v" | 2 => some "c" | 3 => some "t" | 4 => some "oFog" | 5 => some "oPos"
  | 6 => some "oT" | 7 => some "i" | 8 => some "oC" | 9 => some "oDepth" | 10 => some "s" | 14 => some "b"
  | 15 => some "aL" | 18 => some "l" | 19 => some "p" | _ => none

/-- `regname(tok)` (R82). -/
def rawRegname (tok : Word) : Bytes :=
  match symbolOf (rawType tok) with
  | some name => if rawType tok = 9 ∨ rawType tok = 15 then ascii name else ascii name ++ dec (field tok 0 11)
  | none => ascii "unk(" ++ dec (rawType tok) ++ ascii ")" ++ dec (field tok 0 11)

/-- `L(v)` of R83. -/
def rawLetter (v : Nat) : Bytes := ascii (["x", "y", "z", "w"].getD v "")

/-- `swztext(tok)` (R83). -/
def rawSwztext (tok : Word) : Bytes :=
  let c (k : Nat) := field tok (16 + 2 * k) 2
  if rawType tok = 3 ∨ rawType tok = 10 then []
  else if field tok 16 8 = 0xE4 then []
  else if c 0 = c 1 ∧ c 1 = c 2 ∧ c 2 = c 3 then ascii "." ++ rawLetter (c 0)
  else ascii "." ++ rawLetter (c 0) ++ rawLetter (c 1) ++ rawLetter (c 2) ++ rawLetter (c 3)

/-- `masktext(tok)` (R84). -/
def rawMasktext (tok : Word) : Bytes :=
  let part (k : Nat) (name : String) := if field tok (16 + k) 1 = 1 then ascii name else []
  if field tok 16 4 = 15 then [] else ascii "." ++ part 0 "x" ++ part 1 "y" ++ part 2 "z" ++ part 3 "w"

/-- `dsttext_mod(tok)` (R85). -/
def rawDstmods (tok : Word) : Bytes :=
  let part (k : Nat) (name : String) := if field tok (20 + k) 1 = 1 then ascii name else []
  part 0 "_SAT" ++ part 1 "_PARTIAL" ++ part 2 "_CENTROID"

/-- `pre` and `suf` of R86, by code. -/
def rawMod (sm : Nat) : String × String :=
  match sm with
  | 1 => ("-", "") | 2 => ("", "_bias") | 3 => ("-", "_bias") | 4 => ("", "_bx2") | 5 => ("-", "_bx2")
  | 6 => ("~", "") | 7 => ("", "_x2") | 8 => ("-", "_x2") | 9 => ("", "_dz") | 10 => ("", "_dw")
  | 11 => ("abs(", ")") | 12 => ("-abs(", ")") | 13 => ("!", "") | _ => ("", "")

/-- `dstop(d)` (R138). -/
def rawDstop (tok : Word) : Bytes := rawRegname tok ++ rawMasktext tok

/-- `srcop(s)` (R86, R139). -/
def rawSrcop (tok : Word) : Bytes :=
  ascii (rawMod (field tok 24 4)).1 ++ rawRegname tok ++ ascii (rawMod (field tok 24 4)).2 ++ rawSwztext tok

/-- USAGE_NAME(u) (R88). -/
def rawUsage (u : Nat) : String :=
  ["position", "blendweight", "blendindices", "normal", "psize", "texcoord", "tangent", "binormal", "tessfactor",
    "positiont", "color", "fog", "depth", "sample"].getD u "unknown"

/-- TEXTYPE_NAME(t) (R88). -/
def rawTextype (t : Nat) : String :=
  match t with
  | 2 => "2d" | 3 => "cube" | 4 => "volume" | _ => "unknown"

/-! ### SBDecode -/

/-- The generic entries of ARITY (R91), PHASE and END among them: the mnemonic, D = 1 or not, and S. -/
def arity (opcode : Nat) : Option (String × Bool × Nat) :=
  match opcode with
  | 0 => some ("NOP", false, 0)
  | 1 => some ("MOV", true, 1)
  | 2 => some ("ADD", true, 2)
  | 3 => some ("SUB", true, 2)
  | 4 => some ("MAD", true, 3)
  | 5 => some ("MUL", true, 2)
  | 6 => some ("RCP", true, 1)
  | 7 => some ("RSQ", true, 1)
  | 8 => some ("DP3", true, 2)
  | 9 => some ("DP4", true, 2)
  | 10 => some ("MIN", true, 2)
  | 11 => some ("MAX", true, 2)
  | 12 => some ("SLT", true, 2)
  | 13 => some ("SGE", true, 2)
  | 14 => some ("EXP", true, 1)
  | 15 => some ("LOG", true, 1)
  | 16 => some ("LIT", true, 1)
  | 17 => some ("DST", true, 2)
  | 18 => some ("LRP", true, 3)
  | 19 => some ("FRC", true, 1)
  | 20 => some ("M4x4", true, 2)
  | 21 => some ("M4x3", true, 2)
  | 22 => some ("M3x4", true, 2)
  | 23 => some ("M3x3", true, 2)
  | 24 => some ("M3x2", true, 2)
  | 25 => some ("CALL", false, 1)
  | 26 => some ("CALLNZ", false, 2)
  | 27 => some ("LOOP", false, 2)
  | 28 => some ("RET", false, 0)
  | 29 => some ("ENDLOOP", false, 0)
  | 30 => some ("LABEL", false, 1)
  | 32 => some ("POW", true, 2)
  | 33 => some ("CRS", true, 2)
  | 34 => some ("SGN", true, 3)
  | 35 => some ("ABS", true, 1)
  | 36 => some ("NRM", true, 1)
  | 37 => some ("SINCOS", true, 3)
  | 38 => some ("REP", false, 1)
  | 39 => some ("ENDREP", false, 0)
  | 46 => some ("MOVA", true, 1)
  | 65533 => some ("PHASE", false, 0)
  | 65535 => some ("END", false, 0)
  | _ => none

/-- TEX_FORM (R92) as a row of ARITY. -/
def texRow (version : BitVec 8 × BitVec 8) : String × Bool × Nat :=
  match texForm version with
  | .tex => ("TEX", true, 0)
  | .texld14 => ("TEXLD", true, 1)
  | .texld20 => ("TEXLD", true, 2)

/-- The result of decoding one instruction (R129): complete lines and the tokens used, or a partial text. -/
inductive Decoded where
  | done (lines : Bytes) (used : Nat)
  | truncated (part : Bytes)
  deriving DecidableEq, Repr

/-- The source loop of R137: `count` sources from index `j`. -/
def rawSources (toks : List Word) (cur : Nat) (tok : Word) (body : Bytes) :
    (ops : List Bytes) → (j count : Nat) → Decoded
  | ops, j, 0 => .done (mkline (body ++ opsuffix ops) tok) (j - cur)
  | ops, j, count + 1 =>
    match toks[j]? with
    | none => .truncated (body ++ opsuffix ops)
    | some t => rawSources toks cur tok body (ops ++ [rawSrcop t]) (j + 1) count

/-- DecodeGeneric (R137) on raw tokens. -/
def rawGeneric (toks : List Word) (cur : Nat) (tok : Word) (row : String × Bool × Nat) : Decoded :=
  match row with
  | (name, false, count) => rawSources toks cur tok (ascii name) [] (cur + 1) count
  | (name, true, count) =>
    match toks[cur + 1]? with
    | none => .truncated (ascii name)
    | some t =>
      rawSources toks cur tok (ascii name ++ rawDstmods t) [rawDstop t] (cur + 2) count

/-- DecodeDCL (R193) on raw tokens. -/
def rawDcl (toks : List Word) (cur : Nat) (tok : Word) : Decoded :=
  match toks[cur + 1]?, toks[cur + 2]? with
  | some u, some d =>
    .done
      ((if rawType d = 10 then
          mkline (ascii "DCL_" ++ ascii (rawTextype (field u 27 3)) ++ ascii " " ++ rawDstop d) tok
        else []) ++
        mkline
          (ascii "DCL_" ++ ascii (rawUsage (field u 0 4)) ++ dec (field u 16 4) ++ ascii " " ++ rawDstop d) tok)
      3
  | _, _ => .truncated []

/-- The literals of R201, from index `j`. -/
def rawLiterals (toks : List Word) (tok : Word) : (body : Bytes) → (j count : Nat) → Decoded
  | body, _, 0 => .done (mkline body tok) 6
  | body, j, count + 1 =>
    match toks[j]? with
    | none => .truncated body
    | some x => rawLiterals toks tok (body ++ ascii ", " ++ floatText x) (j + 1) count

/-- DecodeDEF (R201) on raw tokens. -/
def rawDef (toks : List Word) (cur : Nat) (tok : Word) : Decoded :=
  match toks[cur + 1]? with
  | none => .truncated (ascii "DEF")
  | some d =>
    rawLiterals toks tok (ascii "DEF" ++ ascii " " ++ rawRegname d) (cur + 2) 4

/-- The `case op of` of R129; none for an unrecognised opcode. -/
def rawInstr (toks : List Word) (version : BitVec 8 × BitVec 8) (cur : Nat) (tok : Word) : Option Decoded :=
  let op := (tok.extractLsb' 0 16).toNat
  if op = 31 then some (rawDcl toks cur tok)
  else if op = 81 then some (rawDef toks cur tok)
  else if op = 66 then some (rawGeneric toks cur tok (texRow version))
  else (arity op).map (rawGeneric toks cur tok)

/-- How many tokens an opcode takes in a stream of a version (R94, R147). -/
def opcodeLength (version : BitVec 8 × BitVec 8) (opcode : Nat) : Nat :=
  let row (r : String × Bool × Nat) : Nat := 1 + (if r.2.1 then 1 else 0) + r.2.2
  if opcode = 31 then 3
  else if opcode = 81 then 6
  else if opcode = 66 then row (texRow version)
  else
    match arity opcode with
    | some r => row r
    | none => 1

/-- The `while` loop of R129, at most `fuel` turns: status, text, cursor. -/
def rawLoop (toks : List Word) (version : BitVec 8 × BitVec 8) : (fuel cur : Nat) → Bytes → Status × Bytes × Nat
  | 0, cur, text => (.ok, text, cur)
  | fuel + 1, cur, text =>
    match toks[cur]? with
    | none => (.ok, text, cur)
    | some tok =>
      match rawInstr toks version cur tok with
      | none => rawLoop toks version fuel (cur + 1) text
      | some (.truncated part) => (.insufficientData, text ++ part, toks.length)
      | some (.done lines used) =>
        if (tok.extractLsb' 0 16).toNat = 65535 then (.ok, text ++ lines, cur + used)
        else rawLoop toks version fuel (cur + used) (text ++ lines)

/-- SBDecode (R129) of a list of tokens: status, text and cursor. -/
def sbDecode (toks : List Word) : Status × Bytes × Nat :=
  match toks with
  | [] => (.insufficientData, [], 0)
  | h :: _ =>
    let version := (h.extractLsb' 8 8, h.extractLsb' 0 8)
    let line (ptext : String) : Bytes :=
      ascii ptext ++ ascii "_" ++ dec version.1.toNat ++ ascii "_" ++ dec version.2.toNat ++ ascii "\n"
    if h.extractLsb' 16 16 = 0xFFFF#16 then rawLoop toks version toks.length 1 (line "ps")
    else if h.extractLsb' 16 16 = 0xFFFE#16 then rawLoop toks version toks.length 1 (line "vs")
    else (.unsupportedFormat, [], 0)

/-- The token list of the SBD's running command (R75, R129). -/
def inputTokens (s : State) : List Word := tokensFrom s 0 (tokenCount s.sbdLatch.srcLen)

/-! ### Rows of R91 by operand shape -/

/-- The rows with D = 0 and S = 0, END apart: mnemonic, opcode, constructor. -/
def bareRows : List (String × BitVec 16 × (BitVec 16 → Instr)) :=
  [("NOP", 0x0000, .nop), ("RET", 0x001C, .ret), ("ENDLOOP", 0x001D, .endloop), ("ENDREP", 0x0027, .endrep),
    ("PHASE", 0xFFFD, .phase)]

/-- The rows with D = 0 and S = 1. -/
def oneSourceRows : List (String × BitVec 16 × (BitVec 16 → Option SrcOp → Instr)) :=
  [("CALL", 0x0019, .call), ("LABEL", 0x001E, .label), ("REP", 0x0026, .rep)]

/-- The rows with D = 0 and S = 2. -/
def twoSourceRows : List (String × BitVec 16 × (BitVec 16 → Option SrcOp → Option SrcOp → Instr)) :=
  [("CALLNZ", 0x001A, .callnz), ("LOOP", 0x001B, .loop)]

/-- The rows with D = 1 and S = 1. -/
def unaryRows : List (String × BitVec 16 × (BitVec 16 → Option DstOp → Option SrcOp → Instr)) :=
  [("MOV", 0x0001, .mov), ("RCP", 0x0006, .rcp), ("RSQ", 0x0007, .rsq), ("EXP", 0x000E, .exp), ("LOG", 0x000F, .log),
    ("LIT", 0x0010, .lit), ("FRC", 0x0013, .frc), ("ABS", 0x0023, .abs), ("NRM", 0x0024, .nrm),
    ("MOVA", 0x002E, .mova)]

/-- Rows with D = 1 and S = 2: the arithmetic ones. -/
def binaryRows : List (String × BitVec 16 × (BitVec 16 → Option DstOp → Option SrcOp → Option SrcOp → Instr)) :=
  [("ADD", 0x0002, .add), ("SUB", 0x0003, .sub), ("MUL", 0x0005, .mul), ("DP3", 0x0008, .dp3), ("DP4", 0x0009, .dp4),
    ("MIN", 0x000A, .min), ("MAX", 0x000B, .max), ("SLT", 0x000C, .slt), ("SGE", 0x000D, .sge), ("DST", 0x0011, .dst)]

/-- Rows with D = 1 and S = 2: the matrix ones, POW and CRS. -/
def matrixRows : List (String × BitVec 16 × (BitVec 16 → Option DstOp → Option SrcOp → Option SrcOp → Instr)) :=
  [("M4x4", 0x0014, .m4x4), ("M4x3", 0x0015, .m4x3), ("M3x4", 0x0016, .m3x4), ("M3x3", 0x0017, .m3x3),
    ("M3x2", 0x0018, .m3x2), ("POW", 0x0020, .pow), ("CRS", 0x0021, .crs)]

/-- The rows with D = 1 and S = 3. -/
def ternaryRows :
    List (String × BitVec 16 × (BitVec 16 → Option DstOp → Option SrcOp → Option SrcOp → Option SrcOp → Instr)) :=
  [("MAD", 0x0004, .mad), ("LRP", 0x0012, .lrp), ("SGN", 0x0022, .sgn), ("SINCOS", 0x0025, .sincos)]

/-- The five DECODE commands: instruction, block decoder, block size, channels (R67). -/
def decodeRows : List (Instr × (Bool → Bytes → BlockRegs) × Nat × Nat) :=
  [(.decodeBc1, decodeBlock1, 8, 4), (.decodeBc2, decodeBlock2, 16, 4), (.decodeBc3, decodeBlock3, 16, 4),
    (.decodeBc4, decodeBlock4, 8, 1), (.decodeBc5, decodeBlock5, 16, 2)]

/-! ### The value of a spelled number -/

/-- The value of a decimal spelling (R8). -/
def decValue (bs : Bytes) : Nat := bs.foldl (fun n b => 10 * n + (b.toNat - 48)) 0

/-- The value of a lowercase hexadecimal spelling (R8). -/
def hexValue (bs : Bytes) : Nat :=
  bs.foldl (fun n b => 16 * n + (if b.toNat < 97 then b.toNat - 48 else b.toNat - 87)) 0

/-- The magnitude of a finite binary32 (R89, R202). -/
def floatMagnitude (x : Word) : ℚ :=
  if field x 23 8 = 0 then (field x 0 23 : ℚ) / 2 ^ 149
  else (2 ^ 23 + (field x 0 23 : ℚ)) * 2 ^ field x 23 8 / 2 ^ 150

/-! ### What a printed or a truncated instruction leaves -/

/-- Complete lines and a cursor advance, and nothing else (R137, R147): "No register, flag or status changes". -/
def State.printed (s : State) (operands : List Bytes) (lines : Bytes) (used : Nat) : State :=
  { s with sbdInt :=
    { s.sbdInt with
      operands := operands, line := lines, text := s.sbdInt.text ++ lines, cur := s.sbdInt.cur + used } }

/-- A partial text, the cursor at n, decoding ended with INSUFFICIENT_DATA, and nothing else (R143). -/
def State.cutOff (s : State) (operands : List Bytes) (part : Bytes) : State :=
  { s with sbdInt :=
    { s.sbdInt with
      operands := operands, line := part, text := s.sbdInt.text ++ part, cur := s.sbdInt.n
      ended := some (.insufficientData, s.sbdInt.n) } }

/-! ### Texels as numbers -/

/-- An RGB565 endpoint expanded, red in the high bits (R69, R109). -/
def endpointRgb (color : Nat) : Nat × Nat × Nat :=
  ((color / 2 ^ 11 % 32 * 527 + 23) / 64, (color / 2 ^ 5 % 64 * 259 + 33) / 64, (color % 32 * 527 + 23) / 64)

/-- One channel of palette entry j (R111, R112): `two` picks the 2:1 and 1:2 blends. -/
def paletteChannel (two : Bool) (p q j : Nat) : Nat :=
  match j with
  | 0 => p
  | 1 => q
  | 2 => if two then (2 * p + q) / 3 else (p + q) / 2
  | _ => if two then (p + 2 * q) / 3 else 0

/-- The 16-bit field at byte k of a block (R47). -/
def wordAt (blk : Bytes) (k : Nat) : Nat := (byteAt blk k).toNat + 256 * (byteAt blk (k + 1)).toNat

/-- The colour index of texel i of a colour block at byte k: byte 4 + i div 4 holds its row (R68). -/
def colorIndex (blk : Bytes) (k i : Nat) : Nat := (byteAt blk (k + 4 + i / 4)).toNat / 4 ^ (i % 4) % 4

/-- The colour of texel i of a colour block at byte k (R113). -/
def colorBytes (two : Bool) (blk : Bytes) (k i : Nat) : Bytes :=
  let p := endpointRgb (wordAt blk k)
  let q := endpointRgb (wordAt blk (k + 2))
  let j := colorIndex blk k i
  [octet (paletteChannel two p.1 q.1 j), octet (paletteChannel two p.2.1 q.2.1 j),
    octet (paletteChannel two p.2.2 q.2.2 j)]

/-- Entry j of build_ramp (R115). -/
def rampValue (a0 a1 j : Nat) : Nat :=
  match j with
  | 0 => a0
  | 1 => a1
  | j => if a1 < a0 then ((8 - j) * a0 + (j - 1) * a1) / 7
    else if j = 6 then 0 else if j = 7 then 255 else ((6 - j) * a0 + (j - 1) * a1) / 5

/-- The ramp index of texel i of a ramp block at byte k: three bits of a 24-bit field (R71). -/
def rampIndex (blk : Bytes) (k i : Nat) : Nat :=
  (wordAt blk (k + 2 + 3 * (i / 8)) + 65536 * (byteAt blk (k + 4 + 3 * (i / 8))).toNat) / 8 ^ (i % 8) % 8

/-- The value of texel i of a ramp block at byte k whose endpoints stand at byte e (R116). -/
def rampByte (blk : Bytes) (e k i : Nat) : Byte :=
  octet (rampValue (byteAt blk e).toNat (byteAt blk (e + 1)).toNat (rampIndex blk k i))

/-! ### BCDecode, by output position -/

/-- Output byte `c` of texel (x, y) (R106): byte c of texel 4*(y mod 4) + (x mod 4) of block (x div 4) + (y div 4)*BX. -/
def pixelByte (decodeBlock : Bool → Bytes → BlockRegs) (blockSize : Nat) (p : Plan) (l : BcdLatch) (m : Memory)
    (x y c : Nat) : Byte :=
  let k := x / 4 + y / 4 * p.blocksX
  byteAt ((decodeBlock l.bc5Fix (blockBytes l blockSize k m)).texels.getD (4 * (y % 4) + x % 4) []) c

end Sys2Proof.Machine
end

