-- ==== Sys2Proof/Safety.lean ====
section
/-! DEFINITION. What counts as a safe state and a safe step, in the terms the statements use. -/

namespace Sys2Proof.Machine

/-- A byte of the text: a line feed or a printing ASCII character (42_shader_stream.md R149). -/
def isTextByte (b : Byte) : Bool := b = 0x0A || (0x20 ≤ b.toNat && b.toNat ≤ 0x7E)

/-- What always holds of the BCD: BUSY and DONE exclude each other (10_state.md R18), no error shows while BUSY
(60_exceptions.md R223), an error leaves OUT_LEN 0 (R220). -/
structure BcdInv (s : State) : Prop where
  exclusive : ¬(s.bcd.busy = true ∧ s.bcd.done = true)
  quiet : s.bcd.busy = true → s.bcd.err = .ok
  errorLength : s.bcd.err ≠ .ok → s.bcd.outLen = 0

/-- What always holds of the SBD's registers: as for the BCD, no OVF while BUSY; and the two errors of R220: a rejected
header leaves OUT_LEN and CURSOR 0, a truncation leaves OUT_LEN the length of the text and CURSOR = n, both 0 when the
input holds no token (R131). -/
structure SbdInv (s : State) : Prop where
  exclusive : ¬(s.sbd.busy = true ∧ s.sbd.done = true)
  quiet : s.sbd.busy = true → s.sbd.err = .ok ∧ s.sbd.ovf = false
  rejected : s.sbd.err = .unsupportedFormat → s.sbd.outLen = 0 ∧ s.sbd.cursor = 0
  truncated : s.sbd.err = .insufficientData →
    s.sbd.outLen = BitVec.ofNat 32 s.sbdInt.text.length ∧
      s.sbd.cursor = BitVec.ofNat 32 (tokenCount s.sbdLatch.srcLen) ∧
      (tokenCount s.sbdLatch.srcLen = 0 → s.sbd.outLen = 0 ∧ s.sbd.cursor = 0)

/-- What holds inside a running SBD command: the token count is that of the latch (R130), the cursor is a token index
0 to n (R33), the text is ASCII (R149), nothing is printed before the header, and a loop that has ended reports a
cursor 0 to n (R146): 0 and no text for a rejected header (R132), n for a truncation (R143). -/
structure SbdRunInv (s : State) : Prop where
  count : s.sbdInt.n = tokenCount s.sbdLatch.srcLen
  cursor : s.sbdInt.cur ≤ s.sbdInt.n
  printable : s.sbdInt.text.all isTextByte = true
  beforeHeader : s.sbdInt.cur = 0 → s.sbdInt.text = []
  ended : ∀ st c, s.sbdInt.ended = some (st, c) →
    c ≤ s.sbdInt.n ∧ (st = .unsupportedFormat → c = 0 ∧ s.sbdInt.text = []) ∧
      (st = .insufficientData → c = s.sbdInt.n)

/-- The machine's invariant: memory in canonical form, and the engines' own. -/
structure State.Inv (s : State) : Prop where
  mem : s.mem.wf = true
  bcd : BcdInv s
  sbd : SbdInv s
  run : s.sbd.busy = true → SbdRunInv s

/-- A started SBD command left to itself: nothing else runs and nothing is to come (log 5); what START leaves in the
SBD's internal state (R33, R130, log 2). -/
structure SbdStarted (s : State) : Prop where
  busy : s.sbd.busy = true
  alone : s.bcd.busy = false
  quiet : s.agenda = []
  mem : s.mem.wf = true
  fresh : s.sbdInt = { SbdInternal.reset with n := tokenCount s.sbdLatch.srcLen }

/-- A step that keeps the host's duties: it answers a next state (60_exceptions.md R222). -/
def State.Safe (s : State) : Prop := ∃ t, step s = .next t

/-- A command whose engine may complete (60_exceptions.md R229): its ranges stay in SYS (20_memory.md R58); its output
range meets neither its input range nor a range of the other engine's command running at the same time (R59), and its
input range no output range of such a command (R37, R60; log 11); it writes no byte of an input range that R60 guards
(log 9). -/
def rangesLegal (f : Footprint) (written : Extent) (others : List Footprint) (guarded : List Extent) : Prop :=
  f.input.base + f.input.len ≤ sysSize ∧ written.base + written.len ≤ sysSize ∧
    f.output.overlaps f.input = false ∧
    (∀ g ∈ others, f.output.overlaps g.input = false ∧ f.output.overlaps g.output = false) ∧
    (∀ g ∈ others, g.output.overlaps f.input = false) ∧ ∀ r ∈ guarded, written.overlaps r = false

end Sys2Proof.Machine
end

