-- ==== Sys2Proof/Certificates/Slice0/Obligations.lean ====
section
/-! DEFINITION. The statements for the provers. Each says which rule of spec/ it formalises; where it rests on a choice
of the model it names the log entry. -/

open Sys2Proof Sys2Proof.Machine

/-! ### Decoding and encoding -/

/-- R212: every word decodes at every place, to a well-formed instruction of that place; and no opcode or header value
of a stream traps: running what was decoded answers a next state. -/
def Obligations.EveryWordDecodes : Prop :=
  ∀ (place : Place) (tok : Word) (rest : List Word), ∃ i rest',
    decode place (tok :: rest) = .ok (i, rest') ∧ i.wellFormed = true ∧ place.admits i = true ∧
      (place ≠ .format → ∀ s, ∃ t, exec i s = .next t)

/-- Decode and encode agree on every well-formed instruction at every place it can stand in: a complete one is read
back and leaves the words after it; a truncated one (R143) is read back at the end of the stream. -/
def Obligations.DecodeEncode : Prop :=
  ∀ (place : Place) (i : Instr), i.wellFormed = true → place.admits i = true →
    decode place (encode i) = .ok (i, []) ∧
      (i.complete = true → ∀ rest, decode place (encode i ++ rest) = .ok (i, rest))

/-- R94: an instruction takes as many tokens as its opcode says, and nothing else of the opcode token counts. -/
def Obligations.InstructionLength : Prop :=
  ∀ (major minor : BitVec 8) (tok : Word) (rest : List Word), ∃ i,
    decode (.stream major minor) (tok :: rest) =
      .ok (i, rest.drop (opcodeLength (major, minor) (field tok 0 16) - 1))

/-- R95: exactly the opcodes 40 to 45, 47 to 65, 67 to 80, 82 to 65532 and 65534 are unrecognised; such a token is
consumed alone and prints nothing. -/
def Obligations.UnrecognisedOpcodes : Prop :=
  ∀ (major minor : BitVec 8) (tok : Word) (rest : List Word),
    ((∃ rest', decode (.stream major minor) (tok :: rest) = .ok (.unrecognised tok, rest')) ↔
      (40 ≤ field tok 0 16 ∧ field tok 0 16 ≤ 45 ∨ 47 ≤ field tok 0 16 ∧ field tok 0 16 ≤ 65 ∨
        67 ≤ field tok 0 16 ∧ field tok 0 16 ≤ 80 ∨ 82 ≤ field tok 0 16 ∧ field tok 0 16 ≤ 65532 ∨
        field tok 0 16 = 65534)) ∧
    (∀ rest', decode (.stream major minor) (tok :: rest) = .ok (.unrecognised tok, rest') → rest' = rest) ∧
    ∀ s, exec (.unrecognised tok) s = .next (s.printed [] [] 1)

/-- R78, R79, R87: two parameter tokens read alike exactly when they agree on the bits the SBD reads. -/
def Obligations.IgnoredOperandBits : Prop :=
  ∀ a b : Word,
    (DstOp.ofToken a = DstOp.ofToken b ↔ a &&& 0x707F1FFF = b &&& 0x707F1FFF) ∧
    (SrcOp.ofToken a = SrcOp.ofToken b ↔ a &&& 0x7FFF1FFF = b &&& 0x7FFF1FFF) ∧
    (Decl.ofToken a = Decl.ofToken b ↔ a &&& 0x380F000F = b &&& 0x380F000F)

/-- Words written out from the encodings decode to their instructions: `MOV r1.xyz, -r1`, a sampler `DCL`, an `IF`
(unrecognised), a `ps_2_0` header, FMT 4. A sanity check. -/
def Obligations.DecodedWords : Prop :=
  decode (.stream 2 0) [0x02000001, 0x80070001, 0x81E40001] =
    .ok (.mov 0x0200 (some ⟨.r, 1, ⟨true, true, true, false⟩, ⟨false, false, false⟩⟩)
      (some ⟨.r, 1, ⟨.x, .y, .z, .w⟩, .negate⟩), []) ∧
  decode (.stream 2 0) [0x0200001F, 0x90000000, 0xA00F0800] =
    .ok (.dcl 0x0200 (some ⟨.position, 0, .twoD⟩)
      (some ⟨.s, 0, ⟨true, true, true, true⟩, ⟨false, false, false⟩⟩), []) ∧
  decode (.stream 2 0) [0x01000028] = .ok (.unrecognised 0x01000028, []) ∧
  decode .header [0xFFFF0200] = .ok (.headerPs 2 0, []) ∧
  decode .format [4] = .ok (.decodeBc5, [])

/-! ### Operand text and number spelling -/

/-- R80, R82: the register name of a parameter token, from its raw bits. -/
def Obligations.RegisterNames : Prop :=
  ∀ tok : Word,
    regname (DstOp.ofToken tok).reg (DstOp.ofToken tok).num = rawRegname tok ∧
    regname (SrcOp.ofToken tok).reg (SrcOp.ofToken tok).num = rawRegname tok

/-- R83, R139: a source operand's text, with its swizzle, from the raw bits of its token. -/
def Obligations.SourceText : Prop :=
  ∀ tok : Word,
    srcop (SrcOp.ofToken tok) = rawSrcop tok ∧
    swztext (SrcOp.ofToken tok).reg (SrcOp.ofToken tok).swz = rawSwztext tok

/-- R84, R85, R138, R88: a destination's text, its modifiers, and the declaration names, from raw bits. -/
def Obligations.DestinationAndDeclarationText : Prop :=
  ∀ tok : Word,
    masktext (DstOp.ofToken tok).mask = rawMasktext tok ∧
    dstmods (DstOp.ofToken tok).mods = rawDstmods tok ∧
    dstop (DstOp.ofToken tok) = rawRegname tok ++ rawMasktext tok ∧
    usageName (Decl.ofToken tok).usage = ascii (rawUsage (field tok 0 4)) ∧
    (Decl.ofToken tok).index.toNat = field tok 16 4 ∧
    textypeName (Decl.ofToken tok).tex = ascii (rawTextype (field tok 27 3))

/-- R202: the text of a binary32 literal. A finite value prints the nearest multiple of a millionth, ties to even. -/
def Obligations.FloatText : Prop :=
  ∀ x : Word, ∃ sign : Bytes, sign = (if field x 31 1 = 1 then ascii "-" else []) ∧
    (field x 23 8 = 255 → floatText x = sign ++ (if field x 0 23 = 0 then ascii "inf" else ascii "nan")) ∧
    (field x 23 8 ≠ 255 → ∃ q : ℕ,
      floatText x = sign ++ dec (q / 10 ^ 6) ++ ascii "." ++ decFixed 6 (q % 10 ^ 6) ∧
      |(q : ℚ) - floatMagnitude x * 10 ^ 6| ≤ 1 / 2 ∧
      (|(q : ℚ) - floatMagnitude x * 10 ^ 6| = 1 / 2 → q % 2 = 0))

/-- R8, R97: `dec` spells its number in decimal digits with no leading zero, and zero as `0`; `hex4` and `hex8` spell
theirs in the digits 0 to 9 and a to f, `decFixed 6` in six decimal digits; `pad2` fills to two columns. -/
def Obligations.NumberSpelling : Prop :=
  ∀ n : Nat,
    decValue (dec n) = n ∧ (∀ b ∈ dec n, 48 ≤ b.toNat ∧ b.toNat ≤ 57) ∧ ((dec n).head? = some 48 → dec n = [48]) ∧
    dec 0 = [48] ∧
    (n < 16 ^ 4 → hexValue (hex4 n) = n) ∧ (hex4 n).length = 4 ∧
    (n < 16 ^ 8 → hexValue (hex8 n) = n) ∧ (hex8 n).length = 8 ∧
    (∀ b, b ∈ hex4 n ∨ b ∈ hex8 n → 48 ≤ b.toNat ∧ b.toNat ≤ 57 ∨ 97 ≤ b.toNat ∧ b.toNat ≤ 102) ∧
    (n < 10 ^ 6 → decValue (decFixed 6 n) = n) ∧ (decFixed 6 n).length = 6 ∧
    (∀ b ∈ decFixed 6 n, 48 ≤ b.toNat ∧ b.toNat ≤ 57) ∧
    (∃ k, pad2 n = List.replicate k 32 ++ dec n) ∧ (n < 100 → (pad2 n).length = 2)

/-- R141, R142: a complete line is its body, spaces up to column 60 and none past it, and the comment of 43 bytes that
prints the opcode token. -/
def Obligations.LineShape : Prop :=
  ∀ (body : Bytes) (tok : Word),
    mkline body tok = body ++ List.replicate (60 - body.length) 32 ++
      (ascii "; opcode: 0x" ++ hex4 (field tok 0 16) ++ ascii ", len: " ++ pad2 (field tok 24 4) ++
        ascii ", val: 0x" ++ hex8 tok.toNat ++ [0x0A]) ∧
    (mkline body tok).length = max 60 body.length + 43

/-! ### Shader instructions: decoding, the line of a complete one, the partial text of a truncated one -/

/-- R153, R188, R189, R192, R204: NOP, RET, ENDLOOP, ENDREP and PHASE take one token and print their mnemonic. -/
def Obligations.BareInstructions : Prop :=
  ∀ row ∈ bareRows, ∀ (major minor : BitVec 8) (hi : BitVec 16) (rest : List Word) (s : State),
    decode (.stream major minor) (opTok hi row.2.1 :: rest) = .ok (row.2.2 hi, rest) ∧
    exec (row.2.2 hi) s = .next (s.printed [] (mkline (ascii row.1) (opTok hi row.2.1)) 1)

/-- R185, R190, R191 and R186, R187: CALL, LABEL and REP print one source; CALLNZ and LOOP print two. -/
def Obligations.SourceOnlyInstructions : Prop :=
  (∀ row ∈ oneSourceRows, ∀ (major minor : BitVec 8) (hi : BitVec 16) (ta : Word) (rest : List Word) (s : State),
    decode (.stream major minor) (opTok hi row.2.1 :: ta :: rest) = .ok (row.2.2 hi (some (.ofToken ta)), rest) ∧
    decode (.stream major minor) [opTok hi row.2.1] = .ok (row.2.2 hi none, []) ∧
    (∀ a, exec (row.2.2 hi (some a)) s =
      .next (s.printed [srcop a] (mkline (ascii row.1 ++ ascii " " ++ srcop a) (opTok hi row.2.1)) 2)) ∧
    exec (row.2.2 hi none) s = .next (s.cutOff [] (ascii row.1))) ∧
  (∀ row ∈ twoSourceRows, ∀ (major minor : BitVec 8) (hi : BitVec 16) (ta tb : Word) (rest : List Word) (s : State),
    decode (.stream major minor) (opTok hi row.2.1 :: ta :: tb :: rest) =
      .ok (row.2.2 hi (some (.ofToken ta)) (some (.ofToken tb)), rest) ∧
    decode (.stream major minor) [opTok hi row.2.1, ta] = .ok (row.2.2 hi (some (.ofToken ta)) none, []) ∧
    decode (.stream major minor) [opTok hi row.2.1] = .ok (row.2.2 hi none none, []) ∧
    (∀ a b, exec (row.2.2 hi (some a) (some b)) s =
      .next (s.printed [srcop a, srcop b]
        (mkline (ascii row.1 ++ ascii " " ++ srcop a ++ ascii ", " ++ srcop b) (opTok hi row.2.1)) 3)) ∧
    (∀ a, exec (row.2.2 hi (some a) none) s =
      .next (s.cutOff [srcop a] (ascii row.1 ++ ascii " " ++ srcop a))) ∧
    exec (row.2.2 hi none none) s = .next (s.cutOff [] (ascii row.1)))

/-- R154, R159, R160, R167, R168, R169, R172, R181, R182, R184: MOV, RCP, RSQ, EXP, LOG, LIT, FRC, ABS, NRM and MOVA
print a destination and one source. -/
def Obligations.UnaryInstructions : Prop :=
  ∀ row ∈ unaryRows, ∀ (major minor : BitVec 8) (hi : BitVec 16) (td ta : Word) (rest : List Word) (s : State),
    decode (.stream major minor) (opTok hi row.2.1 :: td :: ta :: rest) =
      .ok (row.2.2 hi (some (.ofToken td)) (some (.ofToken ta)), rest) ∧
    decode (.stream major minor) [opTok hi row.2.1, td] = .ok (row.2.2 hi (some (.ofToken td)) none, []) ∧
    decode (.stream major minor) [opTok hi row.2.1] = .ok (row.2.2 hi none none, []) ∧
    (∀ d a, exec (row.2.2 hi (some d) (some a)) s =
      .next (s.printed [dstop d, srcop a]
        (mkline (ascii row.1 ++ dstmods d.mods ++ ascii " " ++ dstop d ++ ascii ", " ++ srcop a)
          (opTok hi row.2.1)) 3)) ∧
    (∀ d, exec (row.2.2 hi (some d) none) s =
      .next (s.cutOff [dstop d] (ascii row.1 ++ dstmods d.mods ++ ascii " " ++ dstop d))) ∧
    exec (row.2.2 hi none none) s = .next (s.cutOff [] (ascii row.1))

/-- R155, R156, R158, R161 to R166, R170: ADD, SUB, MUL, DP3, DP4, MIN, MAX, SLT, SGE and DST print a destination and
two sources. -/
def Obligations.BinaryInstructions : Prop :=
  ∀ row ∈ binaryRows, ∀ (major minor : BitVec 8) (hi : BitVec 16) (td ta tb : Word) (rest : List Word) (s : State),
    decode (.stream major minor) (opTok hi row.2.1 :: td :: ta :: tb :: rest) =
      .ok (row.2.2 hi (some (.ofToken td)) (some (.ofToken ta)) (some (.ofToken tb)), rest) ∧
    decode (.stream major minor) [opTok hi row.2.1, td, ta] =
      .ok (row.2.2 hi (some (.ofToken td)) (some (.ofToken ta)) none, []) ∧
    decode (.stream major minor) [opTok hi row.2.1, td] = .ok (row.2.2 hi (some (.ofToken td)) none none, []) ∧
    decode (.stream major minor) [opTok hi row.2.1] = .ok (row.2.2 hi none none none, []) ∧
    (∀ d a b, exec (row.2.2 hi (some d) (some a) (some b)) s =
      .next (s.printed [dstop d, srcop a, srcop b]
        (mkline (ascii row.1 ++ dstmods d.mods ++ ascii " " ++ dstop d ++ ascii ", " ++ srcop a ++ ascii ", " ++
          srcop b) (opTok hi row.2.1)) 4)) ∧
    (∀ d a, exec (row.2.2 hi (some d) (some a) none) s =
      .next (s.cutOff [dstop d, srcop a]
        (ascii row.1 ++ dstmods d.mods ++ ascii " " ++ dstop d ++ ascii ", " ++ srcop a))) ∧
    (∀ d, exec (row.2.2 hi (some d) none none) s =
      .next (s.cutOff [dstop d] (ascii row.1 ++ dstmods d.mods ++ ascii " " ++ dstop d))) ∧
    exec (row.2.2 hi none none none) s = .next (s.cutOff [] (ascii row.1))

/-- R173 to R179: M4x4, M4x3, M3x4, M3x3, M3x2, POW and CRS print a destination and two sources. -/
def Obligations.MatrixInstructions : Prop :=
  ∀ row ∈ matrixRows, ∀ (major minor : BitVec 8) (hi : BitVec 16) (td ta tb : Word) (rest : List Word) (s : State),
    decode (.stream major minor) (opTok hi row.2.1 :: td :: ta :: tb :: rest) =
      .ok (row.2.2 hi (some (.ofToken td)) (some (.ofToken ta)) (some (.ofToken tb)), rest) ∧
    decode (.stream major minor) [opTok hi row.2.1, td, ta] =
      .ok (row.2.2 hi (some (.ofToken td)) (some (.ofToken ta)) none, []) ∧
    decode (.stream major minor) [opTok hi row.2.1, td] = .ok (row.2.2 hi (some (.ofToken td)) none none, []) ∧
    decode (.stream major minor) [opTok hi row.2.1] = .ok (row.2.2 hi none none none, []) ∧
    (∀ d a b, exec (row.2.2 hi (some d) (some a) (some b)) s =
      .next (s.printed [dstop d, srcop a, srcop b]
        (mkline (ascii row.1 ++ dstmods d.mods ++ ascii " " ++ dstop d ++ ascii ", " ++ srcop a ++ ascii ", " ++
          srcop b) (opTok hi row.2.1)) 4)) ∧
    (∀ d a, exec (row.2.2 hi (some d) (some a) none) s =
      .next (s.cutOff [dstop d, srcop a]
        (ascii row.1 ++ dstmods d.mods ++ ascii " " ++ dstop d ++ ascii ", " ++ srcop a))) ∧
    (∀ d, exec (row.2.2 hi (some d) none none) s =
      .next (s.cutOff [dstop d] (ascii row.1 ++ dstmods d.mods ++ ascii " " ++ dstop d))) ∧
    exec (row.2.2 hi none none none) s = .next (s.cutOff [] (ascii row.1))

/-- R157, R171, R180, R183: MAD, LRP, SGN and SINCOS print a destination and three sources. -/
def Obligations.TernaryInstructions : Prop :=
  ∀ row ∈ ternaryRows, ∀ (major minor : BitVec 8) (hi : BitVec 16) (td ta tb tc : Word) (rest : List Word) (s : State),
    decode (.stream major minor) (opTok hi row.2.1 :: td :: ta :: tb :: tc :: rest) =
      .ok (row.2.2 hi (some (.ofToken td)) (some (.ofToken ta)) (some (.ofToken tb)) (some (.ofToken tc)), rest) ∧
    decode (.stream major minor) [opTok hi row.2.1, td, ta, tb] =
      .ok (row.2.2 hi (some (.ofToken td)) (some (.ofToken ta)) (some (.ofToken tb)) none, []) ∧
    decode (.stream major minor) [opTok hi row.2.1, td, ta] =
      .ok (row.2.2 hi (some (.ofToken td)) (some (.ofToken ta)) none none, []) ∧
    decode (.stream major minor) [opTok hi row.2.1, td] = .ok (row.2.2 hi (some (.ofToken td)) none none none, []) ∧
    decode (.stream major minor) [opTok hi row.2.1] = .ok (row.2.2 hi none none none none, []) ∧
    (∀ d a b c, exec (row.2.2 hi (some d) (some a) (some b) (some c)) s =
      .next (s.printed [dstop d, srcop a, srcop b, srcop c]
        (mkline (ascii row.1 ++ dstmods d.mods ++ ascii " " ++ dstop d ++ ascii ", " ++ srcop a ++ ascii ", " ++
          srcop b ++ ascii ", " ++ srcop c) (opTok hi row.2.1)) 5)) ∧
    (∀ d a b, exec (row.2.2 hi (some d) (some a) (some b) none) s =
      .next (s.cutOff [dstop d, srcop a, srcop b]
        (ascii row.1 ++ dstmods d.mods ++ ascii " " ++ dstop d ++ ascii ", " ++ srcop a ++ ascii ", " ++ srcop b))) ∧
    (∀ d a, exec (row.2.2 hi (some d) (some a) none none) s =
      .next (s.cutOff [dstop d, srcop a]
        (ascii row.1 ++ dstmods d.mods ++ ascii " " ++ dstop d ++ ascii ", " ++ srcop a))) ∧
    (∀ d, exec (row.2.2 hi (some d) none none none) s =
      .next (s.cutOff [dstop d] (ascii row.1 ++ dstmods d.mods ++ ascii " " ++ dstop d))) ∧
    exec (row.2.2 hi none none none none) s = .next (s.cutOff [] (ascii row.1))

/-- R92, R197 to R200: opcode 66 is TEX below version 1.4, TEXLD with one source below 2, TEXLD with two from 2 on; what
each prints, and what it prints when truncated. -/
def Obligations.TextureInstructions : Prop :=
  ∀ (hi : BitVec 16) (td ta tb : Word) (rest : List Word) (s : State),
    (∀ major minor : BitVec 8, major = 0 ∨ major = 1 ∧ minor.toNat < 4 →
      decode (.stream major minor) (opTok hi 66 :: td :: rest) = .ok (.tex hi (some (.ofToken td)), rest) ∧
      decode (.stream major minor) [opTok hi 66] = .ok (.tex hi none, [])) ∧
    (∀ minor : BitVec 8, 4 ≤ minor.toNat →
      decode (.stream 1 minor) (opTok hi 66 :: td :: ta :: rest) =
        .ok (.texld14 hi (some (.ofToken td)) (some (.ofToken ta)), rest) ∧
      decode (.stream 1 minor) [opTok hi 66, td] = .ok (.texld14 hi (some (.ofToken td)) none, []) ∧
      decode (.stream 1 minor) [opTok hi 66] = .ok (.texld14 hi none none, [])) ∧
    (∀ major minor : BitVec 8, 2 ≤ major.toNat →
      decode (.stream major minor) (opTok hi 66 :: td :: ta :: tb :: rest) =
        .ok (.texld20 hi (some (.ofToken td)) (some (.ofToken ta)) (some (.ofToken tb)), rest) ∧
      decode (.stream major minor) [opTok hi 66, td, ta] =
        .ok (.texld20 hi (some (.ofToken td)) (some (.ofToken ta)) none, []) ∧
      decode (.stream major minor) [opTok hi 66, td] = .ok (.texld20 hi (some (.ofToken td)) none none, []) ∧
      decode (.stream major minor) [opTok hi 66] = .ok (.texld20 hi none none none, [])) ∧
    (∀ d, exec (.tex hi (some d)) s =
      .next (s.printed [dstop d] (mkline (ascii "TEX" ++ dstmods d.mods ++ ascii " " ++ dstop d) (opTok hi 66)) 2)) ∧
    exec (.tex hi none) s = .next (s.cutOff [] (ascii "TEX")) ∧
    (∀ d a, exec (.texld14 hi (some d) (some a)) s =
      .next (s.printed [dstop d, srcop a]
        (mkline (ascii "TEXLD" ++ dstmods d.mods ++ ascii " " ++ dstop d ++ ascii ", " ++ srcop a) (opTok hi 66)) 3)) ∧
    (∀ d, exec (.texld14 hi (some d) none) s =
      .next (s.cutOff [dstop d] (ascii "TEXLD" ++ dstmods d.mods ++ ascii " " ++ dstop d))) ∧
    exec (.texld14 hi none none) s = .next (s.cutOff [] (ascii "TEXLD")) ∧
    (∀ d a b, exec (.texld20 hi (some d) (some a) (some b)) s =
      .next (s.printed [dstop d, srcop a, srcop b]
        (mkline (ascii "TEXLD" ++ dstmods d.mods ++ ascii " " ++ dstop d ++ ascii ", " ++ srcop a ++ ascii ", " ++
          srcop b) (opTok hi 66)) 4)) ∧
    (∀ d a, exec (.texld20 hi (some d) (some a) none) s =
      .next (s.cutOff [dstop d, srcop a]
        (ascii "TEXLD" ++ dstmods d.mods ++ ascii " " ++ dstop d ++ ascii ", " ++ srcop a))) ∧
    (∀ d, exec (.texld20 hi (some d) none none) s =
      .next (s.cutOff [dstop d] (ascii "TEXLD" ++ dstmods d.mods ++ ascii " " ++ dstop d))) ∧
    exec (.texld20 hi none none none) s = .next (s.cutOff [] (ascii "TEXLD"))

/-- R193, R194, R195, R196: DCL prints a sampler line for a destination of type s, then a usage line; a truncated DCL
prints nothing. -/
def Obligations.Declarations : Prop :=
  ∀ (major minor : BitVec 8) (hi : BitVec 16) (tu td : Word) (rest : List Word) (s : State),
    decode (.stream major minor) (opTok hi 31 :: tu :: td :: rest) =
      .ok (.dcl hi (some (.ofToken tu)) (some (.ofToken td)), rest) ∧
    decode (.stream major minor) [opTok hi 31, tu] = .ok (.dcl hi (some (.ofToken tu)) none, []) ∧
    decode (.stream major minor) [opTok hi 31] = .ok (.dcl hi none none, []) ∧
    (∀ u d, exec (.dcl hi (some u) (some d)) s =
      .next (s.printed [dstop d]
        ((if d.reg = .s then mkline (ascii "DCL_" ++ textypeName u.tex ++ ascii " " ++ dstop d) (opTok hi 31) else []) ++
          mkline (ascii "DCL_" ++ usageName u.usage ++ dec u.index.toNat ++ ascii " " ++ dstop d) (opTok hi 31)) 3)) ∧
    (∀ u, exec (.dcl hi (some u) none) s = .next (s.cutOff [] [])) ∧
    exec (.dcl hi none none) s = .next (s.cutOff [] [])

/-- R201: DEF prints its destination's register name and four literals; truncated, what of them exists. -/
def Obligations.Definitions : Prop :=
  ∀ (major minor : BitVec 8) (hi : BitVec 16) (td f0 f1 f2 f3 : Word) (rest : List Word) (s : State),
    decode (.stream major minor) (opTok hi 81 :: td :: f0 :: f1 :: f2 :: f3 :: rest) =
      .ok (.def_ hi (some (.ofToken td)) (some f0) (some f1) (some f2) (some f3), rest) ∧
    decode (.stream major minor) [opTok hi 81, td, f0, f1, f2] =
      .ok (.def_ hi (some (.ofToken td)) (some f0) (some f1) (some f2) none, []) ∧
    decode (.stream major minor) [opTok hi 81, td, f0, f1] =
      .ok (.def_ hi (some (.ofToken td)) (some f0) (some f1) none none, []) ∧
    decode (.stream major minor) [opTok hi 81, td, f0] =
      .ok (.def_ hi (some (.ofToken td)) (some f0) none none none, []) ∧
    decode (.stream major minor) [opTok hi 81, td] = .ok (.def_ hi (some (.ofToken td)) none none none none, []) ∧
    decode (.stream major minor) [opTok hi 81] = .ok (.def_ hi none none none none none, []) ∧
    exec (.def_ hi none none none none none) s = .next (s.cutOff [] (ascii "DEF")) ∧
    ∀ d : DstOp, ∃ body : Bytes, body = ascii "DEF" ++ ascii " " ++ regname d.reg d.num ∧
      exec (.def_ hi (some d) (some f0) (some f1) (some f2) (some f3)) s =
        .next (s.printed [regname d.reg d.num, floatText f0, floatText f1, floatText f2, floatText f3]
          (mkline (body ++ ascii ", " ++ floatText f0 ++ ascii ", " ++ floatText f1 ++ ascii ", " ++ floatText f2 ++
            ascii ", " ++ floatText f3) (opTok hi 81)) 6) ∧
      exec (.def_ hi (some d) (some f0) (some f1) (some f2) none) s =
        .next (s.cutOff [regname d.reg d.num, floatText f0, floatText f1, floatText f2]
          (body ++ ascii ", " ++ floatText f0 ++ ascii ", " ++ floatText f1 ++ ascii ", " ++ floatText f2)) ∧
      exec (.def_ hi (some d) (some f0) (some f1) none none) s =
        .next (s.cutOff [regname d.reg d.num, floatText f0, floatText f1]
          (body ++ ascii ", " ++ floatText f0 ++ ascii ", " ++ floatText f1)) ∧
      exec (.def_ hi (some d) (some f0) none none none) s =
        .next (s.cutOff [regname d.reg d.num, floatText f0] (body ++ ascii ", " ++ floatText f0)) ∧
      exec (.def_ hi (some d) none none none none) s = .next (s.cutOff [regname d.reg d.num] body)

/-- R205: END prints its line and ends the decode loop with OK at the cursor after it. -/
def Obligations.EndInstruction : Prop :=
  ∀ (major minor : BitVec 8) (hi : BitVec 16) (rest : List Word) (s : State),
    decode (.stream major minor) (opTok hi 65535 :: rest) = .ok (.end_ hi, rest) ∧
    ∃ t, exec (.end_ hi) s =
        .next { t with sbdInt := { t.sbdInt with ended := some (.ok, s.sbdInt.cur + 1) } } ∧
      t = s.printed [] (mkline (ascii "END") (opTok hi 65535)) 1

/-- R206, R207, R208 (R132): a ps or vs header prints its line, sets the version and moves the cursor to 1; any other
header token prints nothing and ends the command with UNSUPPORTED_FORMAT and cursor 0. -/
def Obligations.Headers : Prop :=
  ∀ (tok : Word) (rest : List Word) (s : State), ∃ i, decode .header (tok :: rest) = .ok (i, rest) ∧
    (∀ prog, (field tok 16 16 = 0xFFFF ∧ prog = "ps" ∨ field tok 16 16 = 0xFFFE ∧ prog = "vs") →
      ∃ line, line = ascii prog ++ ascii "_" ++ dec (field tok 8 8) ++ ascii "_" ++ dec (field tok 0 8) ++ [0x0A] ∧
        exec i s = .next { s with sbdInt := { s.sbdInt with
          major := BitVec.ofNat 8 (field tok 8 8), minor := BitVec.ofNat 8 (field tok 0 8), operands := [], line := line
          text := s.sbdInt.text ++ line, cur := 1 } }) ∧
    (field tok 16 16 ≠ 0xFFFF → field tok 16 16 ≠ 0xFFFE →
      exec i s = .next { s with sbdInt := { s.sbdInt with ended := some (.unsupportedFormat, 0) } })

/-- "No register, flag or status changes until the command completes": an SBD instruction changes the SBD's internal
state alone: no register of either window, no latch, no byte of memory; the text only grows, and the token count
stays. -/
def Obligations.ShaderFrame : Prop :=
  ∀ (i : Instr) (s t : State), Place.format.admits i = false → exec i s = .next t →
    t.bcd = s.bcd ∧ t.bcdLatch = s.bcdLatch ∧ t.bcdInt = s.bcdInt ∧ t.sbd = s.sbd ∧ t.sbdLatch = s.sbdLatch ∧
    t.bcdDuty = s.bcdDuty ∧ t.sbdDuty = s.sbdDuty ∧ t.agenda = s.agenda ∧ t.lastRead = s.lastRead ∧
    t.freeIdx = s.freeIdx ∧ (∀ a, t.mem.read a = s.mem.read a) ∧ t.sbdInt.n = s.sbdInt.n ∧
    (Place.header.admits i = false → t.sbdInt.major = s.sbdInt.major ∧ t.sbdInt.minor = s.sbdInt.minor) ∧
    ∃ added, t.sbdInt.text = s.sbdInt.text ++ added

/-! ### The SBD command -/

/-- R46, R44: the tokens the SBD fetches at its cursor are little-endian words of SYS, none at or past index n. -/
def Obligations.FetchedTokens : Prop :=
  ∀ (s : State) (k : Nat),
    (s.sbdInt.n ≤ s.sbdInt.cur + k → (fetchTokens s)[k]? = none) ∧
    (k < 6 → s.sbdInt.cur + k < s.sbdInt.n → ∃ tok, (fetchTokens s)[k]? = some tok ∧
      ∃ a, a = s.sbdLatch.srcAddr.toNat + 4 * (s.sbdInt.cur + k) ∧
        tok.toNat = (s.mem.read a).toNat + 2 ^ 8 * (s.mem.read (a + 1)).toNat + 2 ^ 16 * (s.mem.read (a + 2)).toNat +
          2 ^ 24 * (s.mem.read (a + 3)).toNat)

/-- R147: each turn of the loop advances the cursor by the tokens its opcode takes; where they run past n the cursor
goes to n and decoding ends (R143). No other cursor move exists (R148). -/
def Obligations.CursorAdvance : Prop :=
  ∀ (s : State) (op : Nat), s.sbd.busy = true → (sbdInput s.sbdLatch).wraps = false →
    s.sbdInt.ended = none → 0 < s.sbdInt.cur → s.sbdInt.cur < s.sbdInt.n →
    op = field (tokenAt s s.sbdInt.cur) 0 16 →
    ∃ t, runSbd s = .next t ∧
      (s.sbdInt.cur + opcodeLength (s.sbdInt.major, s.sbdInt.minor) op ≤ s.sbdInt.n →
        t.sbdInt.cur = s.sbdInt.cur + opcodeLength (s.sbdInt.major, s.sbdInt.minor) op ∧
        t.sbdInt.ended = if op = 65535 then some (.ok, t.sbdInt.cur) else none) ∧
      (s.sbdInt.n < s.sbdInt.cur + opcodeLength (s.sbdInt.major, s.sbdInt.minor) op →
        t.sbdInt.cur = s.sbdInt.n ∧ t.sbdInt.ended = some (.insufficientData, s.sbdInt.n))

/-- R150: completion of the SBD. The first min(len, DST_CAP) text bytes go to DST_ADDR on and no other byte changes;
OUT_LEN is the whole length, OVF says whether it was cut; the status and the cursor are the loop's. The duties that
`rangesLegal` asks for are the model's reading of R58 to R60 (log 9, log 10, log 11). That the latch and the internal
state keep their values after it is the model's choice (log 24). -/
def Obligations.ShaderCompletion : Prop :=
  ∀ (s : State) (st : Status) (c m : Nat), s.sbd.busy = true → s.mem.wf = true →
    loopExit s.sbdInt = some (st, c) → m = min s.sbdInt.text.length s.sbdLatch.dstCap.toNat →
    rangesLegal ⟨sbdInput s.sbdLatch, sbdOutput s.sbdLatch⟩ ⟨s.sbdLatch.dstAddr.toNat, m⟩ (sbdRivals s)
      (unseenInputs s) →
    ∃ t, runSbd s = .next t ∧
      t.sbd = { s.sbd with
        outLen := BitVec.ofNat 32 s.sbdInt.text.length, cursor := BitVec.ofNat 32 c
        ovf := decide (s.sbdLatch.dstCap.toNat < s.sbdInt.text.length), err := st, busy := false, done := true } ∧
      (∀ j, j < m → (s.sbdInt.text[j]?) = some (t.mem.read (s.sbdLatch.dstAddr.toNat + j))) ∧
      (∀ a, a < s.sbdLatch.dstAddr.toNat ∨ s.sbdLatch.dstAddr.toNat + m ≤ a → t.mem.read a = s.mem.read a) ∧
      t.bcd = s.bcd ∧ t.bcdLatch = s.bcdLatch ∧ t.bcdInt = s.bcdInt ∧ t.sbdLatch = s.sbdLatch ∧
      t.sbdInt = s.sbdInt ∧ t.agenda = s.agenda

/-- R129, R229: a started SBD command left to itself runs, in at most n + 1 steps, to the completion that SBDecode of
its tokens names: status, text, cursor, OUT_LEN and OVF, the text bytes in memory, and nothing else in memory. That it
takes a step for the header and for each instruction and one more (log 4), that a running engine goes on when nothing
is to come (log 5), what START leaves inside the SBD (log 2) and the duties of `rangesLegal` (log 9, log 10, log 11)
are the model's choices. -/
def Obligations.ShaderCommand : Prop :=
  ∀ (s : State) (st : Status) (text : Bytes) (c m : Nat), SbdStarted s →
    sbDecode (inputTokens s) = (st, text, c) → m = min text.length s.sbdLatch.dstCap.toNat →
    rangesLegal ⟨sbdInput s.sbdLatch, sbdOutput s.sbdLatch⟩ ⟨s.sbdLatch.dstAddr.toNat, m⟩ (sbdRivals s)
      (unseenInputs s) →
    ∃ t, Sys2Proof.core.run (tokenCount s.sbdLatch.srcLen + 1) s = .next t ∧
      t.sbd = { s.sbd with
        outLen := BitVec.ofNat 32 text.length, cursor := BitVec.ofNat 32 c
        ovf := decide (s.sbdLatch.dstCap.toNat < text.length), err := st, busy := false, done := true } ∧
      (∀ j, j < m → text[j]? = some (t.mem.read (s.sbdLatch.dstAddr.toNat + j))) ∧
      (∀ a, a < s.sbdLatch.dstAddr.toNat ∨ s.sbdLatch.dstAddr.toNat + m ≤ a → t.mem.read a = s.mem.read a) ∧
      t.bcd = s.bcd

/-- R144: tokens after the one that ended decoding with OK before the end of the stream are not read. Of two started
commands left to themselves (log 4, log 5) that agree on the tokens before the cursor the first one reports, the second,
if its ranges are legal, completes with the same status, cursor, text and length, whatever follows those tokens, wherever
its input and output lie. The text is read off the SBD's internal state after the completion, where keeping it is the
model's choice (log 24), as what START leaves there (log 2) and the duties of `rangesLegal` (log 9, log 10, log 11)
are. -/
def Obligations.TokensAfterEnd : Prop :=
  ∀ (s s' t : State) (c m : Nat), SbdStarted s → SbdStarted s' →
    Sys2Proof.core.run (tokenCount s.sbdLatch.srcLen + 1) s = .next t → t.sbd.err = .ok → c = t.sbd.cursor.toNat →
    c < tokenCount s.sbdLatch.srcLen → c ≤ tokenCount s'.sbdLatch.srcLen →
    (∀ k, k < c → tokenAt s' k = tokenAt s k) → m = min t.sbdInt.text.length s'.sbdLatch.dstCap.toNat →
    rangesLegal ⟨sbdInput s'.sbdLatch, sbdOutput s'.sbdLatch⟩ ⟨s'.sbdLatch.dstAddr.toNat, m⟩ (sbdRivals s')
      (unseenInputs s') →
    ∃ t', Sys2Proof.core.run (tokenCount s'.sbdLatch.srcLen + 1) s' = .next t' ∧ t'.sbd.done = true ∧
      t'.sbd.err = .ok ∧ t'.sbd.cursor = t.sbd.cursor ∧ t'.sbdInt.text = t.sbdInt.text ∧ t'.sbd.outLen = t.sbd.outLen ∧
      ∀ j, j < m → t.sbdInt.text[j]? = some (t'.mem.read (s'.sbdLatch.dstAddr.toNat + j))

/-! ### The BCD command -/

/-- R101: FMT 5, 6 and 7 complete with UNSUPPORTED_FORMAT, OUT_LEN 0 and no byte written, whatever else the latch
holds. That the latch keeps its values after the completion is the model's choice (log 24). -/
def Obligations.UnsupportedFormats : Prop :=
  ∀ row ∈ [(5, Instr.unsupportedFormat5), (6, Instr.unsupportedFormat6), (7, Instr.unsupportedFormat7)], ∀ s : State,
    decode .format [row.1] = .ok (row.2, []) ∧ ∃ t, exec row.2 s = .next t ∧
    t.bcd = { s.bcd with outLen := 0, err := .unsupportedFormat, busy := false, done := true } ∧
    (∀ a, t.mem.read a = s.mem.read a) ∧ t.bcdLatch = s.bcdLatch ∧ t.sbd = s.sbd ∧ t.sbdLatch = s.sbdLatch ∧
    t.sbdInt = s.sbdInt ∧ t.agenda = s.agenda

/-- R102, R103: a zero dimension or an input shorter than `need` completes a DECODE with INSUFFICIENT_DATA, OUT_LEN 0
and no byte written. That it does so even where its W*H*channels output range (R37) overlaps its own input or a range of
the other engine's command, where R59 with R229 can be read as refusing it, is the model's reading (log 10). That the latch keeps its values after the
completion is the model's choice (log 24). -/
def Obligations.SizeErrors : Prop :=
  ∀ row ∈ decodeRows, ∀ s : State,
    (s.bcdLatch.width = 0 ∨ s.bcdLatch.height = 0 ∨
      s.bcdLatch.srcLen.toNat < (s.bcdLatch.width.toNat + 3) / 4 * ((s.bcdLatch.height.toNat + 3) / 4) * row.2.2.1) →
    ∃ t, exec row.1 s = .next t ∧
      t.bcd = { s.bcd with outLen := 0, err := .insufficientData, busy := false, done := true } ∧
      (∀ a, t.mem.read a = s.mem.read a) ∧ t.bcdLatch = s.bcdLatch ∧ t.sbd = s.sbd ∧ t.sbdLatch = s.sbdLatch ∧
      t.sbdInt = s.sbdInt ∧ t.agenda = s.agenda

/-- R100, R105, R106: a DECODE that passes its checks and keeps the host's duties completes with OK and OUT_LEN
W*H*channels; output byte c of texel (x, y) is that of texel 4*(y mod 4) + (x mod 4) of block (x div 4) + (y div 4)*BX;
no byte outside the W*H*channels output bytes changes. The duties that `rangesLegal` asks for are the model's reading of
R58 to R60 (log 9, log 11). That the latch keeps its values after the completion is the model's choice (log 24). -/
def Obligations.BlockCommand : Prop :=
  ∀ row ∈ decodeRows, ∀ (s : State) (w h need ch len : Nat),
    w = s.bcdLatch.width.toNat → h = s.bcdLatch.height.toNat → ch = row.2.2.2 →
    need = (w + 3) / 4 * ((h + 3) / 4) * row.2.2.1 → len = w * h * ch →
    0 < w → 0 < h → need ≤ s.bcdLatch.srcLen.toNat → s.mem.wf = true →
    rangesLegal ⟨⟨s.bcdLatch.srcAddr.toNat, need⟩, ⟨s.bcdLatch.dstAddr.toNat, len⟩⟩ ⟨s.bcdLatch.dstAddr.toNat, len⟩
      (bcdRivals s) (unseenInputs s) →
    ∃ t, exec row.1 s = .next t ∧
      t.bcd = { s.bcd with outLen := BitVec.ofNat 32 len, err := .ok, busy := false, done := true } ∧
      (∀ x y c, x < w → y < h → c < ch → t.mem.read (s.bcdLatch.dstAddr.toNat + (y * w + x) * ch + c) =
        pixelByte row.2.1 row.2.2.1 ⟨(w + 3) / 4, (h + 3) / 4, need, len⟩ s.bcdLatch s.mem x y c) ∧
      (∀ a, a < s.bcdLatch.dstAddr.toNat ∨ s.bcdLatch.dstAddr.toNat + len ≤ a → t.mem.read a = s.mem.read a) ∧
      t.bcdLatch = s.bcdLatch ∧ t.sbd = s.sbd ∧ t.sbdLatch = s.sbdLatch ∧ t.sbdInt = s.sbdInt ∧ t.agenda = s.agenda

/-- R121: two DECODE commands of equal dimensions, mode and first `need` input bytes, in machines that differ in
everything else, report the same status and length and write the same output bytes, wherever input and output lie and
whatever ran before. -/
def Obligations.BlockDeterminism : Prop :=
  ∀ row ∈ decodeRows, ∀ (s s' t t' : State) (need : Nat),
    s'.bcdLatch.width = s.bcdLatch.width → s'.bcdLatch.height = s.bcdLatch.height →
    s'.bcdLatch.bc5Fix = s.bcdLatch.bc5Fix →
    need = (s.bcdLatch.width.toNat + 3) / 4 * ((s.bcdLatch.height.toNat + 3) / 4) * row.2.2.1 →
    (need ≤ s.bcdLatch.srcLen.toNat ↔ need ≤ s'.bcdLatch.srcLen.toNat) → s.mem.wf = true → s'.mem.wf = true →
    (∀ j, j < need → s.mem.read (s.bcdLatch.srcAddr.toNat + j) = s'.mem.read (s'.bcdLatch.srcAddr.toNat + j)) →
    exec row.1 s = .next t → exec row.1 s' = .next t' →
    t.bcd.err = t'.bcd.err ∧ t.bcd.outLen = t'.bcd.outLen ∧
      (t.bcd.err = .ok → ∀ j, j < t.bcd.outLen.toNat →
        t.mem.read (s.bcdLatch.dstAddr.toNat + j) = t'.mem.read (s'.bcdLatch.dstAddr.toNat + j))

/-! ### Block decoders -/

/-- R122 (R109, R111, R113): a BC1 texel. The three-colour branch, with its transparent index 3, is taken when
color0 ≤ color1 as unsigned 16-bit numbers. -/
def Obligations.Bc1Texels : Prop :=
  ∀ (fix : Bool) (blk : Bytes) (i : Nat), i < 16 →
    ∃ two : Bool, (two = true ↔ wordAt blk 2 < wordAt blk 0) ∧
      (decodeBlock1 fix blk).texels[i]? =
        some (colorBytes two blk 0 i ++ [if two = false ∧ colorIndex blk 0 i = 3 then 0 else 255])

/-- R123 (R112, R118): a BC2 texel. The colour never takes the three-colour branch; the alpha is the texel's nibble
replicated. -/
def Obligations.Bc2Texels : Prop :=
  ∀ (fix : Bool) (blk : Bytes) (i : Nat), i < 16 →
    (decodeBlock2 fix blk).texels[i]? =
      some (colorBytes true blk 8 i ++ [octet (17 * ((byteAt blk (i / 2)).toNat / 16 ^ (i % 2) % 16))])

/-- R124 (R115, R116): a BC3 texel. The alpha comes from the ramp of bytes 0 and 1. -/
def Obligations.Bc3Texels : Prop :=
  ∀ (fix : Bool) (blk : Bytes) (i : Nat), i < 16 →
    (decodeBlock3 fix blk).texels[i]? = some (colorBytes true blk 8 i ++ [rampByte blk 0 0 i])

/-- R125: a BC4 texel. -/
def Obligations.Bc4Texels : Prop :=
  ∀ (fix : Bool) (blk : Bytes) (i : Nat), i < 16 →
    (decodeBlock4 fix blk).texels[i]? = some [rampByte blk 0 0 i]

/-- R126, R127, R128: a BC5 texel. In the compatible mode the green ramp is the red one's; in the corrected mode it is
built from bytes 8 and 9. The mode bit changes no other format. -/
def Obligations.Bc5Texels : Prop :=
  ∀ (blk : Bytes) (i : Nat), i < 16 →
    (decodeBlock5 false blk).texels[i]? = some [rampByte blk 0 0 i, rampByte blk 0 8 i] ∧
    (decodeBlock5 true blk).texels[i]? = some [rampByte blk 0 0 i, rampByte blk 8 8 i] ∧
    decodeBlock1 true blk = decodeBlock1 false blk ∧ decodeBlock2 true blk = decodeBlock2 false blk ∧
    decodeBlock3 true blk = decodeBlock3 false blk ∧ decodeBlock4 true blk = decodeBlock4 false blk

/-- R109: the endpoint expansions are the nearest 8-bit values of v*255/31 and v*255/63; no tie occurs. -/
def Obligations.ExpansionRounds : Prop :=
  (∀ v, v < 32 → 2 * 31 * rgb5to8 v < 2 * 255 * v + 31 ∧ 2 * 255 * v < 2 * 31 * rgb5to8 v + 31) ∧
  (∀ v, v < 64 → 2 * 63 * rgb6to8 v < 2 * 255 * v + 63 ∧ 2 * 255 * v < 2 * 63 * rgb6to8 v + 63)

/-- R117: the order of a ramp's values. (The rule counts eight inequalities; its own chain has seven, all stated
here.) -/
def Obligations.RampOrder : Prop :=
  ∀ a0 a1 : Nat, a0 ≤ 255 → a1 ≤ 255 → ∃ v2 v3 v4 v5 v6 v7, buildRamp a0 a1 = [a0, a1, v2, v3, v4, v5, v6, v7] ∧
    (a0 ≤ a1 → v6 = 0 ∧ v7 = 255 ∧ a0 ≤ v2 ∧ v2 ≤ v3 ∧ v3 ≤ v4 ∧ v4 ≤ v5 ∧ v5 ≤ a1) ∧
    (a1 < a0 → v2 ≤ a0 ∧ v3 ≤ v2 ∧ v4 ≤ v3 ∧ v5 ≤ v4 ∧ v6 ≤ v5 ∧ v7 ≤ v6 ∧ a1 ≤ v7 ∧
      (7 ≤ a0 - a1 ↔ v2 < a0 ∧ v3 < v2 ∧ v4 < v3 ∧ v5 < v4 ∧ v6 < v5 ∧ v7 < v6 ∧ a1 < v7))

/-! ### The register windows -/

/-- R227: START of an idle engine applies the other fields, latches the configuration, clears DONE, ERR and OVF, sets
BUSY; OUT_LEN and CURSOR, the other engine and memory stay. Inside the SBD the token count is SRC_LEN div 4 (R130), the
cursor 0, the text empty and the loop not ended (R33, R129); that START puts the rest of the internal state of either
engine at its value after reset is the model's choice, log 2. -/
def Obligations.StartCommand : Prop :=
  ∀ (s : State) (v : Word), v.getLsbD 0 = true →
    (s.bcd.busy = false → ∃ t, hostAct (.regWrite (.window .bcd 0) 4 v) s = .next t ∧
      t.bcd = { s.bcd with
        ie := v.getLsbD 1, bc5Fix := v.getLsbD 2, done := false, err := .ok, busy := true } ∧
      t.bcdLatch =
        ⟨s.bcd.fmt, s.bcd.width, s.bcd.height, s.bcd.srcAddr, s.bcd.srcLen, s.bcd.dstAddr, v.getLsbD 2⟩ ∧
      t.bcdInt = .reset ∧
      t.sbd = s.sbd ∧ t.sbdLatch = s.sbdLatch ∧ t.sbdInt = s.sbdInt ∧ (∀ a, t.mem.read a = s.mem.read a) ∧
      t.agenda = s.agenda) ∧
    (s.sbd.busy = false → ∃ t, hostAct (.regWrite (.window .sbd 0) 4 v) s = .next t ∧
      t.sbd = { s.sbd with ie := v.getLsbD 1, done := false, err := .ok, ovf := false, busy := true } ∧
      t.sbdLatch = ⟨s.sbd.srcAddr, s.sbd.srcLen, s.sbd.dstAddr, s.sbd.dstCap⟩ ∧
      t.sbdInt.n = s.sbd.srcLen.toNat / 4 ∧ t.sbdInt.cur = 0 ∧ t.sbdInt.text = [] ∧ t.sbdInt.ended = none ∧
      t.sbdInt = { SbdInternal.reset with n := s.sbd.srcLen.toNat / 4 } ∧
      t.bcd = s.bcd ∧ t.bcdLatch = s.bcdLatch ∧ t.bcdInt = s.bcdInt ∧ (∀ a, t.mem.read a = s.mem.read a) ∧
      t.agenda = s.agenda)

/-- R228: a CTRL write while BUSY, or one with START 0, applies IE and BC5_FIX and does nothing else. -/
def Obligations.StartIgnored : Prop :=
  ∀ (s : State) (v : Word),
    (s.bcd.busy = true ∨ v.getLsbD 0 = false → hostAct (.regWrite (.window .bcd 0) 4 v) s =
      .next { s with bcd := { s.bcd with ie := v.getLsbD 1, bc5Fix := v.getLsbD 2 } }) ∧
    (s.sbd.busy = true ∨ v.getLsbD 0 = false → hostAct (.regWrite (.window .sbd 0) 4 v) s =
      .next { s with sbd := { s.sbd with ie := v.getLsbD 1 } })

/-- R230: a write of 1 to STATUS.DONE clears it, a write of 0 leaves it, and the write has no other effect. -/
def Obligations.ClearDone : Prop :=
  ∀ (s : State) (v : Word),
    hostAct (.regWrite (.window .bcd 4) 4 v) s =
      .next { s with bcd := { s.bcd with done := if v.getLsbD 1 then false else s.bcd.done } } ∧
    hostAct (.regWrite (.window .sbd 4) 4 v) s =
      .next { s with sbd := { s.sbd with done := if v.getLsbD 1 then false else s.sbd.done } }

/-- R16: a read-write register reads back the last value written (FORMAT its three low bits, R19), busy or not, and the
write changes no other register, no latch and no byte of memory. -/
def Obligations.ReadWriteRegisters : Prop :=
  ∀ (win : Window) (offset : BitVec 8),
    (win = .bcd ∧ offset.toNat ∈ [0x08, 0x0C, 0x10, 0x14, 0x18, 0x1C] ∨
      win = .sbd ∧ offset.toNat ∈ [0x08, 0x0C, 0x10, 0x14]) →
    ∀ (s : State) (v : Word), ∃ t, hostAct (.regWrite (.window win offset) 4 v) s = .next t ∧
      readReg win offset t = (if win = .bcd ∧ offset = 0x08 then v &&& 7 else v) ∧
      (∀ w o, (w, o) ≠ (win, offset) → readReg w o t = readReg w o s) ∧
      t.bcdLatch = s.bcdLatch ∧ t.sbdLatch = s.sbdLatch ∧ (∀ a, t.mem.read a = s.mem.read a) ∧ t.agenda = s.agenda

/-- R57, R16: an offset not listed reads 0; a write to one, or to OUT_LEN or CURSOR, changes nothing. -/
def Obligations.ReservedAndReadOnly : Prop :=
  ∀ (s : State) (offset : BitVec 8) (v : Word), offset.toNat % 4 = 0 →
    (0x20 ≤ offset.toNat → hostAct (.regWrite (.window .bcd offset) 4 v) s = .next s) ∧
    (0x18 ≤ offset.toNat → hostAct (.regWrite (.window .sbd offset) 4 v) s = .next s) ∧
    (0x24 ≤ offset.toNat → readReg .bcd offset s = 0) ∧
    (0x20 ≤ offset.toNat → readReg .sbd offset s = 0)

/-- R56: a register access, in a window or on the bus, that is not 32-bit, or not at an offset that is a multiple of 4,
is refused. -/
def Obligations.RefusedAccesses : Prop :=
  ∀ (s : State) (target : RegTarget) (win : Window) (offset : BitVec 8) (bytes : Nat) (v : Word),
    target.resolve = some (win, offset) → bytes ≠ 4 ∨ offset.toNat % 4 ≠ 0 →
    hostAct (.regRead target bytes) s = .refused .badRegisterAccess ∧
    hostAct (.regWrite target bytes v) s = .refused .badRegisterAccess

/-- R214, R18, R27, R17, R26: the STATUS and CTRL words as the host reads them; the read has no side effect on the
hardware (R52). -/
def Obligations.StatusAndCtrlReads : Prop :=
  ∀ s : State, ∃ code : Status → Nat, code .ok = 0 ∧ code .unsupportedFormat = 1 ∧ code .insufficientData = 2 ∧
    (readReg .bcd 4 s).toNat = s.bcd.busy.toNat + 2 * s.bcd.done.toNat + 16 * code s.bcd.err ∧
    (readReg .sbd 4 s).toNat =
      s.sbd.busy.toNat + 2 * s.sbd.done.toNat + 16 * code s.sbd.err + 256 * s.sbd.ovf.toNat ∧
    (readReg .bcd 0 s).toNat = 2 * s.bcd.ie.toNat + 4 * s.bcd.bc5Fix.toNat ∧
    (readReg .sbd 0 s).toNat = 2 * s.sbd.ie.toNat ∧
    ∀ (win : Window) (offset : BitVec 8), offset.toNat % 4 = 0 →
      ∃ t, hostAct (.regRead (.window win offset) 4) s = .next t ∧ t.lastRead = readReg win offset s ∧
        t.bcd = s.bcd ∧ t.sbd = s.sbd ∧ t.bcdLatch = s.bcdLatch ∧ t.sbdLatch = s.sbdLatch ∧ t.bcdInt = s.bcdInt ∧
        t.sbdInt = s.sbdInt ∧ (∀ a, t.mem.read a = s.mem.read a) ∧ t.agenda = s.agenda

/-- R233: each interrupt line is DONE and IE of its own window, as the host reads them, and the host sees that level. -/
def Obligations.InterruptLines : Prop :=
  ∀ (win : Window) (s : State), ∃ t, hostAct (.observeIrq win) s = .next t ∧
    t.lastRead = (if (readReg win 4 s).getLsbD 1 = true ∧ (readReg win 0 s).getLsbD 1 = true then 1 else 0) ∧
    (∀ w o, readReg w o t = readReg w o s) ∧ (∀ a, t.mem.read a = s.mem.read a)

/-- R24, R231, R32: whatever register the host writes, a running command's latch, internal state, BUSY, OUT_LEN, ERR
and CURSOR stay: there is no abort. -/
def Obligations.WritesWhileBusy : Prop :=
  ∀ (s t : State) (target : RegTarget) (bytes : Nat) (v : Word),
    hostAct (.regWrite target bytes v) s = .next t →
    (s.bcd.busy = true → t.bcd.busy = true ∧ t.bcdLatch = s.bcdLatch ∧ t.bcdInt = s.bcdInt ∧
      t.bcd.err = s.bcd.err ∧ t.bcd.outLen = s.bcd.outLen) ∧
    (s.sbd.busy = true → t.sbd.busy = true ∧ t.sbdLatch = s.sbdLatch ∧ t.sbdInt = s.sbdInt ∧
      t.sbd.err = s.sbd.err ∧ t.sbd.outLen = s.sbd.outLen ∧ t.sbd.cursor = s.sbd.cursor ∧ t.sbd.ovf = s.sbd.ovf)

/-- R54: a bus address in either window's 256 bytes reaches that window's register at its offset, whatever the OPEN bases
are; the windows do not overlap. An access to any other bus address is refused (log 14, log 15). -/
def Obligations.BusWindows : Prop :=
  Config.bcdPage ≠ Config.sbdPage ∧
    (∀ offset : BitVec 8,
      RegTarget.resolve (.bus (256 * Config.bcdPage + offset.toNat)) = some (.bcd, offset) ∧
      RegTarget.resolve (.bus (256 * Config.sbdPage + offset.toNat)) = some (.sbd, offset)) ∧
    ∀ (s : State) (addr bytes : Nat) (v : Word),
      (addr < 256 * Config.bcdPage ∨ 256 * Config.bcdPage + 256 ≤ addr) →
      (addr < 256 * Config.sbdPage ∨ 256 * Config.sbdPage + 256 ≤ addr) →
      hostAct (.regRead (.bus addr) bytes) s = .refused .outsideWindows ∧
      hostAct (.regWrite (.bus addr) bytes v) s = .refused .outsideWindows

/-! ### Reset, engines, host duties -/

/-- R38: right after reset every register of both windows reads 0 and both interrupt lines are deasserted. -/
def Obligations.ResetValues : Prop :=
  ∀ (win : Window) (offset : BitVec 8), readReg win offset State.reset = 0 ∧ irq win State.reset = false

/-- R39, R241: `rst` sets every register of both windows to 0, both engines idle with no completion signalled and both
lines deasserted; no byte of memory changes outside the output range of a command that was running. Which bytes that
range is, and that a byte of it may change though an input range has it too, is the model's reading (log 10, log 12,
log 25). -/
def Obligations.ResetInput : Prop :=
  ∀ s : State, s.mem.wf = true → ∃ t, hostAct .rst s = .next t ∧
    (∀ win offset, readReg win offset t = 0) ∧ t.bcd.busy = false ∧ t.sbd.busy = false ∧
    t.bcd.done = false ∧ t.sbd.done = false ∧ (∀ win, irq win t = false) ∧
    (∀ a, (s.bcd.busy = true → (bcdOutput s.bcdLatch).contains a = false) →
      (s.sbd.busy = true → (sbdOutput s.sbdLatch).contains a = false) → t.mem.read a = s.mem.read a)

/-- R235: neither engine's step touches the other's registers, latch or internal state. -/
def Obligations.EnginesIndependent : Prop :=
  ∀ s t : State,
    (runBcd s = .next t → t.sbd = s.sbd ∧ t.sbdLatch = s.sbdLatch ∧ t.sbdInt = s.sbdInt) ∧
    (runSbd s = .next t → t.bcd = s.bcd ∧ t.bcdLatch = s.bcdLatch ∧ t.bcdInt = s.bcdInt)

/-- R58: a range that runs past 2^32 - 1 refuses the command: the BCD's input or output once the size checks pass, the
SBD's input at each of its steps, its written text at completion. That the SBD's input is checked before its first token
is read is the model's choice, log 19. -/
def Obligations.WrappingRangesRefused : Prop :=
  (∀ row ∈ decodeRows, ∀ (s : State) (w h need : Nat),
    w = s.bcdLatch.width.toNat → h = s.bcdLatch.height.toNat →
    need = (w + 3) / 4 * ((h + 3) / 4) * row.2.2.1 → 0 < w → 0 < h → need ≤ s.bcdLatch.srcLen.toNat →
    2 ^ 32 < s.bcdLatch.srcAddr.toNat + need ∨ 2 ^ 32 < s.bcdLatch.dstAddr.toNat + w * h * row.2.2.2 →
    ∃ r, exec row.1 s = .refused r) ∧
  (∀ s : State, s.sbd.busy = true →
    2 ^ 32 < s.sbdLatch.srcAddr.toNat + 4 * (s.sbdLatch.srcLen.toNat / 4) → ∃ r, runSbd s = .refused r) ∧
  (∀ (s : State) (st : Status) (c : Nat), s.sbd.busy = true → loopExit s.sbdInt = some (st, c) →
    2 ^ 32 < s.sbdLatch.dstAddr.toNat + min s.sbdInt.text.length s.sbdLatch.dstCap.toNat →
    ∃ r, runSbd s = .refused r)

/-- R59: an output range that shares a byte with the command's own input range, or with a range of the other engine's
command running at the same time, refuses the command. R60: so does an output that would write a byte of the input
range of a completed command whose DONE the host has not observed (log 9). R37: so does an input range that shares a
byte with the output range of the other engine's command, whose bytes are unspecified (log 11). That commands which ran
and completed in the meantime count (log 11), and which bytes are a command's ranges (log 10), is the model's reading. -/
def Obligations.OverlapsRefused : Prop :=
  (∀ row ∈ decodeRows, ∀ (s : State) (w h need a : Nat),
    w = s.bcdLatch.width.toNat → h = s.bcdLatch.height.toNat →
    need = (w + 3) / 4 * ((h + 3) / 4) * row.2.2.1 → 0 < w → 0 < h → need ≤ s.bcdLatch.srcLen.toNat →
    ((s.bcdLatch.dstAddr.toNat ≤ a ∧ a < s.bcdLatch.dstAddr.toNat + w * h * row.2.2.2) ∧
        (s.bcdLatch.srcAddr.toNat ≤ a ∧ a < s.bcdLatch.srcAddr.toNat + need ∨
          (∃ g ∈ bcdRivals s, g.input.contains a = true ∨ g.output.contains a = true) ∨
          ∃ r ∈ unseenInputs s, r.contains a = true) ∨
      (s.bcdLatch.srcAddr.toNat ≤ a ∧ a < s.bcdLatch.srcAddr.toNat + need) ∧
        ∃ g ∈ bcdRivals s, g.output.contains a = true) →
    ∃ r, exec row.1 s = .refused r) ∧
  (∀ (s : State) (st : Status) (c a : Nat), s.sbd.busy = true → loopExit s.sbdInt = some (st, c) →
    ((sbdOutput s.sbdLatch).contains a = true ∧
        ((sbdInput s.sbdLatch).contains a = true ∨
          ∃ g ∈ sbdRivals s, g.input.contains a = true ∨ g.output.contains a = true) ∨
      (sbdInput s.sbdLatch).contains a = true ∧ (∃ g ∈ sbdRivals s, g.output.contains a = true) ∨
      (s.sbdLatch.dstAddr.toNat ≤ a ∧
          a < s.sbdLatch.dstAddr.toNat + min s.sbdInt.text.length s.sbdLatch.dstCap.toNat) ∧
        ∃ r ∈ unseenInputs s, r.contains a = true) →
    ∃ r, runSbd s = .refused r)

/-- R60, R61, R62, R63: from START until the host has seen DONE = 1, by a STATUS read or the interrupt line, a host
write to the command's input or output range is refused, be the command running, completed, or followed by another
START; a byte in no such range is written, and a byte in no such output range reads as memory holds it. A completion
records its ranges and their bytes before and after, a START keeps what is recorded, an observation ends it. The record
is the model's (log 9); which bytes are a command's ranges is the model's reading (log 10): a BCD command that fails its
checks has no input range, FMT 5, 6 and 7 have no output range. -/
def Obligations.HostDuties : Prop :=
  (∀ (s : State) (a : Word) (v : Byte),
    (s.bcd.busy = true ∧
        ((bcdInput s.bcdLatch).contains a.toNat = true ∨ (bcdOutput s.bcdLatch).contains a.toNat = true) ∨
      s.sbd.busy = true ∧
        ((sbdInput s.sbdLatch).contains a.toNat = true ∨ (sbdOutput s.sbdLatch).contains a.toNat = true) ∨
      ∃ u ∈ unseenCommands s, u.ranges.input.contains a.toNat = true ∨ u.ranges.output.contains a.toNat = true) →
    hostAct (.memWrite a v) s = .refused .inputWritten ∨ hostAct (.memWrite a v) s = .refused .outputWritten) ∧
  (∀ (s : State) (a : Word) (v : Byte), s.mem.wf = true →
    (s.bcd.busy = true → (bcdOutput s.bcdLatch).contains a.toNat = false) →
    (s.sbd.busy = true → (sbdOutput s.sbdLatch).contains a.toNat = false) →
    (∀ u ∈ unseenCommands s, u.ranges.output.contains a.toNat = false) →
    (∃ t, hostAct (.memRead a) s = .next t ∧ t.lastRead = (s.mem.read a.toNat).zeroExtend 32) ∧
    ((s.bcd.busy = true → (bcdInput s.bcdLatch).contains a.toNat = false) →
      (s.sbd.busy = true → (sbdInput s.sbdLatch).contains a.toNat = false) →
      (∀ u ∈ unseenCommands s, u.ranges.input.contains a.toNat = false) →
      ∃ t, hostAct (.memWrite a v) s = .next t ∧ ∀ b, t.mem.read b = if b = a.toNat then v else s.mem.read b)) ∧
  (∀ (s t : State) (st : Status) (c : Nat),
    (s.bcd.busy = true → runBcd s = .next t →
      t.sbdDuty.unseen = s.sbdDuty.unseen ∧ ∃ u, t.bcdDuty.unseen = u :: s.bcdDuty.unseen ∧
        u.ranges = ⟨bcdInput s.bcdLatch, bcdOutput s.bcdLatch⟩ ∧
        ∀ a, (bcdOutput s.bcdLatch).contains a = true →
          u.before.read a = s.mem.read a ∧ u.after.read a = t.mem.read a) ∧
    (s.sbd.busy = true → loopExit s.sbdInt = some (st, c) → runSbd s = .next t →
      t.bcdDuty.unseen = s.bcdDuty.unseen ∧ ∃ u, t.sbdDuty.unseen = u :: s.sbdDuty.unseen ∧
        u.ranges = ⟨sbdInput s.sbdLatch, sbdOutput s.sbdLatch⟩ ∧
        ∀ a, (sbdOutput s.sbdLatch).contains a = true →
          u.before.read a = s.mem.read a ∧ u.after.read a = t.mem.read a)) ∧
  (∀ s : State,
    (s.bcd.done = true → ∃ t, hostAct (.regRead (.window .bcd 4) 4) s = .next t ∧ t.bcdDuty.unseen = [] ∧
      t.sbdDuty = s.sbdDuty) ∧
    (s.sbd.done = true → ∃ t, hostAct (.regRead (.window .sbd 4) 4) s = .next t ∧ t.sbdDuty.unseen = [] ∧
      t.bcdDuty = s.bcdDuty) ∧
    (irqBcd s = true → ∃ t, hostAct (.observeIrq .bcd) s = .next t ∧ t.bcdDuty.unseen = [] ∧ t.sbdDuty = s.sbdDuty) ∧
    (irqSbd s = true → ∃ t, hostAct (.observeIrq .sbd) s = .next t ∧ t.sbdDuty.unseen = [] ∧ t.bcdDuty = s.bcdDuty)) ∧
  (∀ (s : State) (v : Word), v.getLsbD 0 = true →
    (s.bcd.busy = false → ∃ t, hostAct (.regWrite (.window .bcd 0) 4 v) s = .next t ∧ t.bcd.busy = true ∧
      t.bcdDuty.unseen = s.bcdDuty.unseen ∧ t.sbdDuty.unseen = s.sbdDuty.unseen) ∧
    (s.sbd.busy = false → ∃ t, hostAct (.regWrite (.window .sbd 0) 4 v) s = .next t ∧ t.sbd.busy = true ∧
      t.bcdDuty.unseen = s.bcdDuty.unseen ∧ t.sbdDuty.unseen = s.sbdDuty.unseen))

/-- R37, R61: what a host read of a byte returns while windows are open: a free pick (log 8) among what memory holds and,
for each command whose window is open and whose output range has the byte, its previous and its final value: of the
running BCD and SBD, of each completed command whose DONE the host has not observed, also after a further START
(log 9). Which bytes are a command's output range is the model's reading (log 10). `sb` and `ss` are the states in which the running commands complete. The read changes no byte and no
register. -/
def Obligations.BusyOutputReads : Prop :=
  ∀ (s sb ss : State) (a : Word),
    (s.bcd.busy = true → runBcd s = .next sb) →
    (s.sbd.busy = true → sbdToEnd (s.sbdInt.n + 2) s = some ss) →
    ∃ (t : State) (values : Bytes), hostAct (.memRead a) s = .next t ∧
      (∀ b, b ∈ values ↔ b = s.mem.read a.toNat ∨
        s.bcd.busy = true ∧ (bcdOutput s.bcdLatch).contains a.toNat = true ∧ b = sb.mem.read a.toNat ∨
        s.sbd.busy = true ∧ (sbdOutput s.sbdLatch).contains a.toNat = true ∧ b = ss.mem.read a.toNat ∨
        ∃ u ∈ unseenCommands s, u.ranges.output.contains a.toNat = true ∧
          (b = u.before.read a.toNat ∨ b = u.after.read a.toNat)) ∧
      (∃ b, values[Config.freePick s.freeIdx % values.length]? = some b ∧ t.lastRead = b.zeroExtend 32) ∧
      (∀ b, t.mem.read b = s.mem.read b) ∧ t.bcd = s.bcd ∧ t.sbd = s.sbd

/-! ### The step -/

/-- A step runs the decoded instruction. The SBD's turn with its loop not ended runs the instruction its tokens at the
cursor decode to, and with its loop ended its completion; the BCD's turn runs the command of its latched FMT; the host's
turn is its action. The step takes the entry off the agenda and adds nothing else; with an empty agenda a running SBD
goes on, else a running BCD (log 4, log 5). -/
def Obligations.StepRunsInstruction : Prop :=
  ∀ (s : State) (rest : List Event),
    (∀ e, s.agenda = e :: rest → step s = runEvent e { s with agenda := rest }) ∧
    (s.agenda = [] → step s = runAlone s ∧ runAlone s = if s.sbd.busy = true then runSbd s else runBcd s) ∧
    (∀ a, s.agenda = .host a :: rest → step s = hostAct a { s with agenda := rest }) ∧
    (∀ i ws, s.sbd.busy = true → (sbdInput s.sbdLatch).wraps = false → loopExit s.sbdInt = none →
      decode (sbdPlace s) (fetchTokens s) = .ok (i, ws) →
      (s.agenda = .sbd :: rest → step s = exec i { s with agenda := rest }) ∧
      (s.agenda = [] → step s = exec i s)) ∧
    (∀ st c, s.sbd.busy = true → (sbdInput s.sbdLatch).wraps = false → loopExit s.sbdInt = some (st, c) →
      (s.agenda = .sbd :: rest → step s = sbdFinish st c { s with agenda := rest }) ∧
      (s.agenda = [] → step s = sbdFinish st c s)) ∧
    (∀ i ws, s.bcd.busy = true → decode .format [s.bcdLatch.fmt.zeroExtend 32] = .ok (i, ws) →
      (s.agenda = .bcd :: rest → step s = exec i { s with agenda := rest }) ∧
      (s.agenda = [] → s.sbd.busy = false → step s = exec i s)) ∧
    (s.sbd.busy = false → s.agenda = .sbd :: rest → step s = .next { s with agenda := rest }) ∧
    (s.bcd.busy = false → s.agenda = .bcd :: rest → step s = .next { s with agenda := rest })

/-- The invariant holds right after reset. -/
def Obligations.InvariantAtReset : Prop := State.reset.Inv

/-- The invariant of Safety.lean is kept by every step from every state that has it: memory stays canonical, BUSY and
DONE exclude each other (R18), no error and no OVF shows while BUSY (R223); of the errors of R220, a BCD error leaves
OUT_LEN 0, an SBD UNSUPPORTED_FORMAT and an INSUFFICIENT_DATA without a token leave OUT_LEN and CURSOR 0, an SBD
truncation leaves OUT_LEN the length of its text and CURSOR = n (said of the text and latch that the SBD keeps until the
next START or `rst`, the model's choice, log 24); the cursor stays a token index 0 to n (R33), the text
stays ASCII (R149). -/
def Obligations.InvariantKept : Prop :=
  ∀ s t : State, s.Inv → step s = .next t → t.Inv
end

