-- ==== Sys2Proof/Laws/Memory.lean ====
section
/-! SUPPORT. What memory reads after a write, and that every memory operation keeps the canonical form. -/

namespace Sys2Proof.Machine

-- One proof at a time: in the package as one text their threads run out of memory.
set_option Elab.async false

/-! ### The canonical form -/

theorem Memory.wf_cons (k : Nat) (v : Byte) (rest : Memory) :
    Memory.wf ((k, v) :: rest) = true ↔
      k < sysSize ∧ v ≠ 0 ∧ (∀ c ∈ rest, k < c.1) ∧ Memory.wf rest = true := by
  simp [Memory.wf, and_assoc]

/-- Below every listed address memory reads as unlisted. -/
theorem Memory.read_below (m : Memory) (a : Nat) (h : ∀ c ∈ m, a < c.1) : m.read a = 0 := by
  induction m with
  | nil => rfl
  | cons c rest ih =>
    obtain ⟨k, v⟩ := c
    have hk : a < k := h (k, v) (by simp)
    simp only [Memory.read]
    rw [if_neg (by omega)]
    exact ih fun c hc => h c (by simp [hc])

/-- The addresses a write leaves: the old ones and the written one. -/
theorem Memory.mem_write {m : Memory} {a : Nat} {v : Byte} {c : Host.Cell} (h : c ∈ m.write a v) :
    c ∈ m ∨ c.1 = a := by
  induction m with
  | nil =>
    simp only [Memory.write] at h
    split at h <;> simp_all
  | cons d rest ih =>
    obtain ⟨k, w⟩ := d
    simp only [Memory.write] at h
    split at h
    · split at h
      · exact .inl h
      · rcases List.mem_cons.1 h with rfl | h
        · exact .inr rfl
        · exact .inl h
    · split at h
      · split at h
        · exact .inl (by simp [h])
        · rcases List.mem_cons.1 h with rfl | h
          · exact .inr rfl
          · exact .inl (by simp [h])
      · rcases List.mem_cons.1 h with rfl | h
        · exact .inl (by simp)
        · rcases ih h with h | h
          · exact .inl (by simp [h])
          · exact .inr h

theorem Memory.wf_write {m : Memory} {a : Nat} {v : Byte} (hm : m.wf = true) (ha : a < sysSize) :
    (m.write a v).wf = true := by
  induction m with
  | nil =>
    simp only [Memory.write]
    split
    · rfl
    · rename_i hv; exact (Memory.wf_cons a v []).2 ⟨ha, hv, by simp, rfl⟩
  | cons d rest ih =>
    obtain ⟨k, w⟩ := d
    obtain ⟨hk, hw, hlt, hrest⟩ := (Memory.wf_cons k w rest).1 hm
    simp only [Memory.write]
    split
    · rename_i hak
      split
      · exact hm
      · rename_i hv
        refine (Memory.wf_cons a v _).2 ⟨ha, hv, fun c hc => ?_, hm⟩
        rcases List.mem_cons.1 hc with rfl | hc
        · exact hak
        · exact Nat.lt_trans hak (hlt c hc)
    · split
      · rename_i hak
        subst hak
        split
        · exact hrest
        · rename_i hv; exact (Memory.wf_cons a v rest).2 ⟨ha, hv, hlt, hrest⟩
      · rename_i h1 h2
        refine (Memory.wf_cons k w _).2 ⟨hk, hw, fun c hc => ?_, ih hrest⟩
        rcases Memory.mem_write hc with hc | hc
        · exact hlt c hc
        · omega

/-! ### One byte -/

/-- All a write can do to a read. -/
theorem Memory.read_write {m : Memory} (hm : m.wf = true) (a : Nat) (v : Byte) (b : Nat) :
    (m.write a v).read b = if b = a then v else m.read b := by
  induction m with
  | nil =>
    simp only [Memory.write]
    split <;> rename_i hv
    · subst hv; simp [Memory.read]
    · simp only [Memory.read]; split <;> split <;> simp_all
  | cons d rest ih =>
    obtain ⟨k, w⟩ := d
    obtain ⟨-, -, hlt, hrest⟩ := (Memory.wf_cons k w rest).1 hm
    simp only [Memory.write]
    split
    · rename_i hak
      split
      · rename_i hv
        subst hv
        split
        · rename_i hb
          subst hb
          refine Memory.read_below _ _ fun c hc => ?_
          rcases List.mem_cons.1 hc with rfl | hc
          · exact hak
          · exact Nat.lt_trans hak (hlt c hc)
        · rfl
      · rw [Memory.read]
        by_cases hb : b = a
        · simp [hb]
        · rw [if_neg (Ne.symm hb), if_neg hb]
    · split
      · rename_i hak
        subst hak
        split
        · rename_i hv
          subst hv
          by_cases hb : b = a
          · subst hb; simp [Memory.read_below rest b hlt]
          · simp [Memory.read, hb, Ne.symm hb]
        · simp only [Memory.read]
          by_cases hb : b = a
          · subst hb; simp
          · simp [hb, Ne.symm hb]
      · rename_i h1 h2
        simp only [Memory.read, ih hrest]
        by_cases hb : b = a
        · subst hb; simp [Ne.symm h2]
        · simp [hb]

theorem Memory.read_write_same {m : Memory} (hm : m.wf = true) (a : Nat) (v : Byte) : (m.write a v).read a = v := by
  simp [Memory.read_write hm]

theorem Memory.read_write_other {m : Memory} (hm : m.wf = true) {a b : Nat} (v : Byte) (h : b ≠ a) :
    (m.write a v).read b = m.read b := by
  simp [Memory.read_write hm, h]

/-- Canonical memories that read alike are equal. -/
theorem Memory.wf_ext {m n : Memory} (hm : m.wf = true) (hn : n.wf = true) (h : ∀ a, m.read a = n.read a) : m = n := by
  induction m generalizing n with
  | nil =>
    cases n with
    | nil => rfl
    | cons d rest =>
      obtain ⟨k, w⟩ := d
      have := h k
      simp only [Memory.read, if_true] at this
      exact absurd this.symm ((Memory.wf_cons k w rest).1 hn).2.1
  | cons c ms ih =>
    obtain ⟨k, v⟩ := c
    obtain ⟨-, hv, hlt, hms⟩ := (Memory.wf_cons k v ms).1 hm
    cases n with
    | nil =>
      have := h k
      simp only [Memory.read, if_true] at this
      exact absurd this hv
    | cons d ns =>
      obtain ⟨j, w⟩ := d
      obtain ⟨-, hw, hlt', hns⟩ := (Memory.wf_cons j w ns).1 hn
      have hkj : k = j := by
        rcases Nat.lt_trichotomy k j with hkj | hkj | hkj
        · have hk := h k
          rw [Memory.read_below ((j, w) :: ns) k fun c hc => by
            rcases List.mem_cons.1 hc with rfl | hc
            · exact hkj
            · exact Nat.lt_trans hkj (hlt' c hc)] at hk
          simp only [Memory.read, if_true] at hk
          exact absurd hk hv
        · exact hkj
        · have hj := h j
          rw [Memory.read_below ((k, v) :: ms) j fun c hc => by
            rcases List.mem_cons.1 hc with rfl | hc
            · exact hkj
            · exact Nat.lt_trans hkj (hlt c hc)] at hj
          simp only [Memory.read, if_true] at hj
          exact absurd hj.symm hw
      subst hkj
      have hvw : v = w := by simpa [Memory.read] using h k
      subst hvw
      rw [ih hms hns fun a => ?_]
      by_cases ha : k = a
      · subst ha; rw [Memory.read_below ms k hlt, Memory.read_below ns k hlt']
      · simpa [Memory.read, ha] using h a

/-! ### Runs of bytes -/

@[simp] theorem Memory.length_readBytes (m : Memory) (a n : Nat) : (m.readBytes a n).length = n := by
  induction n generalizing a with
  | zero => rfl
  | succ n ih => simp [Memory.readBytes, ih]

theorem Memory.getElem?_readBytes (m : Memory) (a n j : Nat) :
    (m.readBytes a n)[j]? = if j < n then some (m.read (a + j)) else none := by
  induction n generalizing a j with
  | zero => simp [Memory.readBytes]
  | succ n ih =>
    cases j with
    | zero => simp [Memory.readBytes]
    | succ j => simp [Memory.readBytes, ih, Nat.add_assoc, Nat.add_comm 1 j]

/-- Byte j of a run read from memory. -/
theorem byteAt_readBytes (m : Memory) (a n j : Nat) :
    byteAt (m.readBytes a n) j = if j < n then m.read (a + j) else 0 := by
  simp only [byteAt, List.getD_eq_getElem?_getD, Memory.getElem?_readBytes]
  split <;> rfl

/-- Runs agree where memories do. -/
theorem Memory.readBytes_congr {m m' : Memory} {a n : Nat} (h : ∀ j, j < n → m.read (a + j) = m'.read (a + j)) :
    m.readBytes a n = m'.readBytes a n := by
  apply List.ext_getElem?
  intro j
  simp only [Memory.getElem?_readBytes]
  split
  · rename_i hj; rw [h j hj]
  · rfl

theorem Memory.wf_writeBytes {m : Memory} {a : Nat} {bs : Bytes} (hm : m.wf = true) (h : a + bs.length ≤ sysSize) :
    (m.writeBytes a bs).wf = true := by
  induction bs generalizing m a with
  | nil => exact hm
  | cons b rest ih =>
    simp only [List.length_cons] at h
    exact ih (Memory.wf_write hm (by omega)) (by omega)

/-- All a run of stored bytes can do to a read. -/
theorem Memory.read_writeBytes {m : Memory} {a : Nat} {bs : Bytes} (hm : m.wf = true) (h : a + bs.length ≤ sysSize)
    (b : Nat) :
    (m.writeBytes a bs).read b = if a ≤ b ∧ b < a + bs.length then byteAt bs (b - a) else m.read b := by
  induction bs generalizing m a with
  | nil => simp only [Memory.writeBytes, List.length_nil]; rw [if_neg (by omega)]
  | cons c rest ih =>
    simp only [List.length_cons] at h
    simp only [Memory.writeBytes]
    rw [ih (Memory.wf_write hm (by omega)) (by omega), Memory.read_write hm]
    simp only [List.length_cons]
    by_cases hb : b = a
    · subst hb; rw [if_neg (by omega), if_pos rfl, if_pos (by omega)]; simp [byteAt]
    · by_cases hin : a + 1 ≤ b ∧ b < a + 1 + rest.length
      · rw [if_pos hin, if_pos (by omega)]
        obtain ⟨j, rfl⟩ : ∃ j, b = a + 1 + j := ⟨b - (a + 1), by omega⟩
        simp [byteAt, show a + 1 + j - a = j + 1 by omega]
      · rw [if_neg hin, if_neg hb, if_neg (by omega)]

/-! ### The part of memory in a range -/

/-- In its range, a part of memory reads as memory. -/
theorem Memory.read_within {m : Memory} {r : Extent} {a : Nat} (h : r.contains a = true) :
    (m.within r).read a = m.read a := by
  induction m with
  | nil => rfl
  | cons c rest ih =>
    obtain ⟨k, v⟩ := c
    rw [Memory.within] at ih ⊢
    rw [List.filter_cons]
    split
    · simp only [Memory.read, ih]
    · rename_i hk
      rw [ih, Memory.read, if_neg]
      rintro rfl
      exact hk h

/-! ### Free bytes -/

theorem wf_freeBytes {m : Memory} {a idx len : Nat} (hm : m.wf = true) : (freeBytes m a idx len).wf = true := by
  induction len generalizing m a idx with
  | zero => exact hm
  | succ len ih =>
    simp only [freeBytes]
    split
    · rename_i ha; exact ih (Memory.wf_write hm ha)
    · exact hm

/-- Outside their range, free bytes leave memory alone. -/
theorem read_freeBytes_outside {m : Memory} {a idx len : Nat} (hm : m.wf = true) {b : Nat}
    (hb : b < a ∨ a + len ≤ b) : (freeBytes m a idx len).read b = m.read b := by
  induction len generalizing m a idx with
  | zero => rfl
  | succ len ih =>
    simp only [freeBytes]
    split
    · rename_i ha
      rw [ih (Memory.wf_write hm ha) (by omega), Memory.read_write_other hm _ (by omega)]
    · rfl

end Sys2Proof.Machine
end

