-- ==== Sys2Proof/Laws/Encoding.lean ====
section
/-! SUPPORT. Fields of the words the encoder writes, and what each decoder reads back from them. -/

namespace Sys2Proof

-- One proof at a time: in the package as one text their threads run out of memory.
set_option Elab.async false

/-! ### Opcode tokens -/

theorem opTok_getLsbD (hi op : BitVec 16) (i : Nat) :
    (opTok hi op).getLsbD i = if i < 16 then op.getLsbD i else hi.getLsbD (i - 16) := by
  exact BitVec.getLsbD_append

@[simp] theorem opTok_opcode (hi op : BitVec 16) : (opTok hi op).extractLsb' 0 16 = op := by
  apply BitVec.eq_of_getLsbD_eq
  intro i h
  rw [BitVec.getLsbD_extractLsb', opTok_getLsbD]
  simp [h]

@[simp] theorem opTok_hi (hi op : BitVec 16) : (opTok hi op).extractLsb' 16 16 = hi := by
  apply BitVec.eq_of_getLsbD_eq
  intro i h
  rw [BitVec.getLsbD_extractLsb', opTok_getLsbD]
  simp [h]

/-- A token is its upper half and its opcode. -/
theorem opTok_eta (tok : Word) : opTok (tok.extractLsb' 16 16) (tok.extractLsb' 0 16) = tok := by
  apply BitVec.eq_of_getLsbD_eq
  intro i h
  rw [opTok_getLsbD]
  split
  · rename_i hi
    rw [BitVec.getLsbD_extractLsb']
    simp [hi]
  · rename_i hi
    rw [BitVec.getLsbD_extractLsb', show 16 + (i - 16) = i by omega]
    simp [show i - 16 < 16 by omega]

/-! ### Enumerated fields -/

theorem RegType.ofCode_toCode {ty : RegType} (h : ty.wellFormed = true) : RegType.ofCode ty.toCode = ty := by
  cases ty with
  | unk code =>
    revert h
    revert code
    decide
  | _ => rfl

theorem RegType.ofCode_wellFormed (code : BitVec 5) : (RegType.ofCode code).wellFormed = true := by
  revert code; decide

theorem RegType.toCode_ofCode (code : BitVec 5) : (RegType.ofCode code).toCode = code := by
  revert code; decide

@[simp] theorem Component.ofCode_toCode (c : Component) : Component.ofCode c.toCode = c := by
  cases c <;> rfl

theorem Component.toCode_ofCode (code : BitVec 2) : (Component.ofCode code).toCode = code := by
  revert code; decide

@[simp] theorem SrcMod.ofCode_toCode (m : SrcMod) : SrcMod.ofCode m.toCode = m := by
  cases m <;> rfl

theorem SrcMod.toCode_ofCode (code : BitVec 4) : (SrcMod.ofCode code).toCode = code := by
  revert code; decide

@[simp] theorem Usage.ofCode_toCode (u : Usage) : Usage.ofCode u.toCode = u := by
  cases u <;> rfl

theorem Usage.toCode_ofCode (code : BitVec 4) : (Usage.ofCode code).toCode = code := by
  revert code; decide

theorem TexType.toCode_ofCode (code : BitVec 3) : (TexType.ofCode code).toCode = code := by
  revert code; decide

theorem Decl.ofCode_toCode_tex {u : Decl} (h : u.wellFormed = true) : TexType.ofCode u.tex.toCode = u.tex := by
  obtain ⟨usage, index, tex⟩ := u
  cases tex with
  | unknown code =>
    have key : ∀ code : BitVec 3, (code ≠ 2 && code ≠ 3 && code ≠ 4) = true →
        TexType.ofCode code = .unknown code := by decide
    exact key code h
  | _ => rfl

theorem Decl.ofToken_wellFormed (tok : Word) : (Decl.ofToken tok).wellFormed = true := by
  simp only [Decl.wellFormed, Decl.ofToken]
  generalize tok.extractLsb' 27 3 = code
  revert code; decide

theorem Swizzle.ofCode_toCode (s : Swizzle) : Swizzle.ofCode s.toCode = s := by
  obtain ⟨a, b, c, d⟩ := s
  cases a <;> cases b <;> cases c <;> cases d <;> rfl

/-! ### Parameter tokens -/

/-- The bits of a register type's code, as R80 reads them. -/
theorem regTypeOf_eq {tok : Word} {code : BitVec 5} (hlow : ∀ i, i < 3 → tok.getLsbD (28 + i) = code.getLsbD i)
    (hhigh : ∀ i, i < 2 → tok.getLsbD (11 + i) = code.getLsbD (3 + i)) : regTypeOf tok = RegType.ofCode code := by
  unfold regTypeOf
  congr 1
  apply BitVec.eq_of_getLsbD_eq
  intro i hi
  rw [BitVec.getLsbD_append]
  split
  · rename_i h; rw [BitVec.getLsbD_extractLsb', ← hlow i h]; simp [h]
  · rename_i h
    rw [BitVec.getLsbD_extractLsb', hhigh (i - 3) (by omega), show 3 + (i - 3) = i by omega]
    simp [show i - 3 < 2 by omega]

/-- A field of a token, bit by bit. -/
theorem extract_eq {tok : Word} {lo len : Nat} {v : BitVec len}
    (h : ∀ i, i < len → tok.getLsbD (lo + i) = v.getLsbD i) : tok.extractLsb' lo len = v := by
  apply BitVec.eq_of_getLsbD_eq
  intro i hi
  rw [BitVec.getLsbD_extractLsb', h i hi]
  simp [hi]

/-- R78's bits, of an encoded destination. -/
theorem DstOp.toToken_getLsbD (d : DstOp) {i : Nat} (hi : i < 32) :
    d.toToken.getLsbD i =
      if i < 11 then d.num.getLsbD i
      else if i < 13 then d.reg.toCode.getLsbD (i - 8)
      else if i < 16 then false
      else if i < 20 then [d.mask.x, d.mask.y, d.mask.z, d.mask.w].getD (i - 16) false
      else if i < 24 then [d.mods.saturate, d.mods.partialPrecision, d.mods.centroid].getD (i - 20) false
      else if i < 28 then false
      else if i < 31 then d.reg.toCode.getLsbD (i - 28)
      else true := by
  unfold DstOp.toToken
  change BitVec.getLsbD (w := 1 + 3 + 4 + (1 + 1 + 1 + 1) + (1 + 1 + 1 + 1) + 3 + 2 + 11) _ i = _
  simp only [BitVec.getLsbD_append]
  interval_cases i <;> simp

/-- R79's bits, of an encoded source. -/
theorem SrcOp.toToken_getLsbD (s : SrcOp) {i : Nat} (hi : i < 32) :
    s.toToken.getLsbD i =
      if i < 11 then s.num.getLsbD i
      else if i < 13 then s.reg.toCode.getLsbD (i - 8)
      else if i < 16 then false
      else if i < 24 then s.swz.toCode.getLsbD (i - 16)
      else if i < 28 then s.mod.toCode.getLsbD (i - 24)
      else if i < 31 then s.reg.toCode.getLsbD (i - 28)
      else true := by
  unfold SrcOp.toToken
  change BitVec.getLsbD (w := 1 + 3 + 4 + 8 + 3 + 2 + 11) _ i = _
  simp only [BitVec.getLsbD_append]
  interval_cases i <;> simp

/-- R87's bits, of an encoded declaration. -/
theorem Decl.toToken_getLsbD (u : Decl) {i : Nat} (hi : i < 32) :
    u.toToken.getLsbD i =
      if i < 4 then u.usage.toCode.getLsbD i
      else if i < 16 then false
      else if i < 20 then u.index.getLsbD (i - 16)
      else if i < 27 then false
      else if i < 30 then u.tex.toCode.getLsbD (i - 27)
      else decide (i = 31) := by
  unfold Decl.toToken
  change BitVec.getLsbD (w := 1 + 1 + 3 + 7 + 4 + 12 + 4) _ i = _
  simp only [BitVec.getLsbD_append]
  interval_cases i <;> simp

theorem DstOp.ofToken_toToken {d : DstOp} (h : d.wellFormed = true) : DstOp.ofToken d.toToken = d := by
  have hreg : regTypeOf d.toToken = d.reg := by
    rw [← RegType.ofCode_toCode h]
    apply regTypeOf_eq
    · intro i hi; rw [DstOp.toToken_getLsbD d (by omega)]; interval_cases i <;> simp
    · intro i hi; rw [DstOp.toToken_getLsbD d (by omega)]; interval_cases i <;> simp
  have hnum : d.toToken.extractLsb' 0 11 = d.num :=
    extract_eq fun i hi => by rw [DstOp.toToken_getLsbD d (by omega)]; simp [hi]
  obtain ⟨reg, num, ⟨mx, my, mz, mw⟩, ⟨sat, pp, cen⟩⟩ := d
  simp only [DstOp.ofToken, hreg, hnum]
  congr 1
  · rw [DstOp.toToken_getLsbD _ (by omega), DstOp.toToken_getLsbD _ (by omega), DstOp.toToken_getLsbD _ (by omega),
      DstOp.toToken_getLsbD _ (by omega)]
    rfl
  · rw [DstOp.toToken_getLsbD _ (by omega), DstOp.toToken_getLsbD _ (by omega), DstOp.toToken_getLsbD _ (by omega)]
    rfl

theorem SrcOp.ofToken_toToken {s : SrcOp} (h : s.wellFormed = true) : SrcOp.ofToken s.toToken = s := by
  have hreg : regTypeOf s.toToken = s.reg := by
    rw [← RegType.ofCode_toCode h]
    apply regTypeOf_eq
    · intro i hi; rw [SrcOp.toToken_getLsbD s (by omega)]; interval_cases i <;> simp
    · intro i hi; rw [SrcOp.toToken_getLsbD s (by omega)]; interval_cases i <;> simp
  have hnum : s.toToken.extractLsb' 0 11 = s.num :=
    extract_eq fun i hi => by rw [SrcOp.toToken_getLsbD s (by omega)]; simp [hi]
  have hswz : s.toToken.extractLsb' 16 8 = s.swz.toCode :=
    extract_eq fun i hi => by rw [SrcOp.toToken_getLsbD s (by omega)]; interval_cases i <;> simp
  have hmod : s.toToken.extractLsb' 24 4 = s.mod.toCode :=
    extract_eq fun i hi => by rw [SrcOp.toToken_getLsbD s (by omega)]; interval_cases i <;> simp
  simp [SrcOp.ofToken, hreg, hnum, hswz, hmod, Swizzle.ofCode_toCode]

theorem Decl.ofToken_toToken {u : Decl} (h : u.wellFormed = true) : Decl.ofToken u.toToken = u := by
  have htex : u.toToken.extractLsb' 27 3 = u.tex.toCode :=
    extract_eq fun i hi => by rw [Decl.toToken_getLsbD u (by omega)]; interval_cases i <;> simp
  have hidx : u.toToken.extractLsb' 16 4 = u.index :=
    extract_eq fun i hi => by rw [Decl.toToken_getLsbD u (by omega)]; interval_cases i <;> simp
  have husage : u.toToken.extractLsb' 0 4 = u.usage.toCode :=
    extract_eq fun i hi => by rw [Decl.toToken_getLsbD u (by omega)]; simp [hi]
  simp [Decl.ofToken, htex, hidx, husage, Decl.ofCode_toCode_tex h]

theorem DstOp.ofToken_wellFormed (tok : Word) : (DstOp.ofToken tok).wellFormed = true :=
  RegType.ofCode_wellFormed _

theorem SrcOp.ofToken_wellFormed (tok : Word) : (SrcOp.ofToken tok).wellFormed = true :=
  RegType.ofCode_wellFormed _

end Sys2Proof
end

