-- ==== Sys2Proof/Laws/PerInstr.lean ====
section
/-! SUPPORT. The family TokenCount: how many words each instruction is encoded in (30_encoding.md R67, R76, R94). -/

namespace Sys2Proof.Laws

-- One proof at a time: in the package as one text their threads run out of memory.
set_option Elab.async false

/-- The encoding of an instruction is one word at least; a complete stream instruction has as many tokens as its
opcode takes in every version that admits it (R94). -/
def TokenCount.Statement (i : Instr) : Prop :=
  ∃ w rest, encode i = w :: rest ∧
    ∀ major minor, i.wellFormed = true → (Place.stream major minor).admits i = true → i.complete = true →
      1 + rest.length = Machine.opcodeLength (major, minor) (w.extractLsb' 0 16).toNat

/-- An opcode no row names takes one token. -/
theorem TokenCount.arity_unrecognised {op : BitVec 16} (h : recognised op = false) (version : BitVec 8 × BitVec 8) :
    Machine.opcodeLength version op.toNat = 1 := by
  have hn : ∀ n : Nat, n < 65536 → recognised (BitVec.ofNat 16 n) = false →
      n ≠ 31 ∧ n ≠ 81 ∧ n ≠ 66 ∧ Machine.arity n = none := by
    intro n hlt hr
    simp only [recognised, BitVec.toNat_ofNat, Nat.mod_eq_of_lt hlt, Bool.or_eq_false_iff,
      decide_eq_false_iff_not] at hr
    refine ⟨by omega, by omega, by omega, ?_⟩
    unfold Machine.arity
    split <;> first | rfl | omega
  obtain ⟨h1, h2, h3, h4⟩ := hn op.toNat op.isLt (by simpa using h)
  simp [Machine.opcodeLength, h1, h2, h3, h4]

theorem TokenCount.decodeBc1 : TokenCount.Statement (.decodeBc1) := by
  exact ⟨_, _, rfl, fun _ _ _ hadm => by simp [Place.admits] at hadm⟩

theorem TokenCount.decodeBc2 : TokenCount.Statement (.decodeBc2) := by
  exact ⟨_, _, rfl, fun _ _ _ hadm => by simp [Place.admits] at hadm⟩

theorem TokenCount.decodeBc3 : TokenCount.Statement (.decodeBc3) := by
  exact ⟨_, _, rfl, fun _ _ _ hadm => by simp [Place.admits] at hadm⟩

theorem TokenCount.decodeBc4 : TokenCount.Statement (.decodeBc4) := by
  exact ⟨_, _, rfl, fun _ _ _ hadm => by simp [Place.admits] at hadm⟩

theorem TokenCount.decodeBc5 : TokenCount.Statement (.decodeBc5) := by
  exact ⟨_, _, rfl, fun _ _ _ hadm => by simp [Place.admits] at hadm⟩

theorem TokenCount.unsupportedFormat5 : TokenCount.Statement (.unsupportedFormat5) := by
  exact ⟨_, _, rfl, fun _ _ _ hadm => by simp [Place.admits] at hadm⟩

theorem TokenCount.unsupportedFormat6 : TokenCount.Statement (.unsupportedFormat6) := by
  exact ⟨_, _, rfl, fun _ _ _ hadm => by simp [Place.admits] at hadm⟩

theorem TokenCount.unsupportedFormat7 : TokenCount.Statement (.unsupportedFormat7) := by
  exact ⟨_, _, rfl, fun _ _ _ hadm => by simp [Place.admits] at hadm⟩

theorem TokenCount.headerPs (major minor : BitVec 8) : TokenCount.Statement (.headerPs major minor) := by
  exact ⟨_, _, rfl, fun _ _ _ hadm => by simp [Place.admits] at hadm⟩

theorem TokenCount.headerVs (major minor : BitVec 8) : TokenCount.Statement (.headerVs major minor) := by
  exact ⟨_, _, rfl, fun _ _ _ hadm => by simp [Place.admits] at hadm⟩

theorem TokenCount.headerRejected (tok : Word) : TokenCount.Statement (.headerRejected tok) := by
  exact ⟨_, _, rfl, fun _ _ _ hadm => by simp [Place.admits] at hadm⟩

theorem TokenCount.nop (hi : BitVec 16) : TokenCount.Statement (.nop hi) := by
  refine ⟨_, _, rfl, fun major minor _ _ _ => ?_⟩
  rw [opTok_opcode]
  rfl

theorem TokenCount.mov (hi : BitVec 16) (d : Option DstOp) (a : Option SrcOp) : TokenCount.Statement (.mov hi d a) := by
  refine ⟨_, _, rfl, fun major minor _ _ hc => ?_⟩
  rw [opTok_opcode]
  simp only [Instr.complete, Bool.and_eq_true, Option.isSome_iff_exists] at hc
  obtain ⟨⟨_, rfl⟩, _, rfl⟩ := hc
  rfl

theorem TokenCount.add (hi : BitVec 16) (d : Option DstOp) (a b : Option SrcOp) :
    TokenCount.Statement (.add hi d a b) := by
  refine ⟨_, _, rfl, fun major minor _ _ hc => ?_⟩
  rw [opTok_opcode]
  simp only [Instr.complete, Bool.and_eq_true, Option.isSome_iff_exists] at hc
  obtain ⟨⟨⟨_, rfl⟩, _, rfl⟩, _, rfl⟩ := hc
  rfl

theorem TokenCount.sub (hi : BitVec 16) (d : Option DstOp) (a b : Option SrcOp) :
    TokenCount.Statement (.sub hi d a b) := by
  refine ⟨_, _, rfl, fun major minor _ _ hc => ?_⟩
  rw [opTok_opcode]
  simp only [Instr.complete, Bool.and_eq_true, Option.isSome_iff_exists] at hc
  obtain ⟨⟨⟨_, rfl⟩, _, rfl⟩, _, rfl⟩ := hc
  rfl

theorem TokenCount.mad (hi : BitVec 16) (d : Option DstOp) (a b c : Option SrcOp) :
    TokenCount.Statement (.mad hi d a b c) := by
  refine ⟨_, _, rfl, fun major minor _ _ hc => ?_⟩
  rw [opTok_opcode]
  simp only [Instr.complete, Bool.and_eq_true, Option.isSome_iff_exists] at hc
  obtain ⟨⟨⟨⟨_, rfl⟩, _, rfl⟩, _, rfl⟩, _, rfl⟩ := hc
  rfl

theorem TokenCount.mul (hi : BitVec 16) (d : Option DstOp) (a b : Option SrcOp) :
    TokenCount.Statement (.mul hi d a b) := by
  refine ⟨_, _, rfl, fun major minor _ _ hc => ?_⟩
  rw [opTok_opcode]
  simp only [Instr.complete, Bool.and_eq_true, Option.isSome_iff_exists] at hc
  obtain ⟨⟨⟨_, rfl⟩, _, rfl⟩, _, rfl⟩ := hc
  rfl

theorem TokenCount.rcp (hi : BitVec 16) (d : Option DstOp) (a : Option SrcOp) : TokenCount.Statement (.rcp hi d a) := by
  refine ⟨_, _, rfl, fun major minor _ _ hc => ?_⟩
  rw [opTok_opcode]
  simp only [Instr.complete, Bool.and_eq_true, Option.isSome_iff_exists] at hc
  obtain ⟨⟨_, rfl⟩, _, rfl⟩ := hc
  rfl

theorem TokenCount.rsq (hi : BitVec 16) (d : Option DstOp) (a : Option SrcOp) : TokenCount.Statement (.rsq hi d a) := by
  refine ⟨_, _, rfl, fun major minor _ _ hc => ?_⟩
  rw [opTok_opcode]
  simp only [Instr.complete, Bool.and_eq_true, Option.isSome_iff_exists] at hc
  obtain ⟨⟨_, rfl⟩, _, rfl⟩ := hc
  rfl

theorem TokenCount.dp3 (hi : BitVec 16) (d : Option DstOp) (a b : Option SrcOp) :
    TokenCount.Statement (.dp3 hi d a b) := by
  refine ⟨_, _, rfl, fun major minor _ _ hc => ?_⟩
  rw [opTok_opcode]
  simp only [Instr.complete, Bool.and_eq_true, Option.isSome_iff_exists] at hc
  obtain ⟨⟨⟨_, rfl⟩, _, rfl⟩, _, rfl⟩ := hc
  rfl

theorem TokenCount.dp4 (hi : BitVec 16) (d : Option DstOp) (a b : Option SrcOp) :
    TokenCount.Statement (.dp4 hi d a b) := by
  refine ⟨_, _, rfl, fun major minor _ _ hc => ?_⟩
  rw [opTok_opcode]
  simp only [Instr.complete, Bool.and_eq_true, Option.isSome_iff_exists] at hc
  obtain ⟨⟨⟨_, rfl⟩, _, rfl⟩, _, rfl⟩ := hc
  rfl

theorem TokenCount.min (hi : BitVec 16) (d : Option DstOp) (a b : Option SrcOp) :
    TokenCount.Statement (.min hi d a b) := by
  refine ⟨_, _, rfl, fun major minor _ _ hc => ?_⟩
  rw [opTok_opcode]
  simp only [Instr.complete, Bool.and_eq_true, Option.isSome_iff_exists] at hc
  obtain ⟨⟨⟨_, rfl⟩, _, rfl⟩, _, rfl⟩ := hc
  rfl

theorem TokenCount.max (hi : BitVec 16) (d : Option DstOp) (a b : Option SrcOp) :
    TokenCount.Statement (.max hi d a b) := by
  refine ⟨_, _, rfl, fun major minor _ _ hc => ?_⟩
  rw [opTok_opcode]
  simp only [Instr.complete, Bool.and_eq_true, Option.isSome_iff_exists] at hc
  obtain ⟨⟨⟨_, rfl⟩, _, rfl⟩, _, rfl⟩ := hc
  rfl

theorem TokenCount.slt (hi : BitVec 16) (d : Option DstOp) (a b : Option SrcOp) :
    TokenCount.Statement (.slt hi d a b) := by
  refine ⟨_, _, rfl, fun major minor _ _ hc => ?_⟩
  rw [opTok_opcode]
  simp only [Instr.complete, Bool.and_eq_true, Option.isSome_iff_exists] at hc
  obtain ⟨⟨⟨_, rfl⟩, _, rfl⟩, _, rfl⟩ := hc
  rfl

theorem TokenCount.sge (hi : BitVec 16) (d : Option DstOp) (a b : Option SrcOp) :
    TokenCount.Statement (.sge hi d a b) := by
  refine ⟨_, _, rfl, fun major minor _ _ hc => ?_⟩
  rw [opTok_opcode]
  simp only [Instr.complete, Bool.and_eq_true, Option.isSome_iff_exists] at hc
  obtain ⟨⟨⟨_, rfl⟩, _, rfl⟩, _, rfl⟩ := hc
  rfl

theorem TokenCount.exp (hi : BitVec 16) (d : Option DstOp) (a : Option SrcOp) : TokenCount.Statement (.exp hi d a) := by
  refine ⟨_, _, rfl, fun major minor _ _ hc => ?_⟩
  rw [opTok_opcode]
  simp only [Instr.complete, Bool.and_eq_true, Option.isSome_iff_exists] at hc
  obtain ⟨⟨_, rfl⟩, _, rfl⟩ := hc
  rfl

theorem TokenCount.log (hi : BitVec 16) (d : Option DstOp) (a : Option SrcOp) : TokenCount.Statement (.log hi d a) := by
  refine ⟨_, _, rfl, fun major minor _ _ hc => ?_⟩
  rw [opTok_opcode]
  simp only [Instr.complete, Bool.and_eq_true, Option.isSome_iff_exists] at hc
  obtain ⟨⟨_, rfl⟩, _, rfl⟩ := hc
  rfl

theorem TokenCount.lit (hi : BitVec 16) (d : Option DstOp) (a : Option SrcOp) : TokenCount.Statement (.lit hi d a) := by
  refine ⟨_, _, rfl, fun major minor _ _ hc => ?_⟩
  rw [opTok_opcode]
  simp only [Instr.complete, Bool.and_eq_true, Option.isSome_iff_exists] at hc
  obtain ⟨⟨_, rfl⟩, _, rfl⟩ := hc
  rfl

theorem TokenCount.dst (hi : BitVec 16) (d : Option DstOp) (a b : Option SrcOp) :
    TokenCount.Statement (.dst hi d a b) := by
  refine ⟨_, _, rfl, fun major minor _ _ hc => ?_⟩
  rw [opTok_opcode]
  simp only [Instr.complete, Bool.and_eq_true, Option.isSome_iff_exists] at hc
  obtain ⟨⟨⟨_, rfl⟩, _, rfl⟩, _, rfl⟩ := hc
  rfl

theorem TokenCount.lrp (hi : BitVec 16) (d : Option DstOp) (a b c : Option SrcOp) :
    TokenCount.Statement (.lrp hi d a b c) := by
  refine ⟨_, _, rfl, fun major minor _ _ hc => ?_⟩
  rw [opTok_opcode]
  simp only [Instr.complete, Bool.and_eq_true, Option.isSome_iff_exists] at hc
  obtain ⟨⟨⟨⟨_, rfl⟩, _, rfl⟩, _, rfl⟩, _, rfl⟩ := hc
  rfl

theorem TokenCount.frc (hi : BitVec 16) (d : Option DstOp) (a : Option SrcOp) : TokenCount.Statement (.frc hi d a) := by
  refine ⟨_, _, rfl, fun major minor _ _ hc => ?_⟩
  rw [opTok_opcode]
  simp only [Instr.complete, Bool.and_eq_true, Option.isSome_iff_exists] at hc
  obtain ⟨⟨_, rfl⟩, _, rfl⟩ := hc
  rfl

theorem TokenCount.m4x4 (hi : BitVec 16) (d : Option DstOp) (a b : Option SrcOp) :
    TokenCount.Statement (.m4x4 hi d a b) := by
  refine ⟨_, _, rfl, fun major minor _ _ hc => ?_⟩
  rw [opTok_opcode]
  simp only [Instr.complete, Bool.and_eq_true, Option.isSome_iff_exists] at hc
  obtain ⟨⟨⟨_, rfl⟩, _, rfl⟩, _, rfl⟩ := hc
  rfl

theorem TokenCount.m4x3 (hi : BitVec 16) (d : Option DstOp) (a b : Option SrcOp) :
    TokenCount.Statement (.m4x3 hi d a b) := by
  refine ⟨_, _, rfl, fun major minor _ _ hc => ?_⟩
  rw [opTok_opcode]
  simp only [Instr.complete, Bool.and_eq_true, Option.isSome_iff_exists] at hc
  obtain ⟨⟨⟨_, rfl⟩, _, rfl⟩, _, rfl⟩ := hc
  rfl

theorem TokenCount.m3x4 (hi : BitVec 16) (d : Option DstOp) (a b : Option SrcOp) :
    TokenCount.Statement (.m3x4 hi d a b) := by
  refine ⟨_, _, rfl, fun major minor _ _ hc => ?_⟩
  rw [opTok_opcode]
  simp only [Instr.complete, Bool.and_eq_true, Option.isSome_iff_exists] at hc
  obtain ⟨⟨⟨_, rfl⟩, _, rfl⟩, _, rfl⟩ := hc
  rfl

theorem TokenCount.m3x3 (hi : BitVec 16) (d : Option DstOp) (a b : Option SrcOp) :
    TokenCount.Statement (.m3x3 hi d a b) := by
  refine ⟨_, _, rfl, fun major minor _ _ hc => ?_⟩
  rw [opTok_opcode]
  simp only [Instr.complete, Bool.and_eq_true, Option.isSome_iff_exists] at hc
  obtain ⟨⟨⟨_, rfl⟩, _, rfl⟩, _, rfl⟩ := hc
  rfl

theorem TokenCount.m3x2 (hi : BitVec 16) (d : Option DstOp) (a b : Option SrcOp) :
    TokenCount.Statement (.m3x2 hi d a b) := by
  refine ⟨_, _, rfl, fun major minor _ _ hc => ?_⟩
  rw [opTok_opcode]
  simp only [Instr.complete, Bool.and_eq_true, Option.isSome_iff_exists] at hc
  obtain ⟨⟨⟨_, rfl⟩, _, rfl⟩, _, rfl⟩ := hc
  rfl

theorem TokenCount.call (hi : BitVec 16) (a : Option SrcOp) : TokenCount.Statement (.call hi a) := by
  refine ⟨_, _, rfl, fun major minor _ _ hc => ?_⟩
  rw [opTok_opcode]
  simp only [Instr.complete, Option.isSome_iff_exists] at hc
  obtain ⟨_, rfl⟩ := hc
  rfl

theorem TokenCount.callnz (hi : BitVec 16) (a b : Option SrcOp) : TokenCount.Statement (.callnz hi a b) := by
  refine ⟨_, _, rfl, fun major minor _ _ hc => ?_⟩
  rw [opTok_opcode]
  simp only [Instr.complete, Bool.and_eq_true, Option.isSome_iff_exists] at hc
  obtain ⟨⟨_, rfl⟩, _, rfl⟩ := hc
  rfl

theorem TokenCount.loop (hi : BitVec 16) (a b : Option SrcOp) : TokenCount.Statement (.loop hi a b) := by
  refine ⟨_, _, rfl, fun major minor _ _ hc => ?_⟩
  rw [opTok_opcode]
  simp only [Instr.complete, Bool.and_eq_true, Option.isSome_iff_exists] at hc
  obtain ⟨⟨_, rfl⟩, _, rfl⟩ := hc
  rfl

theorem TokenCount.ret (hi : BitVec 16) : TokenCount.Statement (.ret hi) := by
  refine ⟨_, _, rfl, fun major minor _ _ _ => ?_⟩
  rw [opTok_opcode]
  rfl

theorem TokenCount.endloop (hi : BitVec 16) : TokenCount.Statement (.endloop hi) := by
  refine ⟨_, _, rfl, fun major minor _ _ _ => ?_⟩
  rw [opTok_opcode]
  rfl

theorem TokenCount.label (hi : BitVec 16) (a : Option SrcOp) : TokenCount.Statement (.label hi a) := by
  refine ⟨_, _, rfl, fun major minor _ _ hc => ?_⟩
  rw [opTok_opcode]
  simp only [Instr.complete, Option.isSome_iff_exists] at hc
  obtain ⟨_, rfl⟩ := hc
  rfl

theorem TokenCount.pow (hi : BitVec 16) (d : Option DstOp) (a b : Option SrcOp) :
    TokenCount.Statement (.pow hi d a b) := by
  refine ⟨_, _, rfl, fun major minor _ _ hc => ?_⟩
  rw [opTok_opcode]
  simp only [Instr.complete, Bool.and_eq_true, Option.isSome_iff_exists] at hc
  obtain ⟨⟨⟨_, rfl⟩, _, rfl⟩, _, rfl⟩ := hc
  rfl

theorem TokenCount.crs (hi : BitVec 16) (d : Option DstOp) (a b : Option SrcOp) :
    TokenCount.Statement (.crs hi d a b) := by
  refine ⟨_, _, rfl, fun major minor _ _ hc => ?_⟩
  rw [opTok_opcode]
  simp only [Instr.complete, Bool.and_eq_true, Option.isSome_iff_exists] at hc
  obtain ⟨⟨⟨_, rfl⟩, _, rfl⟩, _, rfl⟩ := hc
  rfl

theorem TokenCount.sgn (hi : BitVec 16) (d : Option DstOp) (a b c : Option SrcOp) :
    TokenCount.Statement (.sgn hi d a b c) := by
  refine ⟨_, _, rfl, fun major minor _ _ hc => ?_⟩
  rw [opTok_opcode]
  simp only [Instr.complete, Bool.and_eq_true, Option.isSome_iff_exists] at hc
  obtain ⟨⟨⟨⟨_, rfl⟩, _, rfl⟩, _, rfl⟩, _, rfl⟩ := hc
  rfl

theorem TokenCount.abs (hi : BitVec 16) (d : Option DstOp) (a : Option SrcOp) : TokenCount.Statement (.abs hi d a) := by
  refine ⟨_, _, rfl, fun major minor _ _ hc => ?_⟩
  rw [opTok_opcode]
  simp only [Instr.complete, Bool.and_eq_true, Option.isSome_iff_exists] at hc
  obtain ⟨⟨_, rfl⟩, _, rfl⟩ := hc
  rfl

theorem TokenCount.nrm (hi : BitVec 16) (d : Option DstOp) (a : Option SrcOp) : TokenCount.Statement (.nrm hi d a) := by
  refine ⟨_, _, rfl, fun major minor _ _ hc => ?_⟩
  rw [opTok_opcode]
  simp only [Instr.complete, Bool.and_eq_true, Option.isSome_iff_exists] at hc
  obtain ⟨⟨_, rfl⟩, _, rfl⟩ := hc
  rfl

theorem TokenCount.sincos (hi : BitVec 16) (d : Option DstOp) (a b c : Option SrcOp) :
    TokenCount.Statement (.sincos hi d a b c) := by
  refine ⟨_, _, rfl, fun major minor _ _ hc => ?_⟩
  rw [opTok_opcode]
  simp only [Instr.complete, Bool.and_eq_true, Option.isSome_iff_exists] at hc
  obtain ⟨⟨⟨⟨_, rfl⟩, _, rfl⟩, _, rfl⟩, _, rfl⟩ := hc
  rfl

theorem TokenCount.rep (hi : BitVec 16) (a : Option SrcOp) : TokenCount.Statement (.rep hi a) := by
  refine ⟨_, _, rfl, fun major minor _ _ hc => ?_⟩
  rw [opTok_opcode]
  simp only [Instr.complete, Option.isSome_iff_exists] at hc
  obtain ⟨_, rfl⟩ := hc
  rfl

theorem TokenCount.endrep (hi : BitVec 16) : TokenCount.Statement (.endrep hi) := by
  refine ⟨_, _, rfl, fun major minor _ _ _ => ?_⟩
  rw [opTok_opcode]
  rfl

theorem TokenCount.mova (hi : BitVec 16) (d : Option DstOp) (a : Option SrcOp) :
    TokenCount.Statement (.mova hi d a) := by
  refine ⟨_, _, rfl, fun major minor _ _ hc => ?_⟩
  rw [opTok_opcode]
  simp only [Instr.complete, Bool.and_eq_true, Option.isSome_iff_exists] at hc
  obtain ⟨⟨_, rfl⟩, _, rfl⟩ := hc
  rfl

theorem TokenCount.phase (hi : BitVec 16) : TokenCount.Statement (.phase hi) := by
  refine ⟨_, _, rfl, fun major minor _ _ _ => ?_⟩
  rw [opTok_opcode]
  rfl

theorem TokenCount.end_ (hi : BitVec 16) : TokenCount.Statement (.end_ hi) := by
  refine ⟨_, _, rfl, fun major minor _ _ _ => ?_⟩
  rw [opTok_opcode]
  rfl

theorem TokenCount.dcl (hi : BitVec 16) (u : Option Decl) (d : Option DstOp) : TokenCount.Statement (.dcl hi u d) := by
  refine ⟨_, _, rfl, fun major minor _ _ hc => ?_⟩
  rw [opTok_opcode]
  simp only [Instr.complete, Bool.and_eq_true, Option.isSome_iff_exists] at hc
  obtain ⟨⟨_, rfl⟩, _, rfl⟩ := hc
  rfl

theorem TokenCount.tex (hi : BitVec 16) (d : Option DstOp) : TokenCount.Statement (.tex hi d) := by
  refine ⟨_, _, rfl, fun major minor _ hadm hc => ?_⟩
  simp only [Place.admits, decide_eq_true_eq] at hadm
  simp only [Instr.complete, Option.isSome_iff_exists] at hc
  rw [opTok_opcode]
  simp [Machine.opcodeLength, Machine.texRow, hadm]
  grind [operandToks]

theorem TokenCount.texld14 (hi : BitVec 16) (d : Option DstOp) (a : Option SrcOp) :
    TokenCount.Statement (.texld14 hi d a) := by
  refine ⟨_, _, rfl, fun major minor _ hadm hc => ?_⟩
  simp only [Place.admits, decide_eq_true_eq] at hadm
  simp only [Instr.complete, Bool.and_eq_true, Option.isSome_iff_exists] at hc
  rw [opTok_opcode]
  simp [Machine.opcodeLength, Machine.texRow, hadm]
  grind [operandToks]

theorem TokenCount.texld20 (hi : BitVec 16) (d : Option DstOp) (a b : Option SrcOp) :
    TokenCount.Statement (.texld20 hi d a b) := by
  refine ⟨_, _, rfl, fun major minor _ hadm hc => ?_⟩
  simp only [Place.admits, decide_eq_true_eq] at hadm
  simp only [Instr.complete, Bool.and_eq_true, Option.isSome_iff_exists] at hc
  rw [opTok_opcode]
  simp [Machine.opcodeLength, Machine.texRow, hadm]
  grind [operandToks]

theorem TokenCount.def_ (hi : BitVec 16) (d : Option DstOp) (f0 f1 f2 f3 : Option Word) :
    TokenCount.Statement (.def_ hi d f0 f1 f2 f3) := by
  refine ⟨_, _, rfl, fun major minor _ _ hc => ?_⟩
  rw [opTok_opcode]
  simp only [Instr.complete, Bool.and_eq_true, Option.isSome_iff_exists] at hc
  obtain ⟨⟨⟨⟨⟨_, rfl⟩, _, rfl⟩, _, rfl⟩, _, rfl⟩, _, rfl⟩ := hc
  rfl

theorem TokenCount.unrecognised (tok : Word) : TokenCount.Statement (.unrecognised tok) := by
  refine ⟨tok, [], rfl, fun major minor hwf _ _ => ?_⟩
  rw [TokenCount.arity_unrecognised]
  · rfl
  · simpa [Instr.wellFormed] using hwf

end Sys2Proof.Laws
end

