-- ==== Sys2Proof/Laws/Decoding.lean ====
section
/-! SUPPORT. All that decoding a stream's word can answer: a well-formed instruction of its place, complete exactly
when its tokens are there, of the length its opcode gives (R94). -/

namespace Sys2Proof

-- One proof at a time: in the package as one text their threads run out of memory.
set_option Elab.async false

/-! ### Operands that are there -/

@[simp] theorem dstAt_isSome (rest : List Word) (k : Nat) : (dstAt rest k).isSome = decide (k < rest.length) := by
  rw [Bool.eq_iff_iff]; simp [dstAt]

@[simp] theorem srcAt_isSome (rest : List Word) (k : Nat) : (srcAt rest k).isSome = decide (k < rest.length) := by
  rw [Bool.eq_iff_iff]; simp [srcAt]

@[simp] theorem declAt_isSome (rest : List Word) (k : Nat) : (declAt rest k).isSome = decide (k < rest.length) := by
  rw [Bool.eq_iff_iff]; simp [declAt]

theorem literal_isSome (rest : List Word) (k : Nat) : rest[k]?.isSome = decide (k < rest.length) := by
  rw [Bool.eq_iff_iff]; simp

@[simp] theorem presentWf_dstAt (rest : List Word) (k : Nat) : presentWf DstOp.wellFormed (dstAt rest k) = true := by
  unfold dstAt
  cases rest[k]? with
  | none => rfl
  | some t => exact DstOp.ofToken_wellFormed t

@[simp] theorem presentWf_srcAt (rest : List Word) (k : Nat) : presentWf SrcOp.wellFormed (srcAt rest k) = true := by
  unfold srcAt
  cases rest[k]? with
  | none => rfl
  | some t => exact SrcOp.ofToken_wellFormed t

@[simp] theorem presentWf_declAt (rest : List Word) (k : Nat) : presentWf Decl.wellFormed (declAt rest k) = true := by
  unfold declAt
  cases rest[k]? with
  | none => rfl
  | some t => exact Decl.ofToken_wellFormed t

/-- Tokens run out once: the first ones are there. -/
@[simp] theorem present_two (n : Nat) : present [decide (0 < n), decide (1 < n)] = true := by
  rcases n with _ | _ | n <;> simp [present]

@[simp] theorem present_three (n : Nat) : present [decide (0 < n), decide (1 < n), decide (2 < n)] = true := by
  rcases n with _ | _ | _ | n <;> simp [present]

@[simp] theorem present_four (n : Nat) :
    present [decide (0 < n), decide (1 < n), decide (2 < n), decide (3 < n)] = true := by
  rcases n with _ | _ | _ | _ | n <;> simp [present]

@[simp] theorem present_five (n : Nat) :
    present [decide (0 < n), decide (1 < n), decide (2 < n), decide (3 < n), decide (4 < n)] = true := by
  rcases n with _ | _ | _ | _ | _ | n <;> simp [present]

@[simp] theorem present_one (b : Bool) : present [b] = true := by
  cases b <;> simp [present]

/-- The family TokenCount, of any instruction. -/
theorem tokenCount_statement (i : Instr) : Laws.TokenCount.Statement i := by
  cases i with
  | decodeBc1 => exact Laws.TokenCount.decodeBc1
  | decodeBc2 => exact Laws.TokenCount.decodeBc2
  | decodeBc3 => exact Laws.TokenCount.decodeBc3
  | decodeBc4 => exact Laws.TokenCount.decodeBc4
  | decodeBc5 => exact Laws.TokenCount.decodeBc5
  | unsupportedFormat5 => exact Laws.TokenCount.unsupportedFormat5
  | unsupportedFormat6 => exact Laws.TokenCount.unsupportedFormat6
  | unsupportedFormat7 => exact Laws.TokenCount.unsupportedFormat7
  | headerPs major minor => exact Laws.TokenCount.headerPs major minor
  | headerVs major minor => exact Laws.TokenCount.headerVs major minor
  | headerRejected tok => exact Laws.TokenCount.headerRejected tok
  | nop hi => exact Laws.TokenCount.nop hi
  | mov hi d a => exact Laws.TokenCount.mov hi d a
  | add hi d a b => exact Laws.TokenCount.add hi d a b
  | sub hi d a b => exact Laws.TokenCount.sub hi d a b
  | mad hi d a b c => exact Laws.TokenCount.mad hi d a b c
  | mul hi d a b => exact Laws.TokenCount.mul hi d a b
  | rcp hi d a => exact Laws.TokenCount.rcp hi d a
  | rsq hi d a => exact Laws.TokenCount.rsq hi d a
  | dp3 hi d a b => exact Laws.TokenCount.dp3 hi d a b
  | dp4 hi d a b => exact Laws.TokenCount.dp4 hi d a b
  | min hi d a b => exact Laws.TokenCount.min hi d a b
  | max hi d a b => exact Laws.TokenCount.max hi d a b
  | slt hi d a b => exact Laws.TokenCount.slt hi d a b
  | sge hi d a b => exact Laws.TokenCount.sge hi d a b
  | exp hi d a => exact Laws.TokenCount.exp hi d a
  | log hi d a => exact Laws.TokenCount.log hi d a
  | lit hi d a => exact Laws.TokenCount.lit hi d a
  | dst hi d a b => exact Laws.TokenCount.dst hi d a b
  | lrp hi d a b c => exact Laws.TokenCount.lrp hi d a b c
  | frc hi d a => exact Laws.TokenCount.frc hi d a
  | m4x4 hi d a b => exact Laws.TokenCount.m4x4 hi d a b
  | m4x3 hi d a b => exact Laws.TokenCount.m4x3 hi d a b
  | m3x4 hi d a b => exact Laws.TokenCount.m3x4 hi d a b
  | m3x3 hi d a b => exact Laws.TokenCount.m3x3 hi d a b
  | m3x2 hi d a b => exact Laws.TokenCount.m3x2 hi d a b
  | call hi a => exact Laws.TokenCount.call hi a
  | callnz hi a b => exact Laws.TokenCount.callnz hi a b
  | loop hi a b => exact Laws.TokenCount.loop hi a b
  | ret hi => exact Laws.TokenCount.ret hi
  | endloop hi => exact Laws.TokenCount.endloop hi
  | label hi a => exact Laws.TokenCount.label hi a
  | pow hi d a b => exact Laws.TokenCount.pow hi d a b
  | crs hi d a b => exact Laws.TokenCount.crs hi d a b
  | sgn hi d a b c => exact Laws.TokenCount.sgn hi d a b c
  | abs hi d a => exact Laws.TokenCount.abs hi d a
  | nrm hi d a => exact Laws.TokenCount.nrm hi d a
  | sincos hi d a b c => exact Laws.TokenCount.sincos hi d a b c
  | rep hi a => exact Laws.TokenCount.rep hi a
  | endrep hi => exact Laws.TokenCount.endrep hi
  | mova hi d a => exact Laws.TokenCount.mova hi d a
  | phase hi => exact Laws.TokenCount.phase hi
  | end_ hi => exact Laws.TokenCount.end_ hi
  | dcl hi u d => exact Laws.TokenCount.dcl hi u d
  | tex hi d => exact Laws.TokenCount.tex hi d
  | texld14 hi d a => exact Laws.TokenCount.texld14 hi d a
  | texld20 hi d a b => exact Laws.TokenCount.texld20 hi d a b
  | def_ hi d f0 f1 f2 f3 => exact Laws.TokenCount.def_ hi d f0 f1 f2 f3
  | unrecognised tok => exact Laws.TokenCount.unrecognised tok

/-! ### One opcode token -/

/-- What decoding an opcode token gives. -/
structure OpcodeSpec (version : BitVec 8 × BitVec 8) (tok : Word) (rest : List Word) (i : Instr) (left : List Word) :
    Prop where
  wellFormed : i.wellFormed = true
  admits : (Place.stream version.1 version.2).admits i = true
  complete : i.complete = true ↔ Machine.opcodeLength version (tok.extractLsb' 0 16).toNat ≤ 1 + rest.length
  left : left = rest.drop (Machine.opcodeLength version (tok.extractLsb' 0 16).toNat - 1)
  ends : (∃ hi, i = .end_ hi) ↔ (tok.extractLsb' 0 16).toNat = 65535

/-- The first word an instruction is encoded in. -/
def headOpcode (i : Instr) : BitVec 16 := ((encode i).headD 0).extractLsb' 0 16

theorem headOpcode_cons {i : Instr} {hi op : BitVec 16} {more : List Word} (h : encode i = opTok hi op :: more) :
    headOpcode i = op := by
  simp [headOpcode, h]

theorem decodeTex_spec (version : BitVec 8 × BitVec 8) (tok : Word) (rest : List Word)
    (h : (tok.extractLsb' 0 16).toNat = 66) :
    OpcodeSpec version tok rest (decodeTex version (tok.extractLsb' 16 16) rest).1
      (decodeTex version (tok.extractLsb' 16 16) rest).2 := by
  obtain ⟨major, minor⟩ := version
  unfold decodeTex
  constructor <;> cases hf : texForm (major, minor) <;> (try simp only [h]) <;>
    simp (disch := omega) [Instr.wellFormed, operandsWf, Place.admits, Instr.complete, hf, Machine.opcodeLength,
      Machine.texRow] <;> grind

theorem eq_ofNat {v : BitVec 16} {n : Nat} (h : v.toNat = n) : v = BitVec.ofNat 16 n := by
  rw [← h]; simp

/-- The opcode of the instruction read is the token's. -/
theorem headOpcode_decodeOpcode (version : BitVec 8 × BitVec 8) (tok : Word) (rest : List Word) :
    headOpcode (decodeOpcode version tok rest).1 = tok.extractLsb' 0 16 := by
  unfold decodeOpcode
  split
  case h_42 h =>
    rw [eq_ofNat h]
    unfold decodeTex
    split <;> exact headOpcode_cons rfl
  case h_46 => rfl
  all_goals
    rename_i h
    rw [eq_ofNat h]
    exact headOpcode_cons rfl

theorem decodeOpcode_spec (version : BitVec 8 × BitVec 8) (tok : Word) (rest : List Word) :
    OpcodeSpec version tok rest (decodeOpcode version tok rest).1 (decodeOpcode version tok rest).2 := by
  obtain ⟨major, minor⟩ := version
  unfold decodeOpcode
  split
  case h_42 h => exact decodeTex_spec (major, minor) tok rest h
  case h_46 =>
    have hr : recognised (tok.extractLsb' 0 16) = false := by
      simp only [recognised, Bool.or_eq_false_iff, decide_eq_false_iff_not]
      refine ⟨⟨⟨⟨⟨?_, ?_⟩, ?_⟩, ?_⟩, ?_⟩, ?_⟩ <;> first | assumption | skip
      intro hle
      generalize (tok.extractLsb' 0 16).toNat = op at *
      interval_cases op <;> contradiction
    constructor
    · simpa [Instr.wellFormed] using hr
    · simp [Place.admits]
    · rw [Laws.TokenCount.arity_unrecognised hr]; simp [Instr.complete]
    · rw [Laws.TokenCount.arity_unrecognised hr]; simp
    · simpa using by assumption
  all_goals
    rename_i h
    constructor <;> (try simp only [h]) <;>
      simp [Instr.wellFormed, operandsWf, Place.admits, Instr.complete, Machine.opcodeLength, Machine.arity,
        literal_isSome] <;> grind

/-- A complete instruction is as long as its opcode says (R94). -/
theorem length_encode_decodeOpcode (version : BitVec 8 × BitVec 8) (tok : Word) (rest : List Word)
    (hc : (decodeOpcode version tok rest).1.complete = true) :
    (encode (decodeOpcode version tok rest).1).length =
      Machine.opcodeLength version (tok.extractLsb' 0 16).toNat := by
  have hs := decodeOpcode_spec version tok rest
  obtain ⟨w, more, he, hl⟩ := tokenCount_statement (decodeOpcode version tok rest).1
  have hw : w.extractLsb' 0 16 = tok.extractLsb' 0 16 := by
    rw [← headOpcode_decodeOpcode version tok rest, headOpcode, he]; rfl
  have := hl version.1 version.2 hs.wellFormed hs.admits hc
  rw [hw] at this
  rw [he, ← this, List.length_cons, Nat.add_comm]

end Sys2Proof
end

