-- ==== Sys2Proof/Laws/State.lean ====
section
/-! SUPPORT. One lemma per field of State per named update: what each update leaves in each field. -/

namespace Sys2Proof.Machine

/-! ### A printed instruction -/

@[simp] theorem State.printed_bcd (s : State) (ops : List Bytes) (l : Bytes) (k : Nat) :
    (s.printed ops l k).bcd =
      s.bcd := rfl
@[simp] theorem State.printed_bcdLatch (s : State) (ops : List Bytes) (l : Bytes) (k : Nat) :
    (s.printed ops l k).bcdLatch =
      s.bcdLatch := rfl
@[simp] theorem State.printed_bcdInt (s : State) (ops : List Bytes) (l : Bytes) (k : Nat) :
    (s.printed ops l k).bcdInt =
      s.bcdInt := rfl
@[simp] theorem State.printed_sbd (s : State) (ops : List Bytes) (l : Bytes) (k : Nat) :
    (s.printed ops l k).sbd =
      s.sbd := rfl
@[simp] theorem State.printed_sbdLatch (s : State) (ops : List Bytes) (l : Bytes) (k : Nat) :
    (s.printed ops l k).sbdLatch =
      s.sbdLatch := rfl
@[simp] theorem State.printed_sbdInt (s : State) (ops : List Bytes) (l : Bytes) (k : Nat) :
    (s.printed ops l k).sbdInt =
      { s.sbdInt with operands := ops, line := l, text := s.sbdInt.text ++ l, cur := s.sbdInt.cur + k } := rfl
@[simp] theorem State.printed_mem (s : State) (ops : List Bytes) (l : Bytes) (k : Nat) :
    (s.printed ops l k).mem =
      s.mem := rfl
@[simp] theorem State.printed_bcdDuty (s : State) (ops : List Bytes) (l : Bytes) (k : Nat) :
    (s.printed ops l k).bcdDuty =
      s.bcdDuty := rfl
@[simp] theorem State.printed_sbdDuty (s : State) (ops : List Bytes) (l : Bytes) (k : Nat) :
    (s.printed ops l k).sbdDuty =
      s.sbdDuty := rfl
@[simp] theorem State.printed_agenda (s : State) (ops : List Bytes) (l : Bytes) (k : Nat) :
    (s.printed ops l k).agenda =
      s.agenda := rfl
@[simp] theorem State.printed_lastRead (s : State) (ops : List Bytes) (l : Bytes) (k : Nat) :
    (s.printed ops l k).lastRead =
      s.lastRead := rfl
@[simp] theorem State.printed_freeIdx (s : State) (ops : List Bytes) (l : Bytes) (k : Nat) :
    (s.printed ops l k).freeIdx =
      s.freeIdx := rfl

/-! ### A truncated instruction -/

@[simp] theorem State.cutOff_bcd (s : State) (ops : List Bytes) (p : Bytes) : (s.cutOff ops p).bcd = s.bcd := rfl
@[simp] theorem State.cutOff_bcdLatch (s : State) (ops : List Bytes) (p : Bytes) :
    (s.cutOff ops p).bcdLatch =
      s.bcdLatch := rfl
@[simp] theorem State.cutOff_bcdInt (s : State) (ops : List Bytes) (p : Bytes) :
    (s.cutOff ops p).bcdInt =
      s.bcdInt := rfl
@[simp] theorem State.cutOff_sbd (s : State) (ops : List Bytes) (p : Bytes) : (s.cutOff ops p).sbd = s.sbd := rfl
@[simp] theorem State.cutOff_sbdLatch (s : State) (ops : List Bytes) (p : Bytes) :
    (s.cutOff ops p).sbdLatch =
      s.sbdLatch := rfl
@[simp] theorem State.cutOff_sbdInt (s : State) (ops : List Bytes) (p : Bytes) :
    (s.cutOff ops p).sbdInt =
      { s.sbdInt with
        operands := ops, line := p, text := s.sbdInt.text ++ p, cur := s.sbdInt.n
        ended := some (.insufficientData, s.sbdInt.n) } := rfl
@[simp] theorem State.cutOff_mem (s : State) (ops : List Bytes) (p : Bytes) : (s.cutOff ops p).mem = s.mem := rfl
@[simp] theorem State.cutOff_bcdDuty (s : State) (ops : List Bytes) (p : Bytes) :
    (s.cutOff ops p).bcdDuty =
      s.bcdDuty := rfl
@[simp] theorem State.cutOff_sbdDuty (s : State) (ops : List Bytes) (p : Bytes) :
    (s.cutOff ops p).sbdDuty =
      s.sbdDuty := rfl
@[simp] theorem State.cutOff_agenda (s : State) (ops : List Bytes) (p : Bytes) :
    (s.cutOff ops p).agenda =
      s.agenda := rfl
@[simp] theorem State.cutOff_lastRead (s : State) (ops : List Bytes) (p : Bytes) :
    (s.cutOff ops p).lastRead =
      s.lastRead := rfl
@[simp] theorem State.cutOff_freeIdx (s : State) (ops : List Bytes) (p : Bytes) :
    (s.cutOff ops p).freeIdx =
      s.freeIdx := rfl

/-! ### The header line -/

@[simp] theorem emitHeader_bcd (p : String) (major minor : BitVec 8) (s : State) :
    (emitHeader p major minor s).bcd =
      s.bcd := rfl
@[simp] theorem emitHeader_bcdLatch (p : String) (major minor : BitVec 8) (s : State) :
    (emitHeader p major minor s).bcdLatch =
      s.bcdLatch := rfl
@[simp] theorem emitHeader_bcdInt (p : String) (major minor : BitVec 8) (s : State) :
    (emitHeader p major minor s).bcdInt =
      s.bcdInt := rfl
@[simp] theorem emitHeader_sbd (p : String) (major minor : BitVec 8) (s : State) :
    (emitHeader p major minor s).sbd =
      s.sbd := rfl
@[simp] theorem emitHeader_sbdLatch (p : String) (major minor : BitVec 8) (s : State) :
    (emitHeader p major minor s).sbdLatch =
      s.sbdLatch := rfl
@[simp] theorem emitHeader_sbdInt (p : String) (major minor : BitVec 8) (s : State) :
    (emitHeader p major minor s).sbdInt =
      { s.sbdInt with
        major := major, minor := minor, operands := [], cur := 1
        line := ascii p ++ ascii "_" ++ dec major.toNat ++ ascii "_" ++ dec minor.toNat ++ ascii "\n"
        text := s.sbdInt.text ++
          (ascii p ++ ascii "_" ++ dec major.toNat ++ ascii "_" ++ dec minor.toNat ++ ascii "\n") } := rfl
@[simp] theorem emitHeader_mem (p : String) (major minor : BitVec 8) (s : State) :
    (emitHeader p major minor s).mem =
      s.mem := rfl
@[simp] theorem emitHeader_bcdDuty (p : String) (major minor : BitVec 8) (s : State) :
    (emitHeader p major minor s).bcdDuty =
      s.bcdDuty := rfl
@[simp] theorem emitHeader_sbdDuty (p : String) (major minor : BitVec 8) (s : State) :
    (emitHeader p major minor s).sbdDuty =
      s.sbdDuty := rfl
@[simp] theorem emitHeader_agenda (p : String) (major minor : BitVec 8) (s : State) :
    (emitHeader p major minor s).agenda =
      s.agenda := rfl
@[simp] theorem emitHeader_lastRead (p : String) (major minor : BitVec 8) (s : State) :
    (emitHeader p major minor s).lastRead =
      s.lastRead := rfl
@[simp] theorem emitHeader_freeIdx (p : String) (major minor : BitVec 8) (s : State) :
    (emitHeader p major minor s).freeIdx =
      s.freeIdx := rfl

/-! ### The end of the decode loop -/

@[simp] theorem endLoop_bcd (st : Status) (s : State) : (endLoop st s).bcd = s.bcd := rfl
@[simp] theorem endLoop_bcdLatch (st : Status) (s : State) : (endLoop st s).bcdLatch = s.bcdLatch := rfl
@[simp] theorem endLoop_bcdInt (st : Status) (s : State) : (endLoop st s).bcdInt = s.bcdInt := rfl
@[simp] theorem endLoop_sbd (st : Status) (s : State) : (endLoop st s).sbd = s.sbd := rfl
@[simp] theorem endLoop_sbdLatch (st : Status) (s : State) : (endLoop st s).sbdLatch = s.sbdLatch := rfl
@[simp] theorem endLoop_sbdInt (st : Status) (s : State) :
    (endLoop st s).sbdInt =
      { s.sbdInt with ended := some (st, s.sbdInt.cur) } := rfl
@[simp] theorem endLoop_mem (st : Status) (s : State) : (endLoop st s).mem = s.mem := rfl
@[simp] theorem endLoop_bcdDuty (st : Status) (s : State) : (endLoop st s).bcdDuty = s.bcdDuty := rfl
@[simp] theorem endLoop_sbdDuty (st : Status) (s : State) : (endLoop st s).sbdDuty = s.sbdDuty := rfl
@[simp] theorem endLoop_agenda (st : Status) (s : State) : (endLoop st s).agenda = s.agenda := rfl
@[simp] theorem endLoop_lastRead (st : Status) (s : State) : (endLoop st s).lastRead = s.lastRead := rfl
@[simp] theorem endLoop_freeIdx (st : Status) (s : State) : (endLoop st s).freeIdx = s.freeIdx := rfl

/-! ### START of the BCD -/

@[simp] theorem bcdStart_bcd (s : State) :
    (bcdStart s).bcd =
      { s.bcd with done := false, err := .ok, busy := true } := rfl
@[simp] theorem bcdStart_bcdLatch (s : State) :
    (bcdStart s).bcdLatch =
      ⟨s.bcd.fmt, s.bcd.width, s.bcd.height, s.bcd.srcAddr, s.bcd.srcLen, s.bcd.dstAddr, s.bcd.bc5Fix⟩ := rfl
@[simp] theorem bcdStart_bcdInt (s : State) : (bcdStart s).bcdInt = .reset := rfl
@[simp] theorem bcdStart_sbd (s : State) : (bcdStart s).sbd = s.sbd := rfl
@[simp] theorem bcdStart_sbdLatch (s : State) : (bcdStart s).sbdLatch = s.sbdLatch := rfl
@[simp] theorem bcdStart_sbdInt (s : State) : (bcdStart s).sbdInt = s.sbdInt := rfl
@[simp] theorem bcdStart_mem (s : State) : (bcdStart s).mem = s.mem := rfl
@[simp] theorem bcdStart_bcdDuty (s : State) : (bcdStart s).bcdDuty = s.bcdDuty.started := rfl
@[simp] theorem bcdStart_sbdDuty (s : State) : (bcdStart s).sbdDuty = s.sbdDuty := rfl
@[simp] theorem bcdStart_agenda (s : State) : (bcdStart s).agenda = s.agenda := rfl
@[simp] theorem bcdStart_lastRead (s : State) : (bcdStart s).lastRead = s.lastRead := rfl
@[simp] theorem bcdStart_freeIdx (s : State) : (bcdStart s).freeIdx = s.freeIdx := rfl

/-! ### START of the SBD -/

@[simp] theorem sbdStart_bcd (s : State) : (sbdStart s).bcd = s.bcd := rfl
@[simp] theorem sbdStart_bcdLatch (s : State) : (sbdStart s).bcdLatch = s.bcdLatch := rfl
@[simp] theorem sbdStart_bcdInt (s : State) : (sbdStart s).bcdInt = s.bcdInt := rfl
@[simp] theorem sbdStart_sbd (s : State) :
    (sbdStart s).sbd =
      { s.sbd with done := false, err := .ok, ovf := false, busy := true } := rfl
@[simp] theorem sbdStart_sbdLatch (s : State) :
    (sbdStart s).sbdLatch =
      ⟨s.sbd.srcAddr, s.sbd.srcLen, s.sbd.dstAddr, s.sbd.dstCap⟩ := rfl
@[simp] theorem sbdStart_sbdInt (s : State) :
    (sbdStart s).sbdInt =
      { SbdInternal.reset with n := tokenCount s.sbd.srcLen } := rfl
@[simp] theorem sbdStart_mem (s : State) : (sbdStart s).mem = s.mem := rfl
@[simp] theorem sbdStart_bcdDuty (s : State) : (sbdStart s).bcdDuty = s.bcdDuty := rfl
@[simp] theorem sbdStart_sbdDuty (s : State) : (sbdStart s).sbdDuty = s.sbdDuty.started := rfl
@[simp] theorem sbdStart_agenda (s : State) : (sbdStart s).agenda = s.agenda := rfl
@[simp] theorem sbdStart_lastRead (s : State) : (sbdStart s).lastRead = s.lastRead := rfl
@[simp] theorem sbdStart_freeIdx (s : State) : (sbdStart s).freeIdx = s.freeIdx := rfl

/-! ### Completion of the BCD -/

@[simp] theorem bcdComplete_bcd (st : Status) (n : Nat) (m : Memory) (s : State) :
    (bcdComplete st n m s).bcd =
      { s.bcd with outLen := BitVec.ofNat 32 n, err := st, busy := false, done := true } := rfl
@[simp] theorem bcdComplete_bcdLatch (st : Status) (n : Nat) (m : Memory) (s : State) :
    (bcdComplete st n m s).bcdLatch =
      s.bcdLatch := rfl
@[simp] theorem bcdComplete_bcdInt (st : Status) (n : Nat) (m : Memory) (s : State) :
    (bcdComplete st n m s).bcdInt =
      s.bcdInt := rfl
@[simp] theorem bcdComplete_sbd (st : Status) (n : Nat) (m : Memory) (s : State) :
    (bcdComplete st n m s).sbd =
      s.sbd := rfl
@[simp] theorem bcdComplete_sbdLatch (st : Status) (n : Nat) (m : Memory) (s : State) :
    (bcdComplete st n m s).sbdLatch =
      s.sbdLatch := rfl
@[simp] theorem bcdComplete_sbdInt (st : Status) (n : Nat) (m : Memory) (s : State) :
    (bcdComplete st n m s).sbdInt =
      s.sbdInt := rfl
@[simp] theorem bcdComplete_mem (st : Status) (n : Nat) (m : Memory) (s : State) :
    (bcdComplete st n m s).mem =
      m := rfl
@[simp] theorem bcdComplete_bcdDuty (st : Status) (n : Nat) (m : Memory) (s : State) :
    (bcdComplete st n m s).bcdDuty =
      s.bcdDuty.ended (bcdFootprint s.bcdLatch) s.mem m := rfl
@[simp] theorem bcdComplete_sbdDuty (st : Status) (n : Nat) (m : Memory) (s : State) :
    (bcdComplete st n m s).sbdDuty =
      s.sbdDuty.beside s.sbd.busy (bcdFootprint s.bcdLatch) := rfl
@[simp] theorem bcdComplete_agenda (st : Status) (n : Nat) (m : Memory) (s : State) :
    (bcdComplete st n m s).agenda =
      s.agenda := rfl
@[simp] theorem bcdComplete_lastRead (st : Status) (n : Nat) (m : Memory) (s : State) :
    (bcdComplete st n m s).lastRead =
      s.lastRead := rfl
@[simp] theorem bcdComplete_freeIdx (st : Status) (n : Nat) (m : Memory) (s : State) :
    (bcdComplete st n m s).freeIdx =
      s.freeIdx := rfl

/-! ### Completion of the SBD -/

@[simp] theorem sbdComplete_bcd (st : Status) (c : Nat) (s : State) : (sbdComplete st c s).bcd = s.bcd := rfl
@[simp] theorem sbdComplete_bcdLatch (st : Status) (c : Nat) (s : State) :
    (sbdComplete st c s).bcdLatch =
      s.bcdLatch := rfl
@[simp] theorem sbdComplete_bcdInt (st : Status) (c : Nat) (s : State) : (sbdComplete st c s).bcdInt = s.bcdInt := rfl
@[simp] theorem sbdComplete_sbd (st : Status) (c : Nat) (s : State) :
    (sbdComplete st c s).sbd =
      { s.sbd with
        outLen := BitVec.ofNat 32 s.sbdInt.text.length
        cursor := BitVec.ofNat 32 c
        ovf := overflows s.sbdInt.text.length s.sbdLatch.dstCap
        err := st
        busy := false
        done := true } := rfl
@[simp] theorem sbdComplete_sbdLatch (st : Status) (c : Nat) (s : State) :
    (sbdComplete st c s).sbdLatch =
      s.sbdLatch := rfl
@[simp] theorem sbdComplete_sbdInt (st : Status) (c : Nat) (s : State) : (sbdComplete st c s).sbdInt = s.sbdInt := rfl
@[simp] theorem sbdComplete_mem (st : Status) (c : Nat) (s : State) : (sbdComplete st c s).mem = sbdStored s := rfl
@[simp] theorem sbdComplete_bcdDuty (st : Status) (c : Nat) (s : State) :
    (sbdComplete st c s).bcdDuty =
      s.bcdDuty.beside s.bcd.busy (sbdFootprint s.sbdLatch) := rfl
@[simp] theorem sbdComplete_sbdDuty (st : Status) (c : Nat) (s : State) :
    (sbdComplete st c s).sbdDuty =
      s.sbdDuty.ended (sbdFootprint s.sbdLatch) s.mem (sbdStored s) := rfl
@[simp] theorem sbdComplete_agenda (st : Status) (c : Nat) (s : State) : (sbdComplete st c s).agenda = s.agenda := rfl
@[simp] theorem sbdComplete_lastRead (st : Status) (c : Nat) (s : State) :
    (sbdComplete st c s).lastRead =
      s.lastRead := rfl
@[simp] theorem sbdComplete_freeIdx (st : Status) (c : Nat) (s : State) :
    (sbdComplete st c s).freeIdx =
      s.freeIdx := rfl

/-! ### An observation of DONE -/

@[simp] theorem observe_bcd (w : Window) (s : State) : (observe w s).bcd = s.bcd := by cases w <;> rfl
@[simp] theorem observe_bcdLatch (w : Window) (s : State) : (observe w s).bcdLatch = s.bcdLatch := by cases w <;> rfl
@[simp] theorem observe_bcdInt (w : Window) (s : State) : (observe w s).bcdInt = s.bcdInt := by cases w <;> rfl
@[simp] theorem observe_sbd (w : Window) (s : State) : (observe w s).sbd = s.sbd := by cases w <;> rfl
@[simp] theorem observe_sbdLatch (w : Window) (s : State) : (observe w s).sbdLatch = s.sbdLatch := by cases w <;> rfl
@[simp] theorem observe_sbdInt (w : Window) (s : State) : (observe w s).sbdInt = s.sbdInt := by cases w <;> rfl
@[simp] theorem observe_mem (w : Window) (s : State) : (observe w s).mem = s.mem := by cases w <;> rfl
@[simp] theorem observe_bcdDuty (w : Window) (s : State) :
    (observe w s).bcdDuty =
      if w = .bcd then s.bcdDuty.observed else s.bcdDuty := by cases w <;> rfl
@[simp] theorem observe_sbdDuty (w : Window) (s : State) :
    (observe w s).sbdDuty =
      if w = .sbd then s.sbdDuty.observed else s.sbdDuty := by cases w <;> rfl
@[simp] theorem observe_agenda (w : Window) (s : State) : (observe w s).agenda = s.agenda := by cases w <;> rfl
@[simp] theorem observe_lastRead (w : Window) (s : State) : (observe w s).lastRead = s.lastRead := by cases w <;> rfl
@[simp] theorem observe_freeIdx (w : Window) (s : State) : (observe w s).freeIdx = s.freeIdx := by cases w <;> rfl

/-! ### The duty records -/

@[simp] theorem Duty.started_unseen (d : Duty) : d.started.unseen = d.unseen := rfl
@[simp] theorem Duty.started_rivals (d : Duty) : d.started.rivals = [] := rfl
@[simp] theorem Duty.observed_unseen (d : Duty) : d.observed.unseen = [] := rfl
@[simp] theorem Duty.observed_rivals (d : Duty) : d.observed.rivals = d.rivals := rfl
@[simp] theorem Duty.ended_unseen (d : Duty) (f : Footprint) (m n : Memory) :
    (d.ended f m n).unseen = ⟨f, m.within f.output, n.within f.output⟩ :: d.unseen := rfl
@[simp] theorem Duty.ended_rivals (d : Duty) (f : Footprint) (m n : Memory) : (d.ended f m n).rivals = d.rivals := rfl
@[simp] theorem Duty.beside_unseen (d : Duty) (b : Bool) (f : Footprint) : (d.beside b f).unseen = d.unseen := by
  cases b <;> rfl
@[simp] theorem Duty.beside_rivals (d : Duty) (b : Bool) (f : Footprint) :
    (d.beside b f).rivals = if b then f :: d.rivals else d.rivals := by
  cases b <;> rfl

/-! ### The ranges of a command -/

@[simp] theorem bcdFootprint_input (l : BcdLatch) : (bcdFootprint l).input = bcdInput l := rfl
@[simp] theorem bcdFootprint_output (l : BcdLatch) : (bcdFootprint l).output = bcdOutput l := rfl
@[simp] theorem sbdFootprint_input (l : SbdLatch) : (sbdFootprint l).input = sbdInput l := rfl
@[simp] theorem sbdFootprint_output (l : SbdLatch) : (sbdFootprint l).output = sbdOutput l := rfl

end Sys2Proof.Machine
end

