-- ==== Sys2Proof/Laws/Text.lean ====
section
/-! SUPPORT. What the text primitives spell: lengths, values, and that every byte of a text is printable (R149). -/

namespace Sys2Proof.Machine

-- One proof at a time: in the package as one text their threads run out of memory.
set_option Elab.async false

/-! ### Digits -/

theorem decDigit_toNat {d : Nat} (h : d < 10) : (decDigit d).toNat = 48 + d := by
  simp only [decDigit, BitVec.toNat_ofNat]; omega

theorem hexDigit_toNat {d : Nat} (h : d < 16) : (hexDigit d).toNat = if d < 10 then 48 + d else 87 + d := by
  simp only [hexDigit]; split <;> simp only [BitVec.toNat_ofNat] <;> omega

theorem decValue_append (a b : Bytes) : decValue (a ++ b) = decValue a * 10 ^ b.length + decValue b := by
  simp only [decValue, List.foldl_append]
  generalize List.foldl (fun n b => 10 * n + (b.toNat - 48)) 0 a = acc
  induction b using List.reverseRecOn with
  | nil => simp
  | append_singleton l x ih =>
    simp only [List.foldl_append, List.foldl_cons, List.foldl_nil, ih, List.length_append, List.length_singleton,
      pow_succ]
    ring

theorem decValue_digit {d : Nat} (h : d < 10) : decValue [decDigit d] = d := by
  simp [decValue, decDigit_toNat h]

theorem hexValue_append (a b : Bytes) : hexValue (a ++ b) = hexValue a * 16 ^ b.length + hexValue b := by
  simp only [hexValue, List.foldl_append]
  generalize List.foldl (fun n b => 16 * n + (if b.toNat < 97 then b.toNat - 48 else b.toNat - 87)) 0 a = acc
  induction b using List.reverseRecOn with
  | nil => simp
  | append_singleton l x ih =>
    simp only [List.foldl_append, List.foldl_cons, List.foldl_nil, ih, List.length_append, List.length_singleton,
      pow_succ]
    ring

theorem hexValue_digit {d : Nat} (h : d < 16) : hexValue [hexDigit d] = d := by
  simp only [hexValue, List.foldl_cons, List.foldl_nil, hexDigit_toNat h]
  split <;> split <;> omega

/-! ### Fixed-width spellings -/

@[simp] theorem length_decFixed (k n : Nat) : (decFixed k n).length = k := by
  induction k generalizing n with
  | zero => rfl
  | succ k ih => simp [decFixed, ih]

/-- Every byte of a fixed decimal spelling is a digit. -/
theorem decFixed_digits (k n : Nat) : ∀ b ∈ decFixed k n, 48 ≤ b.toNat ∧ b.toNat ≤ 57 := by
  induction k generalizing n with
  | zero => simp [decFixed]
  | succ k ih =>
    intro b hb
    rcases List.mem_append.1 hb with hb | hb
    · exact ih _ b hb
    · obtain rfl := List.mem_singleton.1 hb
      have := Nat.mod_lt n (show 0 < 10 by omega)
      simp only [decDigit, BitVec.toNat_ofNat]
      omega

/-- Every byte of a hexadecimal spelling is 0 to 9 or a to f. -/
theorem hexFixed_digits (k n : Nat) :
    ∀ b ∈ hexFixed k n, 48 ≤ b.toNat ∧ b.toNat ≤ 57 ∨ 97 ≤ b.toNat ∧ b.toNat ≤ 102 := by
  induction k generalizing n with
  | zero => simp [hexFixed]
  | succ k ih =>
    intro b hb
    rcases List.mem_append.1 hb with hb | hb
    · exact ih _ b hb
    · obtain rfl := List.mem_singleton.1 hb
      have := Nat.mod_lt n (show 0 < 16 by omega)
      unfold hexDigit
      split <;> simp only [BitVec.toNat_ofNat] <;> omega

theorem decValue_decFixed (k n : Nat) : decValue (decFixed k n) = n % 10 ^ k := by
  induction k generalizing n with
  | zero => simp [decFixed, decValue, Nat.mod_one]
  | succ k ih =>
    rw [decFixed, decValue_append, ih, decValue_digit (Nat.mod_lt _ (by decide)), List.length_singleton, pow_one,
      pow_succ, Nat.mul_comm (10 ^ k) 10, Nat.mod_mul]
    ring

theorem decFixed_mod (k n : Nat) : decFixed k (n % 10 ^ k) = decFixed k n := by
  induction k generalizing n with
  | zero => rfl
  | succ k ih =>
    have h1 : n % 10 ^ (k + 1) / 10 = n / 10 % 10 ^ k := by
      rw [pow_succ, Nat.mul_comm, Nat.mod_mul_right_div_self]
    have h2 : n % 10 ^ (k + 1) % 10 = n % 10 := by
      rw [pow_succ]; exact Nat.mod_mul_left_mod _ _ _
    rw [decFixed, decFixed, h1, h2, ih]

@[simp] theorem length_hexFixed (k n : Nat) : (hexFixed k n).length = k := by
  induction k generalizing n with
  | zero => rfl
  | succ k ih => simp [hexFixed, ih]

theorem hexValue_hexFixed (k n : Nat) : hexValue (hexFixed k n) = n % 16 ^ k := by
  induction k generalizing n with
  | zero => simp [hexFixed, hexValue, Nat.mod_one]
  | succ k ih =>
    rw [hexFixed, hexValue_append, ih, hexValue_digit (Nat.mod_lt _ (by decide)), List.length_singleton, pow_one,
      pow_succ, Nat.mul_comm (16 ^ k) 16, Nat.mod_mul]
    ring

@[simp] theorem length_hex4 (n : Nat) : (hex4 n).length = 4 := length_hexFixed 4 n

@[simp] theorem length_hex8 (n : Nat) : (hex8 n).length = 8 := length_hexFixed 8 n

@[simp] theorem length_spaces (k : Nat) : (spaces k).length = k := by simp [spaces]

/-! ### Decimal spellings -/

/-- Enough fuel for the digits of a number. -/
theorem lt_pow_log2 (n : Nat) : n < 10 ^ (n.log2 + 1) := by
  have h : n < 2 ^ (n.log2 + 1) := Nat.lt_log2_self
  exact Nat.lt_of_lt_of_le h (Nat.pow_le_pow_left (by decide) _)

theorem decDigits_append (fuel n : Nat) (acc : Bytes) : decDigits fuel n acc = decDigits fuel n [] ++ acc := by
  induction fuel generalizing n acc with
  | zero => rfl
  | succ fuel ih =>
    simp only [decDigits]
    split
    · rfl
    · rw [ih, ih (n / 10) [_]]; simp

/-- A number of one digit is that digit. -/
theorem dec_digit {n : Nat} (h : n < 10) : dec n = [decDigit n] := by
  simp [dec, decDigits, h]

/-- With fuel for its digits, a spelling has the number's value, digits only, no leading zero, and is not empty. -/
theorem decDigits_spec {fuel n : Nat} (h : n < 10 ^ fuel) (hf : 0 < fuel) :
    decValue (decDigits fuel n []) = n ∧ (∀ b ∈ decDigits fuel n [], 48 ≤ b.toNat ∧ b.toNat ≤ 57) ∧
      (0 < n → ∃ d rest, decDigits fuel n [] = decDigit d :: rest ∧ 0 < d ∧ d < 10) ∧
      (∀ k, n < 10 ^ k → 0 < k → (decDigits fuel n []).length ≤ k) := by
  induction fuel generalizing n with
  | zero => omega
  | succ fuel ih =>
    simp only [decDigits]
    split
    · rename_i hn
      refine ⟨decValue_digit hn, ?_, fun h0 => ⟨n, [], rfl, h0, hn⟩, fun k _ hk => hk⟩
      intro b hb
      simp only [List.mem_singleton] at hb
      subst hb
      rw [decDigit_toNat hn]; omega
    · rename_i hn
      have hfuel : 0 < fuel := by
        rcases Nat.eq_zero_or_pos fuel with rfl | h'
        · simp at h; omega
        · exact h'
      have hlt : n / 10 < 10 ^ fuel := by
        rw [pow_succ] at h; exact Nat.div_lt_of_lt_mul (by omega)
      obtain ⟨h1, h2, h3, h4⟩ := ih hlt hfuel
      rw [decDigits_append]
      refine ⟨?_, ?_, ?_, ?_⟩
      · rw [decValue_append, h1, decValue_digit (Nat.mod_lt _ (by decide))]
        simp only [List.length_singleton, pow_one]; omega
      · intro b hb
        rcases List.mem_append.1 hb with hb | hb
        · exact h2 b hb
        · simp only [List.mem_singleton] at hb
          subst hb
          rw [decDigit_toNat (Nat.mod_lt _ (by decide))]; omega
      · intro _
        obtain ⟨d, rest, he, hd, hd'⟩ := h3 (by omega)
        exact ⟨d, rest ++ [decDigit (n % 10)], by simp [he], hd, hd'⟩
      · intro k hk hk0
        obtain ⟨j, rfl⟩ : ∃ j, k = j + 1 := ⟨k - 1, by omega⟩
        have hj : 0 < j := by
          rcases Nat.eq_zero_or_pos j with rfl | h'
          · simp at hk; omega
          · exact h'
        have := h4 j (by rw [pow_succ] at hk; exact Nat.div_lt_of_lt_mul (by omega)) hj
        simpa using this

theorem decValue_dec (n : Nat) : decValue (dec n) = n := (decDigits_spec (lt_pow_log2 n) (by omega)).1

theorem dec_digits (n : Nat) : ∀ b ∈ dec n, 48 ≤ b.toNat ∧ b.toNat ≤ 57 :=
  (decDigits_spec (lt_pow_log2 n) (by omega)).2.1

theorem dec_leading {n : Nat} (h : 0 < n) : ∃ d rest, dec n = decDigit d :: rest ∧ 0 < d ∧ d < 10 :=
  (decDigits_spec (lt_pow_log2 n) (by omega)).2.2.1 h

theorem length_dec_le {n k : Nat} (h : n < 10 ^ k) (hk : 0 < k) : (dec n).length ≤ k :=
  (decDigits_spec (lt_pow_log2 n) (by omega)).2.2.2 k h hk

theorem length_pad2 {n : Nat} (h : n < 100) : (pad2 n).length = 2 := by
  have := length_dec_le (n := n) (k := 2) (by omega) (by omega)
  simp [pad2]; omega

/-! ### Lines -/

theorem length_mkline (body : Bytes) (tok : Word) : (mkline body tok).length = max 60 body.length + 43 := by
  have h : (pad2 (tok.extractLsb' 24 4).toNat).length = 2 :=
    length_pad2 (Nat.lt_of_lt_of_le (tok.extractLsb' 24 4).isLt (by decide))
  simp only [mkline, List.length_append, length_spaces, length_hex4, length_hex8, h, Config.padColumn,
    show (ascii "; opcode: 0x").length = 12 by decide, show (ascii ", len: ").length = 7 by decide,
    show (ascii ", val: 0x").length = 9 by decide, show (ascii "\n").length = 1 by decide]
  omega

/-! ### Printable text (R149) -/

/-- Every byte is a line feed or a printing character. -/
abbrev Printable (bs : Bytes) : Prop := bs.all isTextByte = true

theorem Printable.nil : Printable [] := rfl

theorem Printable.append {a b : Bytes} (ha : Printable a) (hb : Printable b) : Printable (a ++ b) := by
  simp only [Printable, List.all_append, Bool.and_eq_true]; exact ⟨ha, hb⟩

theorem Printable.ite {p : Prop} [Decidable p] {a b : Bytes} (ha : Printable a) (hb : Printable b) :
    Printable (if p then a else b) := by
  split <;> assumption

theorem Printable.of_digits {bs : Bytes} (h : ∀ b ∈ bs, 48 ≤ b.toNat ∧ b.toNat ≤ 57) : Printable bs := by
  simp only [Printable, List.all_eq_true, isTextByte, Bool.or_eq_true, Bool.and_eq_true, decide_eq_true_eq]
  intro b hb
  have := h b hb
  exact .inr ⟨by omega, by omega⟩

theorem printable_dec (n : Nat) : Printable (dec n) := .of_digits (dec_digits n)

theorem printable_decFixed (k n : Nat) : Printable (decFixed k n) := by
  induction k generalizing n with
  | zero => rfl
  | succ k ih =>
    refine (ih _).append (.of_digits fun b hb => ?_)
    simp only [List.mem_singleton] at hb
    subst hb
    rw [decDigit_toNat (Nat.mod_lt _ (by decide))]; omega

theorem printable_hexFixed (k n : Nat) : Printable (hexFixed k n) := by
  induction k generalizing n with
  | zero => rfl
  | succ k ih =>
    refine (ih _).append ?_
    have h := hexDigit_toNat (d := n % 16) (Nat.mod_lt _ (by decide))
    simp only [Printable, List.all_cons, List.all_nil, Bool.and_true, isTextByte, Bool.or_eq_true, Bool.and_eq_true,
      decide_eq_true_eq, h]
    exact .inr (by split <;> omega)

theorem printable_spaces (k : Nat) : Printable (spaces k) := by
  simp only [Printable, spaces, List.all_eq_true, List.mem_replicate]
  rintro b ⟨-, rfl⟩; rfl

theorem printable_pad2 (n : Nat) : Printable (pad2 n) := (printable_spaces _).append (printable_dec n)

theorem printable_joinComma {ops : List Bytes} (h : ∀ o ∈ ops, Printable o) : Printable (joinComma ops) := by
  induction ops with
  | nil => rfl
  | cons a rest ih =>
    cases rest with
    | nil => exact h a (by simp)
    | cons b rest =>
      have hc : Printable (ascii ", ") := by decide
      exact ((h a (by simp)).append hc).append (ih fun o ho => h o (by simp [ho]))

theorem printable_opsuffix {ops : List Bytes} (h : ∀ o ∈ ops, Printable o) : Printable (opsuffix ops) := by
  unfold opsuffix
  split
  · rfl
  · exact Printable.append (by decide) (printable_joinComma h)

theorem printable_mkline {body : Bytes} (h : Printable body) (tok : Word) : Printable (mkline body tok) := by
  have h1 : Printable (ascii "; opcode: 0x") := by decide
  have h2 : Printable (ascii ", len: ") := by decide
  have h3 : Printable (ascii ", val: 0x") := by decide
  have h4 : Printable (ascii "\n") := by decide
  exact (((((((h.append (printable_spaces _)).append h1).append (printable_hexFixed 4 _)).append h2).append
    (printable_pad2 _)).append h3).append (printable_hexFixed 8 _)).append h4

theorem printable_floatText (x : Word) : Printable (floatText x) := by
  have h1 : Printable (ascii "-") := by decide
  have h2 : Printable (ascii "inf") := by decide
  have h3 : Printable (ascii "nan") := by decide
  have h4 : Printable (ascii ".") := by decide
  exact (Printable.ite h1 .nil).append
    (.ite (.ite h2 h3) (((printable_dec _).append h4).append (printable_decFixed 6 _)))

end Sys2Proof.Machine
end

