-- ==== Sys2Proof/Laws/Shader.lean ====
section
/-! SUPPORT. All that a meaning of the SBD can do: print complete lines and pass its tokens, or print a partial text and
end the loop; and that what it prints is ASCII (R149). -/

namespace Sys2Proof.Machine

-- One proof at a time: in the package as one text their threads run out of memory.
set_option Elab.async false

/-! ### Operand text is printable -/

theorem printable_symbol (ty : RegType) : Printable (symbol ty) := by
  cases ty with
  | unk code =>
    have h1 : Printable (ascii "unk(") := by decide
    have h2 : Printable (ascii ")") := by decide
    exact (h1.append (printable_dec _)).append h2
  | _ => decide

theorem printable_regname (ty : RegType) (num : BitVec 11) : Printable (regname ty num) :=
  (printable_symbol ty).append (.ite (printable_dec _) .nil)

theorem printable_letter (c : Component) : Printable (letter c) := by cases c <;> decide

theorem printable_swztext (ty : RegType) (z : Swizzle) : Printable (swztext ty z) := by
  have hdot : Printable (ascii ".") := by decide
  exact .ite .nil (.ite .nil (.ite (hdot.append (printable_letter _))
    ((((hdot.append (printable_letter _)).append (printable_letter _)).append (printable_letter _)).append
      (printable_letter _))))

theorem printable_masktext (m : WriteMask) : Printable (masktext m) := by
  obtain ⟨a, b, c, d⟩ := m
  cases a <;> cases b <;> cases c <;> cases d <;> decide

theorem printable_dstmods (m : DstMods) : Printable (dstmods m) := by
  obtain ⟨a, b, c⟩ := m
  cases a <;> cases b <;> cases c <;> decide

theorem printable_modPre (m : SrcMod) : Printable (modPre m) := by cases m <;> decide

theorem printable_modSuf (m : SrcMod) : Printable (modSuf m) := by cases m <;> decide

theorem printable_dstop (d : DstOp) : Printable (dstop d) :=
  (printable_regname _ _).append (printable_masktext _)

theorem printable_srcop (s : SrcOp) : Printable (srcop s) :=
  (((printable_modPre _).append (printable_regname _ _)).append (printable_modSuf _)).append (printable_swztext _ _)

theorem printable_usageName (u : Usage) : Printable (usageName u) := by cases u <;> decide

theorem printable_textypeName (ty : TexType) : Printable (textypeName ty) := by
  cases ty with
  | unknown code => exact (by decide : Printable (ascii "unknown"))
  | _ => decide

/-! ### Rendering -/

/-- The text a rendering adds. -/
def Rendered.text : Rendered → Bytes
  | .done _ lines _ => lines
  | .truncated _ part => part

theorem emit_done (ops : List Bytes) (lines : Bytes) (used : Nat) (s : State) :
    emit (.done ops lines used) s = s.printed ops lines used := rfl

theorem emit_truncated (ops : List Bytes) (part : Bytes) (s : State) :
    emit (.truncated ops part) s = s.cutOff ops part := rfl

/-- Sources that are all there: every operand printed, one token each. -/
theorem renderSources_done (tok : Word) (body : Bytes) (ops : List Bytes) (used : Nat) (srcs : List SrcOp) :
    renderSources tok body ops used (srcs.map some) =
      .done (ops ++ srcs.map srcop) (mkline (body ++ opsuffix (ops ++ srcs.map srcop)) tok) (used + srcs.length) := by
  induction srcs generalizing ops used with
  | nil => simp [renderSources]
  | cons s rest ih => simp [renderSources, ih, Nat.add_comm, Nat.add_left_comm]

/-- A source that is missing: what is there before it is printed. -/
theorem renderSources_truncated (tok : Word) (body : Bytes) (ops : List Bytes) (used : Nat) (srcs : List SrcOp)
    (rest : List (Option SrcOp)) :
    renderSources tok body ops used (srcs.map some ++ none :: rest) =
      .truncated (ops ++ srcs.map srcop) (body ++ opsuffix (ops ++ srcs.map srcop)) := by
  induction srcs generalizing ops used with
  | nil => simp [renderSources]
  | cons s more ih => simp [renderSources, ih]

theorem printable_renderSources {tok : Word} {body : Bytes} {ops : List Bytes} {used : Nat}
    {srcs : List (Option SrcOp)} (hb : Printable body) (ho : ∀ o ∈ ops, Printable o) :
    Printable (renderSources tok body ops used srcs).text := by
  induction srcs generalizing ops used with
  | nil => exact printable_mkline (hb.append (printable_opsuffix ho)) tok
  | cons s rest ih =>
    cases s with
    | none => exact hb.append (printable_opsuffix ho)
    | some s =>
      refine ih fun o h => ?_
      rcases List.mem_append.1 h with h | h
      · exact ho o h
      · simp only [List.mem_singleton] at h; subst h; exact printable_srcop s

theorem printable_renderGeneric {name : Bytes} {tok : Word} {dst : Option (Option DstOp)} {srcs : List (Option SrcOp)}
    (h : Printable name) : Printable (renderGeneric name tok dst srcs).text := by
  match dst with
  | none => exact printable_renderSources h (by simp)
  | some none => exact h
  | some (some d) =>
    refine printable_renderSources (h.append (printable_dstmods _)) fun o ho => ?_
    simp only [List.mem_singleton] at ho; subst ho; exact printable_dstop d

theorem printable_renderDcl (tok : Word) (u : Option Decl) (d : Option DstOp) :
    Printable (renderDcl tok u d).text := by
  have h1 : Printable (ascii "DCL_") := by decide
  have h2 : Printable (ascii " ") := by decide
  match u, d with
  | none, _ => rfl
  | some u, none => rfl
  | some u, some d =>
    have hs : Printable (dclSamplerLine tok u d) :=
      .ite (printable_mkline (((h1.append (printable_textypeName _)).append h2).append (printable_dstop d)) tok) .nil
    exact hs.append (printable_mkline
      ((((h1.append (printable_usageName _)).append (printable_dec _)).append h2).append (printable_dstop d)) tok)

theorem printable_renderLiterals {tok : Word} {ops : List Bytes} {body : Bytes} {used : Nat}
    {literals : List (Option Word)} (h : Printable body) :
    Printable (renderLiterals tok ops body used literals).text := by
  induction literals generalizing ops body used with
  | nil => exact printable_mkline h tok
  | cons x rest ih =>
    have hc : Printable (ascii ", ") := by decide
    cases x with
    | none => exact h
    | some x => exact ih ((h.append hc).append (printable_floatText x))

theorem printable_renderDef (tok : Word) (d : Option DstOp) (literals : List (Option Word)) :
    Printable (renderDef tok d literals).text := by
  have h1 : Printable (ascii "DEF") := by decide
  have h2 : Printable (ascii " ") := by decide
  cases d with
  | none => exact h1
  | some d => exact printable_renderLiterals ((h1.append h2).append (printable_regname _ _))

/-! ### Meanings -/

/-- Whether an instruction is END. -/
def isEnd : Instr → Bool
  | .end_ _ => true
  | _ => false

/-- All that running a stream's instruction can do (R137, R143, R147): when complete, it prints and passes its tokens
(END also ends the loop); when truncated, it is cut off. -/
def StreamOutcome (i : Instr) (s : State) : Prop :=
  ∃ ops text, Printable text ∧
    exec i s = .next (
      if i.complete = true then
        (if isEnd i = true then endLoop .ok (s.printed ops text (encode i).length)
         else s.printed ops text (encode i).length)
      else s.cutOff ops text)


/-- From the rendering of an instruction to its outcome. -/
theorem streamOutcome_of_rendered {i : Instr} {s : State} {rendered : Rendered} (hp : Printable rendered.text)
    (hend : isEnd i = false) (hexec : exec i s = .next (emit rendered s))
    (hr : if i.complete = true then ∃ ops lines, rendered = .done ops lines (encode i).length
      else ∃ ops part, rendered = .truncated ops part) : StreamOutcome i s := by
  by_cases hc : i.complete = true
  · rw [if_pos hc] at hr
    obtain ⟨ops, lines, rfl⟩ := hr
    exact ⟨ops, lines, hp, by rw [hexec, if_pos hc, if_neg (by simp [hend])]; rfl⟩
  · rw [if_neg hc] at hr
    obtain ⟨ops, part, rfl⟩ := hr
    exact ⟨ops, part, hp, by rw [hexec, if_neg hc]; rfl⟩


theorem exec_stream_nop (hi : BitVec 16) (s : State) :
    StreamOutcome (.nop hi) s := by
  refine streamOutcome_of_rendered (printable_renderGeneric (by decide)) rfl rfl ?_
  simp [Instr.complete, renderGeneric, renderSources, encode]

theorem exec_stream_mov (hi : BitVec 16) (d : Option DstOp) (a : Option SrcOp) (s : State) :
    StreamOutcome (.mov hi d a) s := by
  refine streamOutcome_of_rendered (printable_renderGeneric (by decide)) rfl rfl ?_
  cases d <;> cases a <;> simp [Instr.complete, renderGeneric, renderSources, encode, operandToks]

theorem exec_stream_add (hi : BitVec 16) (d : Option DstOp) (a b : Option SrcOp) (s : State) :
    StreamOutcome (.add hi d a b) s := by
  refine streamOutcome_of_rendered (printable_renderGeneric (by decide)) rfl rfl ?_
  cases d <;> cases a <;> cases b <;> simp [Instr.complete, renderGeneric, renderSources, encode, operandToks]

theorem exec_stream_sub (hi : BitVec 16) (d : Option DstOp) (a b : Option SrcOp) (s : State) :
    StreamOutcome (.sub hi d a b) s := by
  refine streamOutcome_of_rendered (printable_renderGeneric (by decide)) rfl rfl ?_
  cases d <;> cases a <;> cases b <;> simp [Instr.complete, renderGeneric, renderSources, encode, operandToks]

theorem exec_stream_mad (hi : BitVec 16) (d : Option DstOp) (a b c : Option SrcOp) (s : State) :
    StreamOutcome (.mad hi d a b c) s := by
  refine streamOutcome_of_rendered (printable_renderGeneric (by decide)) rfl rfl ?_
  cases d <;> cases a <;> cases b <;> cases c <;>
    simp [Instr.complete, renderGeneric, renderSources, encode, operandToks]

theorem exec_stream_mul (hi : BitVec 16) (d : Option DstOp) (a b : Option SrcOp) (s : State) :
    StreamOutcome (.mul hi d a b) s := by
  refine streamOutcome_of_rendered (printable_renderGeneric (by decide)) rfl rfl ?_
  cases d <;> cases a <;> cases b <;> simp [Instr.complete, renderGeneric, renderSources, encode, operandToks]

theorem exec_stream_rcp (hi : BitVec 16) (d : Option DstOp) (a : Option SrcOp) (s : State) :
    StreamOutcome (.rcp hi d a) s := by
  refine streamOutcome_of_rendered (printable_renderGeneric (by decide)) rfl rfl ?_
  cases d <;> cases a <;> simp [Instr.complete, renderGeneric, renderSources, encode, operandToks]

theorem exec_stream_rsq (hi : BitVec 16) (d : Option DstOp) (a : Option SrcOp) (s : State) :
    StreamOutcome (.rsq hi d a) s := by
  refine streamOutcome_of_rendered (printable_renderGeneric (by decide)) rfl rfl ?_
  cases d <;> cases a <;> simp [Instr.complete, renderGeneric, renderSources, encode, operandToks]

theorem exec_stream_dp3 (hi : BitVec 16) (d : Option DstOp) (a b : Option SrcOp) (s : State) :
    StreamOutcome (.dp3 hi d a b) s := by
  refine streamOutcome_of_rendered (printable_renderGeneric (by decide)) rfl rfl ?_
  cases d <;> cases a <;> cases b <;> simp [Instr.complete, renderGeneric, renderSources, encode, operandToks]

theorem exec_stream_dp4 (hi : BitVec 16) (d : Option DstOp) (a b : Option SrcOp) (s : State) :
    StreamOutcome (.dp4 hi d a b) s := by
  refine streamOutcome_of_rendered (printable_renderGeneric (by decide)) rfl rfl ?_
  cases d <;> cases a <;> cases b <;> simp [Instr.complete, renderGeneric, renderSources, encode, operandToks]

theorem exec_stream_min (hi : BitVec 16) (d : Option DstOp) (a b : Option SrcOp) (s : State) :
    StreamOutcome (.min hi d a b) s := by
  refine streamOutcome_of_rendered (printable_renderGeneric (by decide)) rfl rfl ?_
  cases d <;> cases a <;> cases b <;> simp [Instr.complete, renderGeneric, renderSources, encode, operandToks]

theorem exec_stream_max (hi : BitVec 16) (d : Option DstOp) (a b : Option SrcOp) (s : State) :
    StreamOutcome (.max hi d a b) s := by
  refine streamOutcome_of_rendered (printable_renderGeneric (by decide)) rfl rfl ?_
  cases d <;> cases a <;> cases b <;> simp [Instr.complete, renderGeneric, renderSources, encode, operandToks]

theorem exec_stream_slt (hi : BitVec 16) (d : Option DstOp) (a b : Option SrcOp) (s : State) :
    StreamOutcome (.slt hi d a b) s := by
  refine streamOutcome_of_rendered (printable_renderGeneric (by decide)) rfl rfl ?_
  cases d <;> cases a <;> cases b <;> simp [Instr.complete, renderGeneric, renderSources, encode, operandToks]

theorem exec_stream_sge (hi : BitVec 16) (d : Option DstOp) (a b : Option SrcOp) (s : State) :
    StreamOutcome (.sge hi d a b) s := by
  refine streamOutcome_of_rendered (printable_renderGeneric (by decide)) rfl rfl ?_
  cases d <;> cases a <;> cases b <;> simp [Instr.complete, renderGeneric, renderSources, encode, operandToks]

theorem exec_stream_exp (hi : BitVec 16) (d : Option DstOp) (a : Option SrcOp) (s : State) :
    StreamOutcome (.exp hi d a) s := by
  refine streamOutcome_of_rendered (printable_renderGeneric (by decide)) rfl rfl ?_
  cases d <;> cases a <;> simp [Instr.complete, renderGeneric, renderSources, encode, operandToks]

theorem exec_stream_log (hi : BitVec 16) (d : Option DstOp) (a : Option SrcOp) (s : State) :
    StreamOutcome (.log hi d a) s := by
  refine streamOutcome_of_rendered (printable_renderGeneric (by decide)) rfl rfl ?_
  cases d <;> cases a <;> simp [Instr.complete, renderGeneric, renderSources, encode, operandToks]

theorem exec_stream_lit (hi : BitVec 16) (d : Option DstOp) (a : Option SrcOp) (s : State) :
    StreamOutcome (.lit hi d a) s := by
  refine streamOutcome_of_rendered (printable_renderGeneric (by decide)) rfl rfl ?_
  cases d <;> cases a <;> simp [Instr.complete, renderGeneric, renderSources, encode, operandToks]

theorem exec_stream_dst (hi : BitVec 16) (d : Option DstOp) (a b : Option SrcOp) (s : State) :
    StreamOutcome (.dst hi d a b) s := by
  refine streamOutcome_of_rendered (printable_renderGeneric (by decide)) rfl rfl ?_
  cases d <;> cases a <;> cases b <;> simp [Instr.complete, renderGeneric, renderSources, encode, operandToks]

theorem exec_stream_lrp (hi : BitVec 16) (d : Option DstOp) (a b c : Option SrcOp) (s : State) :
    StreamOutcome (.lrp hi d a b c) s := by
  refine streamOutcome_of_rendered (printable_renderGeneric (by decide)) rfl rfl ?_
  cases d <;> cases a <;> cases b <;> cases c <;>
    simp [Instr.complete, renderGeneric, renderSources, encode, operandToks]

theorem exec_stream_frc (hi : BitVec 16) (d : Option DstOp) (a : Option SrcOp) (s : State) :
    StreamOutcome (.frc hi d a) s := by
  refine streamOutcome_of_rendered (printable_renderGeneric (by decide)) rfl rfl ?_
  cases d <;> cases a <;> simp [Instr.complete, renderGeneric, renderSources, encode, operandToks]

theorem exec_stream_m4x4 (hi : BitVec 16) (d : Option DstOp) (a b : Option SrcOp) (s : State) :
    StreamOutcome (.m4x4 hi d a b) s := by
  refine streamOutcome_of_rendered (printable_renderGeneric (by decide)) rfl rfl ?_
  cases d <;> cases a <;> cases b <;> simp [Instr.complete, renderGeneric, renderSources, encode, operandToks]

theorem exec_stream_m4x3 (hi : BitVec 16) (d : Option DstOp) (a b : Option SrcOp) (s : State) :
    StreamOutcome (.m4x3 hi d a b) s := by
  refine streamOutcome_of_rendered (printable_renderGeneric (by decide)) rfl rfl ?_
  cases d <;> cases a <;> cases b <;> simp [Instr.complete, renderGeneric, renderSources, encode, operandToks]

theorem exec_stream_m3x4 (hi : BitVec 16) (d : Option DstOp) (a b : Option SrcOp) (s : State) :
    StreamOutcome (.m3x4 hi d a b) s := by
  refine streamOutcome_of_rendered (printable_renderGeneric (by decide)) rfl rfl ?_
  cases d <;> cases a <;> cases b <;> simp [Instr.complete, renderGeneric, renderSources, encode, operandToks]

theorem exec_stream_m3x3 (hi : BitVec 16) (d : Option DstOp) (a b : Option SrcOp) (s : State) :
    StreamOutcome (.m3x3 hi d a b) s := by
  refine streamOutcome_of_rendered (printable_renderGeneric (by decide)) rfl rfl ?_
  cases d <;> cases a <;> cases b <;> simp [Instr.complete, renderGeneric, renderSources, encode, operandToks]

theorem exec_stream_m3x2 (hi : BitVec 16) (d : Option DstOp) (a b : Option SrcOp) (s : State) :
    StreamOutcome (.m3x2 hi d a b) s := by
  refine streamOutcome_of_rendered (printable_renderGeneric (by decide)) rfl rfl ?_
  cases d <;> cases a <;> cases b <;> simp [Instr.complete, renderGeneric, renderSources, encode, operandToks]

theorem exec_stream_call (hi : BitVec 16) (a : Option SrcOp) (s : State) :
    StreamOutcome (.call hi a) s := by
  refine streamOutcome_of_rendered (printable_renderGeneric (by decide)) rfl rfl ?_
  cases a <;> simp [Instr.complete, renderGeneric, renderSources, encode, operandToks]

theorem exec_stream_callnz (hi : BitVec 16) (a b : Option SrcOp) (s : State) :
    StreamOutcome (.callnz hi a b) s := by
  refine streamOutcome_of_rendered (printable_renderGeneric (by decide)) rfl rfl ?_
  cases a <;> cases b <;> simp [Instr.complete, renderGeneric, renderSources, encode, operandToks]

theorem exec_stream_loop (hi : BitVec 16) (a b : Option SrcOp) (s : State) :
    StreamOutcome (.loop hi a b) s := by
  refine streamOutcome_of_rendered (printable_renderGeneric (by decide)) rfl rfl ?_
  cases a <;> cases b <;> simp [Instr.complete, renderGeneric, renderSources, encode, operandToks]

theorem exec_stream_ret (hi : BitVec 16) (s : State) :
    StreamOutcome (.ret hi) s := by
  refine streamOutcome_of_rendered (printable_renderGeneric (by decide)) rfl rfl ?_
  simp [Instr.complete, renderGeneric, renderSources, encode]

theorem exec_stream_endloop (hi : BitVec 16) (s : State) :
    StreamOutcome (.endloop hi) s := by
  refine streamOutcome_of_rendered (printable_renderGeneric (by decide)) rfl rfl ?_
  simp [Instr.complete, renderGeneric, renderSources, encode]

theorem exec_stream_label (hi : BitVec 16) (a : Option SrcOp) (s : State) :
    StreamOutcome (.label hi a) s := by
  refine streamOutcome_of_rendered (printable_renderGeneric (by decide)) rfl rfl ?_
  cases a <;> simp [Instr.complete, renderGeneric, renderSources, encode, operandToks]

theorem exec_stream_pow (hi : BitVec 16) (d : Option DstOp) (a b : Option SrcOp) (s : State) :
    StreamOutcome (.pow hi d a b) s := by
  refine streamOutcome_of_rendered (printable_renderGeneric (by decide)) rfl rfl ?_
  cases d <;> cases a <;> cases b <;> simp [Instr.complete, renderGeneric, renderSources, encode, operandToks]

theorem exec_stream_crs (hi : BitVec 16) (d : Option DstOp) (a b : Option SrcOp) (s : State) :
    StreamOutcome (.crs hi d a b) s := by
  refine streamOutcome_of_rendered (printable_renderGeneric (by decide)) rfl rfl ?_
  cases d <;> cases a <;> cases b <;> simp [Instr.complete, renderGeneric, renderSources, encode, operandToks]

theorem exec_stream_sgn (hi : BitVec 16) (d : Option DstOp) (a b c : Option SrcOp) (s : State) :
    StreamOutcome (.sgn hi d a b c) s := by
  refine streamOutcome_of_rendered (printable_renderGeneric (by decide)) rfl rfl ?_
  cases d <;> cases a <;> cases b <;> cases c <;>
    simp [Instr.complete, renderGeneric, renderSources, encode, operandToks]

theorem exec_stream_abs (hi : BitVec 16) (d : Option DstOp) (a : Option SrcOp) (s : State) :
    StreamOutcome (.abs hi d a) s := by
  refine streamOutcome_of_rendered (printable_renderGeneric (by decide)) rfl rfl ?_
  cases d <;> cases a <;> simp [Instr.complete, renderGeneric, renderSources, encode, operandToks]

theorem exec_stream_nrm (hi : BitVec 16) (d : Option DstOp) (a : Option SrcOp) (s : State) :
    StreamOutcome (.nrm hi d a) s := by
  refine streamOutcome_of_rendered (printable_renderGeneric (by decide)) rfl rfl ?_
  cases d <;> cases a <;> simp [Instr.complete, renderGeneric, renderSources, encode, operandToks]

theorem exec_stream_sincos (hi : BitVec 16) (d : Option DstOp) (a b c : Option SrcOp) (s : State) :
    StreamOutcome (.sincos hi d a b c) s := by
  refine streamOutcome_of_rendered (printable_renderGeneric (by decide)) rfl rfl ?_
  cases d <;> cases a <;> cases b <;> cases c <;>
    simp [Instr.complete, renderGeneric, renderSources, encode, operandToks]

theorem exec_stream_rep (hi : BitVec 16) (a : Option SrcOp) (s : State) :
    StreamOutcome (.rep hi a) s := by
  refine streamOutcome_of_rendered (printable_renderGeneric (by decide)) rfl rfl ?_
  cases a <;> simp [Instr.complete, renderGeneric, renderSources, encode, operandToks]

theorem exec_stream_endrep (hi : BitVec 16) (s : State) :
    StreamOutcome (.endrep hi) s := by
  refine streamOutcome_of_rendered (printable_renderGeneric (by decide)) rfl rfl ?_
  simp [Instr.complete, renderGeneric, renderSources, encode]

theorem exec_stream_mova (hi : BitVec 16) (d : Option DstOp) (a : Option SrcOp) (s : State) :
    StreamOutcome (.mova hi d a) s := by
  refine streamOutcome_of_rendered (printable_renderGeneric (by decide)) rfl rfl ?_
  cases d <;> cases a <;> simp [Instr.complete, renderGeneric, renderSources, encode, operandToks]

theorem exec_stream_phase (hi : BitVec 16) (s : State) :
    StreamOutcome (.phase hi) s := by
  refine streamOutcome_of_rendered (printable_renderGeneric (by decide)) rfl rfl ?_
  simp [Instr.complete, renderGeneric, renderSources, encode]

theorem exec_stream_end_ (hi : BitVec 16) (s : State) :
    StreamOutcome (.end_ hi) s := by
  refine ⟨[], mkline (ascii "END") (opTok hi 0xFFFF), printable_mkline (by decide) _, ?_⟩
  simp [Instr.complete, isEnd, encode, exec, execEnd, renderGeneric, renderSources, emit_done, opsuffix]

theorem exec_stream_dcl (hi : BitVec 16) (u : Option Decl) (d : Option DstOp) (s : State) :
    StreamOutcome (.dcl hi u d) s := by
  refine streamOutcome_of_rendered (printable_renderDcl _ _ _) rfl rfl ?_
  cases u <;> cases d <;> simp [Instr.complete, renderDcl, encode]

theorem exec_stream_tex (hi : BitVec 16) (d : Option DstOp) (s : State) :
    StreamOutcome (.tex hi d) s := by
  refine streamOutcome_of_rendered (printable_renderGeneric (by decide)) rfl rfl ?_
  cases d <;> simp [Instr.complete, renderGeneric, renderSources, encode, operandToks]

theorem exec_stream_texld14 (hi : BitVec 16) (d : Option DstOp) (a : Option SrcOp) (s : State) :
    StreamOutcome (.texld14 hi d a) s := by
  refine streamOutcome_of_rendered (printable_renderGeneric (by decide)) rfl rfl ?_
  cases d <;> cases a <;> simp [Instr.complete, renderGeneric, renderSources, encode, operandToks]

theorem exec_stream_texld20 (hi : BitVec 16) (d : Option DstOp) (a b : Option SrcOp) (s : State) :
    StreamOutcome (.texld20 hi d a b) s := by
  refine streamOutcome_of_rendered (printable_renderGeneric (by decide)) rfl rfl ?_
  cases d <;> cases a <;> cases b <;> simp [Instr.complete, renderGeneric, renderSources, encode, operandToks]

theorem exec_stream_def_ (hi : BitVec 16) (d : Option DstOp) (f0 f1 f2 f3 : Option Word) (s : State) :
    StreamOutcome (.def_ hi d f0 f1 f2 f3) s := by
  refine streamOutcome_of_rendered (printable_renderDef _ _ _) rfl rfl ?_
  cases d <;> cases f0 <;> cases f1 <;> cases f2 <;> cases f3 <;>
    simp [Instr.complete, renderDef, renderLiterals, encode]

theorem exec_stream_unrecognised (tok : Word) (s : State) :
    StreamOutcome (.unrecognised tok) s := by
  refine ⟨[], [], rfl, ?_⟩
  simp [Instr.complete, isEnd, encode, exec, execUnrecognised, emit_done]

/-- Every instruction of a stream has one of the outcomes above. -/
theorem exec_stream {i : Instr} {major minor : BitVec 8} (h : (Place.stream major minor).admits i = true) (s : State) :
    StreamOutcome i s := by
  cases i with
  | decodeBc1 => simp [Place.admits] at h
  | decodeBc2 => simp [Place.admits] at h
  | decodeBc3 => simp [Place.admits] at h
  | decodeBc4 => simp [Place.admits] at h
  | decodeBc5 => simp [Place.admits] at h
  | unsupportedFormat5 => simp [Place.admits] at h
  | unsupportedFormat6 => simp [Place.admits] at h
  | unsupportedFormat7 => simp [Place.admits] at h
  | headerPs => simp [Place.admits] at h
  | headerVs => simp [Place.admits] at h
  | headerRejected => simp [Place.admits] at h
  | nop hi => exact exec_stream_nop hi s
  | mov hi d a => exact exec_stream_mov hi d a s
  | add hi d a b => exact exec_stream_add hi d a b s
  | sub hi d a b => exact exec_stream_sub hi d a b s
  | mad hi d a b c => exact exec_stream_mad hi d a b c s
  | mul hi d a b => exact exec_stream_mul hi d a b s
  | rcp hi d a => exact exec_stream_rcp hi d a s
  | rsq hi d a => exact exec_stream_rsq hi d a s
  | dp3 hi d a b => exact exec_stream_dp3 hi d a b s
  | dp4 hi d a b => exact exec_stream_dp4 hi d a b s
  | min hi d a b => exact exec_stream_min hi d a b s
  | max hi d a b => exact exec_stream_max hi d a b s
  | slt hi d a b => exact exec_stream_slt hi d a b s
  | sge hi d a b => exact exec_stream_sge hi d a b s
  | exp hi d a => exact exec_stream_exp hi d a s
  | log hi d a => exact exec_stream_log hi d a s
  | lit hi d a => exact exec_stream_lit hi d a s
  | dst hi d a b => exact exec_stream_dst hi d a b s
  | lrp hi d a b c => exact exec_stream_lrp hi d a b c s
  | frc hi d a => exact exec_stream_frc hi d a s
  | m4x4 hi d a b => exact exec_stream_m4x4 hi d a b s
  | m4x3 hi d a b => exact exec_stream_m4x3 hi d a b s
  | m3x4 hi d a b => exact exec_stream_m3x4 hi d a b s
  | m3x3 hi d a b => exact exec_stream_m3x3 hi d a b s
  | m3x2 hi d a b => exact exec_stream_m3x2 hi d a b s
  | call hi a => exact exec_stream_call hi a s
  | callnz hi a b => exact exec_stream_callnz hi a b s
  | loop hi a b => exact exec_stream_loop hi a b s
  | ret hi => exact exec_stream_ret hi s
  | endloop hi => exact exec_stream_endloop hi s
  | label hi a => exact exec_stream_label hi a s
  | pow hi d a b => exact exec_stream_pow hi d a b s
  | crs hi d a b => exact exec_stream_crs hi d a b s
  | sgn hi d a b c => exact exec_stream_sgn hi d a b c s
  | abs hi d a => exact exec_stream_abs hi d a s
  | nrm hi d a => exact exec_stream_nrm hi d a s
  | sincos hi d a b c => exact exec_stream_sincos hi d a b c s
  | rep hi a => exact exec_stream_rep hi a s
  | endrep hi => exact exec_stream_endrep hi s
  | mova hi d a => exact exec_stream_mova hi d a s
  | phase hi => exact exec_stream_phase hi s
  | end_ hi => exact exec_stream_end_ hi s
  | dcl hi u d => exact exec_stream_dcl hi u d s
  | tex hi d => exact exec_stream_tex hi d s
  | texld14 hi d a => exact exec_stream_texld14 hi d a s
  | texld20 hi d a b => exact exec_stream_texld20 hi d a b s
  | def_ hi d f0 f1 f2 f3 => exact exec_stream_def_ hi d f0 f1 f2 f3 s
  | unrecognised tok => exact exec_stream_unrecognised tok s

/-- All that running a header token can do (R132, R133). -/
theorem exec_header {i : Instr} (h : Place.header.admits i = true) (s : State) :
    (∃ prog major minor, (prog = "ps" ∨ prog = "vs") ∧ exec i s = .next (emitHeader prog major minor s)) ∨
      exec i s = .next { s with sbdInt := { s.sbdInt with ended := some (.unsupportedFormat, 0) } } := by
  cases i
  case headerPs major minor => exact .inl ⟨"ps", major, minor, .inl rfl, rfl⟩
  case headerVs major minor => exact .inl ⟨"vs", major, minor, .inr rfl, rfl⟩
  case headerRejected tok => exact .inr rfl
  all_goals simp [Place.admits] at h

/-- A header token's instruction stands at the header. -/
theorem admits_decodeHeader (tok : Word) : Place.header.admits (decodeHeader tok) = true := by
  unfold decodeHeader; split
  · rfl
  · split <;> rfl

end Sys2Proof.Machine
end

