-- ==== Sys2Proof/Laws/Engine.lean ====
section
/-! SUPPORT. All that a step of the SBD, its completion and its fetch can do, and when the host's duties hold. -/

namespace Sys2Proof.Machine

-- One proof at a time: in the package as one text their threads run out of memory.
set_option Elab.async false

/-! ### Fetching -/

@[simp] theorem length_tokensFrom (s : State) (k count : Nat) : (tokensFrom s k count).length = count := by
  induction count generalizing k with
  | zero => rfl
  | succ count ih => simp [tokensFrom, ih]

theorem getElem?_tokensFrom (s : State) (k count j : Nat) :
    (tokensFrom s k count)[j]? = if j < count then some (tokenAt s (k + j)) else none := by
  induction count generalizing k j with
  | zero => simp [tokensFrom]
  | succ count ih =>
    cases j with
    | zero => simp [tokensFrom]
    | succ j => simp [tokensFrom, ih, Nat.add_assoc, Nat.add_comm 1 j]

theorem drop_tokensFrom (s : State) (k count j : Nat) :
    (tokensFrom s k count).drop j = tokensFrom s (k + j) (count - j) := by
  apply List.ext_getElem?
  intro i
  rw [List.getElem?_drop, getElem?_tokensFrom, getElem?_tokensFrom, Nat.add_assoc]
  split <;> split <;> first | rfl | omega

theorem take_tokensFrom (s : State) (k count j : Nat) :
    (tokensFrom s k count).take j = tokensFrom s k (min j count) := by
  apply List.ext_getElem?
  intro i
  rw [List.getElem?_take, getElem?_tokensFrom, getElem?_tokensFrom]
  by_cases h1 : i < j <;> by_cases h2 : i < count <;> simp [h1, h2]

/-- Tokens depend on memory and the latched address alone. -/
theorem tokenAt_congr {s t : State} (hm : t.mem = s.mem) (hl : t.sbdLatch = s.sbdLatch) (k : Nat) :
    tokenAt t k = tokenAt s k := by
  simp [tokenAt, hm, hl]

theorem tokensFrom_congr {s t : State} (hm : t.mem = s.mem) (hl : t.sbdLatch = s.sbdLatch) (k count : Nat) :
    tokensFrom t k count = tokensFrom s k count := by
  induction count generalizing k with
  | zero => rfl
  | succ count ih => rw [tokensFrom, tokensFrom, ih, tokenAt_congr hm hl]

theorem toNat_le32 (buf : Bytes) (k : Nat) :
    (le32 buf k).toNat = (byteAt buf k).toNat + 2 ^ 8 * (byteAt buf (k + 1)).toNat +
      2 ^ 16 * (byteAt buf (k + 2)).toNat + 2 ^ 24 * (byteAt buf (k + 3)).toNat := by
  simp only [le32]
  have h (w : Nat) (x : BitVec w) (y : Byte) : (x ++ y).toNat = x.toNat * 2 ^ 8 + y.toNat := by
    rw [BitVec.toNat_append, Nat.shiftLeft_eq, Nat.mul_comm, ← Nat.two_pow_add_eq_or_of_lt y.isLt]
  change BitVec.toNat (w := 8 + 8 + 8 + 8) _ = _
  rw [h, h, h]
  omega

/-- Token k is the little-endian word at its place (R46). -/
theorem toNat_tokenAt (s : State) (k : Nat) :
    (tokenAt s k).toNat = (s.mem.read (s.sbdLatch.srcAddr.toNat + 4 * k)).toNat +
      2 ^ 8 * (s.mem.read (s.sbdLatch.srcAddr.toNat + 4 * k + 1)).toNat +
      2 ^ 16 * (s.mem.read (s.sbdLatch.srcAddr.toNat + 4 * k + 2)).toNat +
      2 ^ 24 * (s.mem.read (s.sbdLatch.srcAddr.toNat + 4 * k + 3)).toNat := by
  rw [tokenAt, toNat_le32]
  simp [byteAt_readBytes]

/-! ### Lengths -/

theorem opcodeLength_pos (version : BitVec 8 × BitVec 8) (op : Nat) : 1 ≤ opcodeLength version op := by
  unfold opcodeLength
  dsimp only
  split
  · omega
  split
  · omega
  split
  · omega
  split <;> omega

theorem arity_sources {op : Nat} {r : String × Bool × Nat} (h : arity op = some r) : r.2.2 ≤ 3 := by
  unfold arity at h
  split at h <;> simp_all <;> subst h <;> simp

theorem opcodeLength_le (version : BitVec 8 × BitVec 8) (op : Nat) : opcodeLength version op ≤ 6 := by
  unfold opcodeLength
  dsimp only
  split
  · omega
  split
  · omega
  split
  · unfold texRow
    split <;> simp
  split
  · rename_i r hr
    have := arity_sources hr
    split <;> omega
  · omega

/-! ### The decode loop -/

theorem loopExit_none {i : SbdInternal} (h : loopExit i = none) :
    i.ended = none ∧ 0 < i.n ∧ (i.cur = 0 ∨ i.cur < i.n) := by
  unfold loopExit at h
  split at h
  · rename_i hs; rw [h] at hs; simp at hs
  · split at h
    · simp at h
    · split at h
      · rename_i h1 h2 h3
        exact ⟨by simpa using h1, by omega, h3⟩
      · simp at h

theorem loopExit_running {i : SbdInternal} (h : i.ended = none) (hn : 0 < i.n) (hc : i.cur = 0 ∨ i.cur < i.n) :
    loopExit i = none := by
  unfold loopExit
  rw [h]
  simp only [Option.isSome_none, Bool.false_eq_true, if_false]
  rw [if_neg (by omega), if_pos hc]

/-- A step at the header runs the header token. -/
theorem sbdStep_header {s : State} (hw : (sbdInput s.sbdLatch).wraps = false) (hx : loopExit s.sbdInt = none)
    (hc : s.sbdInt.cur = 0) : sbdStep s = exec (decodeHeader (tokenAt s 0)) s := by
  obtain ⟨-, hn, -⟩ := loopExit_none hx
  have hcount : Nat.min 6 s.sbdInt.n = min 5 (s.sbdInt.n - 1) + 1 := by
    show min 6 _ = _
    omega
  simp [sbdStep, hw, hx, sbdPlace, hc, fetchTokens, hcount, tokensFrom, decode]

/-- The tokens after the one at the cursor that the SBD has fetched. -/
def fetchedRest (s : State) : List Word := tokensFrom s (s.sbdInt.cur + 1) (min 5 (s.sbdInt.n - s.sbdInt.cur - 1))

/-- A step past the header runs the instruction at the cursor. -/
theorem sbdStep_stream {s : State} (hw : (sbdInput s.sbdLatch).wraps = false) (hx : loopExit s.sbdInt = none)
    (hc : 0 < s.sbdInt.cur) :
    sbdStep s =
      exec (decodeOpcode (s.sbdInt.major, s.sbdInt.minor) (tokenAt s s.sbdInt.cur) (fetchedRest s)).1 s := by
  obtain ⟨-, hn, hlt⟩ := loopExit_none hx
  have hlt' : s.sbdInt.cur < s.sbdInt.n := by omega
  have hcount : Nat.min 6 (s.sbdInt.n - s.sbdInt.cur) = min 5 (s.sbdInt.n - s.sbdInt.cur - 1) + 1 := by
    show min 6 _ = _
    omega
  have hne : ¬ s.sbdInt.cur = 0 := by omega
  simp [sbdStep, hw, hx, sbdPlace, hne, fetchTokens, hcount, tokensFrom, decode, fetchedRest]

/-- All that a step past the header can do: print and pass the opcode's tokens, END also ending the loop; or, where
they run past n, print what is there and end (R143, R147). -/
theorem sbdStep_stream_outcome {s : State} (hw : (sbdInput s.sbdLatch).wraps = false)
    (hx : loopExit s.sbdInt = none) (hc : 0 < s.sbdInt.cur) {op len : Nat}
    (hop : op = ((tokenAt s s.sbdInt.cur).extractLsb' 0 16).toNat)
    (hlen : len = opcodeLength (s.sbdInt.major, s.sbdInt.minor) op) :
    ∃ ops text, Printable text ∧ sbdStep s = .next (
      if s.sbdInt.cur + len ≤ s.sbdInt.n then
        (if op = 65535 then endLoop .ok (s.printed ops text len) else s.printed ops text len)
      else s.cutOff ops text) := by
  obtain ⟨-, hn, hlt⟩ := loopExit_none hx
  have hs := decodeOpcode_spec (s.sbdInt.major, s.sbdInt.minor) (tokenAt s s.sbdInt.cur) (fetchedRest s)
  have hl := length_encode_decodeOpcode (s.sbdInt.major, s.sbdInt.minor) (tokenAt s s.sbdInt.cur) (fetchedRest s)
  rw [sbdStep_stream hw hx hc]
  obtain ⟨ops, text, hp, he⟩ := exec_stream hs.admits s
  refine ⟨ops, text, hp, ?_⟩
  rw [he]
  have hlen6 := opcodeLength_le (s.sbdInt.major, s.sbdInt.minor) op
  have hcomp := hs.complete
  have hends := hs.ends
  rw [← hop] at hcomp hl hends
  rw [← hlen] at hcomp hl hlen6
  have hrest : (fetchedRest s).length = min 5 (s.sbdInt.n - s.sbdInt.cur - 1) := by simp [fetchedRest]
  rw [hrest] at hcomp
  have hiff : (decodeOpcode (s.sbdInt.major, s.sbdInt.minor) (tokenAt s s.sbdInt.cur) (fetchedRest s)).1.complete =
      true ↔ s.sbdInt.cur + len ≤ s.sbdInt.n := by rw [hcomp]; omega
  generalize (decodeOpcode (s.sbdInt.major, s.sbdInt.minor) (tokenAt s s.sbdInt.cur) (fetchedRest s)).1 = i at *
  have hend : isEnd i = true ↔ op = 65535 := by
    rw [← hends]; cases i <;> simp [isEnd]
  congr 1
  by_cases hle : s.sbdInt.cur + len ≤ s.sbdInt.n
  · have hci := hiff.2 hle
    rw [if_pos hci, if_pos hle, hl hci]
    by_cases h5 : op = 65535
    · rw [if_pos h5, if_pos (hend.2 h5)]
    · rw [if_neg h5, if_neg fun h => h5 (hend.1 h)]
  · rw [if_neg hle, if_neg fun h => hle (hiff.1 h)]

/-! ### Duties -/

theorem Extent.wraps_eq_false {r : Extent} : r.wraps = false ↔ r.base + r.len ≤ sysSize := by
  simp [Extent.wraps]

/-- The duties hold exactly when the ranges are legal (R58 to R60). -/
theorem brokenDuty_eq_none {f : Footprint} {written : Extent} {others : List Footprint} {guarded : List Extent} :
    brokenDuty f written others guarded = none ↔ rangesLegal f written others guarded := by
  have ite_none (c : Bool) (r : Refusal) (x : Option Refusal) :
      (if c then some r else x) = none ↔ c = false ∧ x = none := by cases c <;> simp
  unfold brokenDuty rangesLegal
  rw [← Extent.wraps_eq_false, ← Extent.wraps_eq_false]
  simp only [ite_none, List.any_eq_false, Bool.or_eq_true, not_or, Bool.not_eq_true, and_true]

/-- Two ranges with a common byte overlap. -/
theorem Extent.overlaps_of_contains {r q : Extent} {a : Nat} (hr : r.contains a = true) (hq : q.contains a = true) :
    r.overlaps q = true := by
  simp only [Extent.contains, Bool.and_eq_true, decide_eq_true_eq] at hr hq
  simp only [Extent.overlaps, decide_eq_true_eq]
  change max r.base q.base < min _ _
  omega

/-- Overlapping ranges have a common byte. -/
theorem Extent.contains_of_overlaps {r q : Extent} (h : r.overlaps q = true) :
    ∃ a, r.contains a = true ∧ q.contains a = true := by
  simp only [Extent.overlaps, decide_eq_true_eq] at h
  change max r.base q.base < min _ _ at h
  exact ⟨max r.base q.base, by simp [Extent.contains]; omega, by simp [Extent.contains]; omega⟩

theorem length_sbdWritten (s : State) :
    (sbdWritten s).length = min s.sbdInt.text.length s.sbdLatch.dstCap.toNat := by
  simp [sbdWritten, Nat.min_comm]

/-- All that the SBD's completion step can do (R229). -/
theorem sbdFinish_next {st : Status} {c : Nat} {s t : State} (h : sbdFinish st c s = .next t) :
    t = sbdComplete st c s ∧
      rangesLegal (sbdFootprint s.sbdLatch) (sbdTextRange s) (sbdRivals s) (unseenInputs s) := by
  unfold sbdFinish at h
  split at h
  · simp at h
  · rename_i hn
    exact ⟨by simpa using h.symm, brokenDuty_eq_none.1 hn⟩

theorem sbdFinish_of_legal {st : Status} {c : Nat} {s : State}
    (h : rangesLegal (sbdFootprint s.sbdLatch) (sbdTextRange s) (sbdRivals s) (unseenInputs s)) :
    sbdFinish st c s = .next (sbdComplete st c s) := by
  unfold sbdFinish
  rw [brokenDuty_eq_none.2 h]

/-- All that the SBD's step can do. -/
theorem sbdStep_next {s t : State} (h : sbdStep s = .next t) :
    (sbdInput s.sbdLatch).wraps = false ∧
      ((∃ st c, loopExit s.sbdInt = some (st, c) ∧ sbdFinish st c s = .next t) ∨
        (loopExit s.sbdInt = none ∧ s.sbdInt.cur = 0 ∧ exec (decodeHeader (tokenAt s 0)) s = .next t) ∨
        (loopExit s.sbdInt = none ∧ 0 < s.sbdInt.cur ∧
          exec (decodeOpcode (s.sbdInt.major, s.sbdInt.minor) (tokenAt s s.sbdInt.cur) (fetchedRest s)).1 s =
            .next t)) := by
  by_cases hw : (sbdInput s.sbdLatch).wraps = true
  · simp [sbdStep, hw] at h
  · have hw' : (sbdInput s.sbdLatch).wraps = false := by simpa using hw
    refine ⟨hw', ?_⟩
    cases hx : loopExit s.sbdInt with
    | some e =>
      obtain ⟨st, c⟩ := e
      refine .inl ⟨st, c, rfl, ?_⟩
      simpa [sbdStep, hw', hx] using h
    | none =>
      right
      rcases Nat.eq_zero_or_pos s.sbdInt.cur with hc | hc
      · exact .inl ⟨rfl, hc, by rw [← sbdStep_header hw' hx hc]; exact h⟩
      · exact .inr ⟨rfl, hc, by rw [← sbdStep_stream hw' hx hc]; exact h⟩

end Sys2Proof.Machine
end

