-- ==== Sys2Proof/Laws/Bcd.lean ====
section
/-! SUPPORT. All that a BCD command can do: its outcomes, and what each output byte holds (R100, R105, R106). -/

namespace Sys2Proof.Machine

-- One proof at a time: in the package as one text their threads run out of memory.
set_option Elab.async false

/-! ### Positions -/

/-- The output byte a position names, relative to DST_ADDR (R49). -/
def pixelOffset (w ch x y c : Nat) : Nat := (y * w + x) * ch + c

theorem pixelOffset_lt {w h ch x y c : Nat} (hx : x < w) (hy : y < h) (hc : c < ch) :
    pixelOffset w ch x y c < w * h * ch := by
  have h1 : y * w + x + 1 ≤ w * h := by
    have : (y + 1) * w ≤ h * w := Nat.mul_le_mul_right w hy
    rw [Nat.mul_comm w h]
    rw [Nat.add_mul, Nat.one_mul] at this
    omega
  have h2 : (y * w + x + 1) * ch ≤ w * h * ch := Nat.mul_le_mul_right ch h1
  rw [Nat.add_mul, Nat.one_mul] at h2
  unfold pixelOffset
  omega

theorem pixelOffset_inj {w ch x y c x' y' c' : Nat} (hx : x < w) (hx' : x' < w) (hc : c < ch) (hc' : c' < ch)
    (h : pixelOffset w ch x y c = pixelOffset w ch x' y' c') : x = x' ∧ y = y' ∧ c = c' := by
  unfold pixelOffset at h
  have hch : 0 < ch := by omega
  have hcc : c = c' := by
    have := congrArg (· % ch) h
    simpa [Nat.mul_add_mod_of_lt, Nat.mod_eq_of_lt, hc, hc', Nat.mul_comm _ ch, Nat.mul_add_mod] using this
  subst hcc
  have hq : y * w + x = y' * w + x' := by
    have : (y * w + x) * ch = (y' * w + x') * ch := by omega
    exact Nat.eq_of_mul_eq_mul_right hch this
  have hxx : x = x' := by
    have := congrArg (· % w) hq
    simpa [Nat.mul_comm _ w, Nat.mul_add_mod, Nat.mod_eq_of_lt, hx, hx'] using this
  subst hxx
  have hw : 0 < w := by omega
  exact ⟨rfl, Nat.eq_of_mul_eq_mul_right hw (by omega), rfl⟩

/-- Every offset of the output is a position's. -/
theorem exists_pixelOffset {w h ch j : Nat} (hj : j < w * h * ch) :
    ∃ x y c, x < w ∧ y < h ∧ c < ch ∧ pixelOffset w ch x y c = j := by
  have hch : 0 < ch := by
    rcases Nat.eq_zero_or_pos ch with rfl | h'
    · simp at hj
    · exact h'
  have hw : 0 < w := by
    rcases Nat.eq_zero_or_pos w with rfl | h'
    · simp at hj
    · exact h'
  refine ⟨j / ch % w, j / ch / w, j % ch, Nat.mod_lt _ hw, ?_, Nat.mod_lt _ hch, ?_⟩
  · rw [Nat.div_lt_iff_lt_mul hw, Nat.div_lt_iff_lt_mul hch, Nat.mul_comm h w]; exact hj
  · unfold pixelOffset
    rw [Nat.div_add_mod' (j / ch) w, Nat.div_add_mod' j ch]

/-- Texel i of block k stands at column x and row y exactly when k is the block of (x, y) and i its texel there. -/
theorem texel_at {p : Plan} {k i x y : Nat} (hb : x / 4 < p.blocksX) (hi : i < 16) :
    (texelX p k i = x ∧ texelY p k i = y) ↔ k = x / 4 + y / 4 * p.blocksX ∧ i = 4 * (y % 4) + x % 4 := by
  unfold texelX texelY
  constructor
  · rintro ⟨rfl, rfl⟩
    have h1 : (4 * (k % p.blocksX) + i % 4) / 4 = k % p.blocksX := by omega
    have h2 : (4 * (k / p.blocksX) + i / 4) / 4 = k / p.blocksX := by omega
    rw [h1, h2]
    refine ⟨?_, by omega⟩
    have := Nat.mod_add_div k p.blocksX
    rw [Nat.mul_comm] at this
    exact this.symm
  · rintro ⟨rfl, rfl⟩
    have h1 : (x / 4 + y / 4 * p.blocksX) % p.blocksX = x / 4 := by
      rw [Nat.add_mul_mod_self_right, Nat.mod_eq_of_lt hb]
    have h2 : (x / 4 + y / 4 * p.blocksX) / p.blocksX = y / 4 := by
      rw [Nat.add_mul_div_right _ _ (by omega), Nat.div_eq_of_lt hb, Nat.zero_add]
    rw [h1, h2]
    omega

/-! ### Storing texels -/

/-- What the stores of a block's texels need to know: the image lies in SYS, each texel has one byte a channel. -/
structure StoreContext (p : Plan) (l : BcdLatch) (ch : Nat) (texels : List Bytes) : Prop where
  fits : l.dstAddr.toNat + l.width.toNat * l.height.toNat * ch ≤ sysSize
  columns : p.blocksX = ceil4 l.width.toNat
  channels : ∀ i, i < 16 → (texels.getD i []).length = ch

variable {p : Plan} {l : BcdLatch} {ch k : Nat} {texels : List Bytes}

theorem texelAddr_eq (l : BcdLatch) (ch x y : Nat) :
    texelAddr l ch x y = l.dstAddr.toNat + pixelOffset l.width.toNat ch x y 0 := by
  simp [texelAddr, pixelOffset]

theorem texelAddr_bound {x y : Nat} (h : StoreContext p l ch texels) (hx : x < l.width.toNat) (hy : y < l.height.toNat) :
    texelAddr l ch x y + ch ≤ l.dstAddr.toNat + l.width.toNat * l.height.toNat * ch := by
  rcases Nat.eq_zero_or_pos ch with rfl | hch
  · simp [texelAddr]
  · have := pixelOffset_lt (ch := ch) (c := ch - 1) hx hy (by omega)
    unfold pixelOffset at this
    unfold texelAddr
    omega

theorem wf_storeTexel {m : Memory} {i : Nat} (h : StoreContext p l ch texels) (hi : i < 16) (hm : m.wf = true) :
    (storeTexel p l ch k texels i m).wf = true := by
  unfold storeTexel
  split
  · rename_i hin
    refine Memory.wf_writeBytes hm ?_
    rw [h.channels i hi]
    exact Nat.le_trans (texelAddr_bound h hin.1 hin.2) h.fits
  · exact hm

/-- A store of a texel reads back at its own position, and leaves every other byte. -/
theorem read_storeTexel {m : Memory} {i : Nat} (h : StoreContext p l ch texels) (hi : i < 16) (hm : m.wf = true)
    {x y c : Nat} (hx : x < l.width.toNat) (hy : y < l.height.toNat) (hc : c < ch) :
    (storeTexel p l ch k texels i m).read (l.dstAddr.toNat + pixelOffset l.width.toNat ch x y c) =
      if k = x / 4 + y / 4 * p.blocksX ∧ i = 4 * (y % 4) + x % 4 then byteAt (texels.getD i []) c
      else m.read (l.dstAddr.toNat + pixelOffset l.width.toNat ch x y c) := by
  have hb : x / 4 < p.blocksX := by rw [h.columns, ceil4]; omega
  unfold storeTexel
  split
  · rename_i hin
    have hbound := Nat.le_trans (texelAddr_bound h hin.1 hin.2) h.fits
    rw [Memory.read_writeBytes hm (by rw [h.channels i hi]; exact hbound), h.channels i hi, texelAddr_eq]
    by_cases heq : k = x / 4 + y / 4 * p.blocksX ∧ i = 4 * (y % 4) + x % 4
    · obtain ⟨hX, hY⟩ := (texel_at hb hi).2 heq
      rw [if_pos heq, hX, hY]
      have : pixelOffset l.width.toNat ch x y c = pixelOffset l.width.toNat ch x y 0 + c := by simp [pixelOffset]
      rw [this, if_pos (by omega)]
      congr 1
      omega
    · rw [if_neg heq, if_neg]
      intro ⟨h1, h2⟩
      apply heq
      have h0 : ∀ d, pixelOffset l.width.toNat ch (texelX p k i) (texelY p k i) 0 + d =
          pixelOffset l.width.toNat ch (texelX p k i) (texelY p k i) d := by simp [pixelOffset]
      obtain ⟨d, hd⟩ : ∃ d, l.dstAddr.toNat + pixelOffset l.width.toNat ch x y c =
          l.dstAddr.toNat + pixelOffset l.width.toNat ch (texelX p k i) (texelY p k i) 0 + d :=
        ⟨_, (Nat.add_sub_cancel' h1).symm⟩
      have hdc : d < ch := by omega
      have he : pixelOffset l.width.toNat ch (texelX p k i) (texelY p k i) d =
          pixelOffset l.width.toNat ch x y c := by rw [← h0]; omega
      obtain ⟨hX, hY, -⟩ := pixelOffset_inj hin.1 hx hdc hc he
      exact (texel_at hb hi).1 ⟨hX, hY⟩
  · rename_i hin
    rw [if_neg]
    intro heq
    obtain ⟨hX, hY⟩ := (texel_at hb hi).2 heq
    exact hin ⟨hX ▸ hx, hY ▸ hy⟩

/-- A store of a texel writes no byte outside the output. -/
theorem read_storeTexel_outside {m : Memory} {i : Nat} (h : StoreContext p l ch texels) (hi : i < 16)
    (hm : m.wf = true) {a : Nat}
    (ha : a < l.dstAddr.toNat ∨ l.dstAddr.toNat + l.width.toNat * l.height.toNat * ch ≤ a) :
    (storeTexel p l ch k texels i m).read a = m.read a := by
  unfold storeTexel
  split
  · rename_i hin
    have hb := texelAddr_bound h hin.1 hin.2
    rw [Memory.read_writeBytes hm (by rw [h.channels i hi]; exact Nat.le_trans hb h.fits), h.channels i hi, if_neg]
    unfold texelAddr at hb ⊢
    omega
  · rfl

theorem storeTexels_spec (h : StoreContext p l ch texels) {m : Memory} (hm : m.wf = true) {count : Nat}
    (hcount : count ≤ 16) :
    (storeTexels p l ch k texels m count).wf = true ∧
      (∀ x y c, x < l.width.toNat → y < l.height.toNat → c < ch →
        (storeTexels p l ch k texels m count).read (l.dstAddr.toNat + pixelOffset l.width.toNat ch x y c) =
          if k = x / 4 + y / 4 * p.blocksX ∧ 4 * (y % 4) + x % 4 < count then
            byteAt (texels.getD (4 * (y % 4) + x % 4) []) c
          else m.read (l.dstAddr.toNat + pixelOffset l.width.toNat ch x y c)) ∧
      (∀ a, a < l.dstAddr.toNat ∨ l.dstAddr.toNat + l.width.toNat * l.height.toNat * ch ≤ a →
        (storeTexels p l ch k texels m count).read a = m.read a) := by
  induction count with
  | zero => exact ⟨hm, fun x y c _ _ _ => by simp [storeTexels], fun _ _ => rfl⟩
  | succ i ih =>
    obtain ⟨hwf, hread, hout⟩ := ih (by omega)
    refine ⟨wf_storeTexel h (by omega) hwf, fun x y c hx hy hc => ?_, fun a ha => ?_⟩
    · rw [storeTexels, read_storeTexel h (by omega) hwf hx hy hc, hread x y c hx hy hc]
      by_cases hk : k = x / 4 + y / 4 * p.blocksX
      · by_cases hi : i = 4 * (y % 4) + x % 4
        · rw [if_pos ⟨hk, hi⟩, if_pos ⟨hk, by omega⟩, hi]
        · rw [if_neg (by tauto)]
          by_cases hlt : 4 * (y % 4) + x % 4 < i
          · rw [if_pos ⟨hk, hlt⟩, if_pos ⟨hk, by omega⟩]
          · rw [if_neg (by tauto), if_neg (by omega)]
      · rw [if_neg (by tauto), if_neg (by tauto), if_neg (by tauto)]
    · rw [storeTexels, read_storeTexel_outside h (by omega) hwf ha, hout a ha]

/-! ### Block decoders: sixteen texels of a byte a channel -/

theorem getElem?_tile (f : Nat → Bytes) {i : Nat} (hi : i < 16) : (tile f)[i]? = some (f i) := by
  simp [tile, hi]

theorem getD_tile (f : Nat → Bytes) {i : Nat} (hi : i < 16) : (tile f).getD i [] = f i := by
  rw [List.getD_eq_getElem?_getD, getElem?_tile f hi]; rfl

/-- Every DECODE command's block decoder gives each texel one byte a channel (R67). -/
theorem texel_length {row : Instr × (Bool → Bytes → BlockRegs) × Nat × Nat} (h : row ∈ decodeRows) (fix : Bool)
    (blk : Bytes) {i : Nat} (hi : i < 16) : ((row.2.1 fix blk).texels.getD i []).length = row.2.2.2 := by
  simp only [decodeRows, List.mem_cons, List.not_mem_nil, or_false] at h
  rcases h with rfl | rfl | rfl | rfl | rfl
  · simp only [decodeBlock1]; rw [getD_tile _ hi]; rfl
  · simp only [decodeBlock2]; rw [getD_tile _ hi]; rfl
  · simp only [decodeBlock3]; rw [getD_tile _ hi]; rfl
  · simp only [decodeBlock4]; rw [getD_tile _ hi]; rfl
  · simp only [decodeBlock5]; rw [getD_tile _ hi]; rfl

/-! ### The blocks of a command -/

theorem bcdAfter_spec {dec : Bool → Bytes → BlockRegs} {bs : Nat} {start : BcdInternal} {m : Memory}
    (h : ∀ blk, StoreContext p l ch (dec l.bc5Fix blk).texels) (hm : m.wf = true) (count : Nat) :
    (bcdAfter dec bs ch p l start m count).2.wf = true ∧
      (∀ x y c, x < l.width.toNat → y < l.height.toNat → c < ch →
        (bcdAfter dec bs ch p l start m count).2.read (l.dstAddr.toNat + pixelOffset l.width.toNat ch x y c) =
          if x / 4 + y / 4 * p.blocksX < count then pixelByte dec bs p l m x y c
          else m.read (l.dstAddr.toNat + pixelOffset l.width.toNat ch x y c)) ∧
      (∀ a, a < l.dstAddr.toNat ∨ l.dstAddr.toNat + l.width.toNat * l.height.toNat * ch ≤ a →
        (bcdAfter dec bs ch p l start m count).2.read a = m.read a) := by
  induction count with
  | zero => exact ⟨hm, fun x y c _ _ _ => by simp [bcdAfter], fun _ _ => rfl⟩
  | succ n ih =>
    obtain ⟨hwf, hread, hout⟩ := ih
    obtain ⟨hwf', hread', hout'⟩ := storeTexels_spec (h (blockBytes l bs n m)) (k := n) hwf (count := 16) (by omega)
    refine ⟨hwf', fun x y c hx hy hc => ?_, fun a ha => ?_⟩
    · rw [bcdAfter]
      dsimp only
      rw [hread' x y c hx hy hc, hread x y c hx hy hc]
      by_cases hn : n = x / 4 + y / 4 * p.blocksX
      · rw [if_pos ⟨hn, by omega⟩, if_pos (by omega)]
        simp only [pixelByte, hn]
      · rw [if_neg (by tauto)]
        by_cases hlt : x / 4 + y / 4 * p.blocksX < n
        · rw [if_pos hlt, if_pos (by omega)]
        · rw [if_neg hlt, if_neg (by omega)]
    · rw [bcdAfter]
      dsimp only
      rw [hout' a ha, hout a ha]

/-- Every position's block is one of the command's (R104). -/
theorem block_lt {w h x y : Nat} (hx : x < w) (hy : y < h) : x / 4 + y / 4 * ceil4 w < ceil4 w * ceil4 h := by
  have h1 : x / 4 < ceil4 w := by unfold ceil4; omega
  have h2 : y / 4 + 1 ≤ ceil4 h := by unfold ceil4; omega
  calc x / 4 + y / 4 * ceil4 w < ceil4 w + y / 4 * ceil4 w := by omega
    _ = (y / 4 + 1) * ceil4 w := by ring
    _ ≤ ceil4 h * ceil4 w := Nat.mul_le_mul_right _ h2
    _ = ceil4 w * ceil4 h := Nat.mul_comm _ _

/-! ### The command -/

/-- The plan of a command that passes its checks (R100 to R103). -/
theorem bcdPlan_ok {bs ch : Nat} {l : BcdLatch} {p : Plan} :
    bcdPlan (some (bs, ch)) l = .ok p ↔
      l.width ≠ 0 ∧ l.height ≠ 0 ∧
        ceil4 l.width.toNat * ceil4 l.height.toNat * bs ≤ l.srcLen.toNat ∧
        p = ⟨ceil4 l.width.toNat, ceil4 l.height.toNat, ceil4 l.width.toNat * ceil4 l.height.toNat * bs,
          l.width.toNat * l.height.toNat * ch⟩ := by
  unfold bcdPlan
  dsimp only
  split
  · rename_i h; simp; tauto
  · rename_i h
    simp only [not_or] at h
    split
    · rename_i h'; simp; omega
    · rename_i h'
      simp only [Except.ok.injEq]
      constructor
      · rintro rfl; exact ⟨h.1, h.2, by omega, rfl⟩
      · rintro ⟨-, -, -, rfl⟩; rfl

theorem bcdPlan_error {bs ch : Nat} {l : BcdLatch} {st : Status} :
    bcdPlan (some (bs, ch)) l = .error st ↔
      st = .insufficientData ∧ (l.width = 0 ∨ l.height = 0 ∨
        l.srcLen.toNat < ceil4 l.width.toNat * ceil4 l.height.toNat * bs) := by
  unfold bcdPlan
  dsimp only
  split
  · rename_i h
    simp only [Except.error.injEq]
    constructor
    · rintro rfl; exact ⟨rfl, by tauto⟩
    · rintro ⟨rfl, -⟩; rfl
  · rename_i h
    simp only [not_or] at h
    split
    · simp only [Except.error.injEq]
      constructor
      · rintro rfl; exact ⟨rfl, by tauto⟩
      · rintro ⟨rfl, -⟩; rfl
    · rename_i h'
      simp only [reduceCtorEq, false_iff, not_and, not_or]
      exact fun _ => ⟨h.1, h.2, h'⟩

/-- All that a DECODE command can do. -/
theorem bcdCommand_next {dec : Bool → Bytes → BlockRegs} {bs ch : Nat} {s t : State}
    (h : bcdCommand dec bs ch s = .next t) :
    (bcdPlan (some (bs, ch)) s.bcdLatch = .error .insufficientData ∧ t = bcdRaise .insufficientData s) ∨
      ∃ p, bcdPlan (some (bs, ch)) s.bcdLatch = .ok p ∧
        rangesLegal ⟨⟨s.bcdLatch.srcAddr.toNat, p.need⟩, ⟨s.bcdLatch.dstAddr.toNat, p.outLen⟩⟩
          ⟨s.bcdLatch.dstAddr.toNat, p.outLen⟩ (bcdRivals s) (unseenInputs s) ∧
        t = { bcdComplete .ok p.outLen
              (bcdAfter dec bs ch p s.bcdLatch s.bcdInt s.mem (p.blocksX * p.blocksY)).2 s with
              bcdInt := (bcdAfter dec bs ch p s.bcdLatch s.bcdInt s.mem (p.blocksX * p.blocksY)).1 } := by
  unfold bcdCommand at h
  split at h
  · rename_i st hst
    obtain rfl := (bcdPlan_error.1 hst).1
    exact .inl ⟨hst, by simpa using h.symm⟩
  · rename_i p hp
    dsimp only at h
    split at h
    · simp at h
    · rename_i hd
      exact .inr ⟨p, hp, brokenDuty_eq_none.1 hd, by simpa using h.symm⟩

theorem bcdCommand_of_legal {dec : Bool → Bytes → BlockRegs} {bs ch : Nat} {s : State} {p : Plan}
    (hp : bcdPlan (some (bs, ch)) s.bcdLatch = .ok p)
    (hr : rangesLegal ⟨⟨s.bcdLatch.srcAddr.toNat, p.need⟩, ⟨s.bcdLatch.dstAddr.toNat, p.outLen⟩⟩
      ⟨s.bcdLatch.dstAddr.toNat, p.outLen⟩ (bcdRivals s) (unseenInputs s)) :
    bcdCommand dec bs ch s =
      .next { bcdComplete .ok p.outLen
              (bcdAfter dec bs ch p s.bcdLatch s.bcdInt s.mem (p.blocksX * p.blocksY)).2 s with
              bcdInt := (bcdAfter dec bs ch p s.bcdLatch s.bcdInt s.mem (p.blocksX * p.blocksY)).1 } := by
  unfold bcdCommand
  rw [hp]
  dsimp only
  rw [brokenDuty_eq_none.2 hr]

theorem bcdCommand_of_error {dec : Bool → Bytes → BlockRegs} {bs ch : Nat} {s : State} {st : Status}
    (hp : bcdPlan (some (bs, ch)) s.bcdLatch = .error st) : bcdCommand dec bs ch s = .next (bcdRaise st s) := by
  unfold bcdCommand
  rw [hp]

/-- A command that passes its checks with illegal ranges is refused. -/
theorem bcdCommand_of_illegal {dec : Bool → Bytes → BlockRegs} {bs ch : Nat} {s : State} {p : Plan}
    (hp : bcdPlan (some (bs, ch)) s.bcdLatch = .ok p)
    (hr : ¬rangesLegal ⟨⟨s.bcdLatch.srcAddr.toNat, p.need⟩, ⟨s.bcdLatch.dstAddr.toNat, p.outLen⟩⟩
      ⟨s.bcdLatch.dstAddr.toNat, p.outLen⟩ (bcdRivals s) (unseenInputs s)) : ∃ r, bcdCommand dec bs ch s = .refused r := by
  unfold bcdCommand
  rw [hp]
  dsimp only
  rw [← brokenDuty_eq_none] at hr
  split
  · rename_i r _; exact ⟨r, rfl⟩
  · contradiction

/-- Each DECODE instruction is the command of its row. -/
theorem exec_decodeRow {row : Instr × (Bool → Bytes → BlockRegs) × Nat × Nat} (h : row ∈ decodeRows) (s : State) :
    exec row.1 s = bcdCommand row.2.1 row.2.2.1 row.2.2.2 s := by
  simp only [decodeRows, List.mem_cons, List.not_mem_nil, or_false] at h
  rcases h with rfl | rfl | rfl | rfl | rfl <;> rfl

theorem bcdCommand_storeContext {row : Instr × (Bool → Bytes → BlockRegs) × Nat × Nat} (h : row ∈ decodeRows)
    {l : BcdLatch} {p : Plan} (hp : bcdPlan (some (row.2.2.1, row.2.2.2)) l = .ok p)
    (hfit : l.dstAddr.toNat + p.outLen ≤ sysSize) (blk : Bytes) :
    StoreContext p l row.2.2.2 (row.2.1 l.bc5Fix blk).texels := by
  obtain ⟨-, -, -, rfl⟩ := bcdPlan_ok.1 hp
  exact ⟨hfit, rfl, fun i hi => texel_length h _ _ hi⟩

/-- What memory holds after a DECODE command that completes with OK (R105, R106). -/
theorem bcdCommand_mem {row : Instr × (Bool → Bytes → BlockRegs) × Nat × Nat} (h : row ∈ decodeRows)
    {s : State} {p : Plan} (hp : bcdPlan (some (row.2.2.1, row.2.2.2)) s.bcdLatch = .ok p)
    (hfit : s.bcdLatch.dstAddr.toNat + p.outLen ≤ sysSize) (hm : s.mem.wf = true) {out : Memory}
    (hout : out = (bcdAfter row.2.1 row.2.2.1 row.2.2.2 p s.bcdLatch s.bcdInt s.mem (p.blocksX * p.blocksY)).2) :
    out.wf = true ∧
      (∀ x y c, x < s.bcdLatch.width.toNat → y < s.bcdLatch.height.toNat → c < row.2.2.2 →
        out.read (s.bcdLatch.dstAddr.toNat + pixelOffset s.bcdLatch.width.toNat row.2.2.2 x y c) =
          pixelByte row.2.1 row.2.2.1 p s.bcdLatch s.mem x y c) ∧
      (∀ a, a < s.bcdLatch.dstAddr.toNat ∨ s.bcdLatch.dstAddr.toNat + p.outLen ≤ a → out.read a = s.mem.read a) := by
  subst hout
  have hs := bcdAfter_spec (bs := row.2.2.1) (start := s.bcdInt) (bcdCommand_storeContext h hp hfit) hm
    (p.blocksX * p.blocksY)
  obtain ⟨-, -, -, rfl⟩ := bcdPlan_ok.1 hp
  refine ⟨hs.1, fun x y c hx hy hc => ?_, fun a ha => hs.2.2 a ha⟩
  rw [hs.2.1 x y c hx hy hc, if_pos (block_lt hx hy)]

end Sys2Proof.Machine
end

