-- ==== Sys2Proof/Laws/Host.lean ====
section
/-! SUPPORT. All that a host action and a step can do, and runs of steps. -/

namespace Sys2Proof.Machine

-- One proof at a time: in the package as one text their threads run out of memory.
set_option Elab.async false

/-- All that a write of BCD CTRL can do (R17, R228, R232). -/
theorem bcdWriteCtrl_cases (v : Word) (s : State) : ∃ r : BcdRegs,
    r = { s.bcd with ie := v.getLsbD 1, bc5Fix := v.getLsbD 2 } ∧
      (v.getLsbD 0 = true ∧ s.bcd.busy = false ∧ bcdWriteCtrl v s = bcdStart { s with bcd := r } ∨
        (v.getLsbD 0 = false ∨ s.bcd.busy = true) ∧ bcdWriteCtrl v s = { s with bcd := r }) := by
  refine ⟨_, rfl, ?_⟩
  unfold bcdWriteCtrl
  cases v.getLsbD 0 <;> cases h : s.bcd.busy <;> simp [h]

/-- All that a write of SBD CTRL can do (R26, R228, R232). -/
theorem sbdWriteCtrl_cases (v : Word) (s : State) : ∃ r : SbdRegs,
    r = { s.sbd with ie := v.getLsbD 1 } ∧
      (v.getLsbD 0 = true ∧ s.sbd.busy = false ∧ sbdWriteCtrl v s = sbdStart { s with sbd := r } ∨
        (v.getLsbD 0 = false ∨ s.sbd.busy = true) ∧ sbdWriteCtrl v s = { s with sbd := r }) := by
  refine ⟨_, rfl, ?_⟩
  unfold sbdWriteCtrl
  cases v.getLsbD 0 <;> cases h : s.sbd.busy <;> simp [h]

/-- All that a BCD register write other than START can do: registers alone, keeping BUSY, ERR and OUT_LEN and setting
no DONE (R16 to R23, R230). -/
theorem bcdWrite_cases (offset : BitVec 8) (v : Word) (s : State) :
    bcdWrite offset v s = bcdStart { s with bcd := { s.bcd with ie := v.getLsbD 1, bc5Fix := v.getLsbD 2 } } ∧
        s.bcd.busy = false ∨
      ∃ r : BcdRegs, bcdWrite offset v s = { s with bcd := r } ∧ r.busy = s.bcd.busy ∧ r.err = s.bcd.err ∧
        r.outLen = s.bcd.outLen ∧ (r.done = true → s.bcd.done = true) := by
  unfold bcdWrite
  split
  · obtain ⟨r, rfl, ⟨-, hb, h⟩ | ⟨-, h⟩⟩ := bcdWriteCtrl_cases v s
    · exact .inl ⟨h, hb⟩
    · exact .inr ⟨_, h, rfl, rfl, rfl, id⟩
  · exact .inr ⟨_, rfl, rfl, rfl, rfl, fun h => (Bool.and_eq_true_iff.1 h).1⟩
  all_goals exact .inr ⟨_, rfl, rfl, rfl, rfl, id⟩

/-- All that an SBD register write other than START can do. -/
theorem sbdWrite_cases (offset : BitVec 8) (v : Word) (s : State) :
    sbdWrite offset v s = sbdStart { s with sbd := { s.sbd with ie := v.getLsbD 1 } } ∧ s.sbd.busy = false ∨
      ∃ r : SbdRegs, sbdWrite offset v s = { s with sbd := r } ∧ r.busy = s.sbd.busy ∧ r.err = s.sbd.err ∧
        r.outLen = s.sbd.outLen ∧ r.ovf = s.sbd.ovf ∧ r.cursor = s.sbd.cursor ∧
        (r.done = true → s.sbd.done = true) := by
  unfold sbdWrite
  split
  · obtain ⟨r, rfl, ⟨-, hb, h⟩ | ⟨-, h⟩⟩ := sbdWriteCtrl_cases v s
    · exact .inl ⟨h, hb⟩
    · exact .inr ⟨_, h, rfl, rfl, rfl, rfl, rfl, id⟩
  · exact .inr ⟨_, rfl, rfl, rfl, rfl, rfl, rfl, fun h => (Bool.and_eq_true_iff.1 h).1⟩
  all_goals exact .inr ⟨_, rfl, rfl, rfl, rfl, rfl, rfl, id⟩

/-- All that a host memory write can do (R60, R61). -/
theorem hostMemWrite_next {addr : Word} {v : Byte} {s t : State} (h : hostMemWrite addr v s = .next t) :
    (∀ f ∈ openCommands s, f.input.contains addr.toNat = false ∧ f.output.contains addr.toNat = false) ∧
      t = { s with mem := s.mem.write addr.toNat v } := by
  unfold hostMemWrite at h
  split at h
  · simp at h
  · split at h
    · simp at h
    · rename_i h1 h2
      simp only [List.any_eq_true, not_exists, not_and, Bool.not_eq_true] at h1 h2
      exact ⟨fun f hf => ⟨h1 f hf, h2 f hf⟩, by simpa using h.symm⟩

/-- A host memory write outside every open range takes effect. -/
theorem hostMemWrite_of_closed {addr : Word} {v : Byte} {s : State}
    (h : ∀ f ∈ openCommands s, f.input.contains addr.toNat = false ∧ f.output.contains addr.toNat = false) :
    hostMemWrite addr v s = .next { s with mem := s.mem.write addr.toNat v } := by
  unfold hostMemWrite
  rw [if_neg, if_neg]
  · simp only [List.any_eq_true, not_exists, not_and, Bool.not_eq_true]; exact fun f hf => (h f hf).2
  · simp only [List.any_eq_true, not_exists, not_and, Bool.not_eq_true]; exact fun f hf => (h f hf).1

/-- A host memory write into an open range is refused. -/
theorem hostMemWrite_of_open {addr : Word} {v : Byte} {s : State} {f : Footprint} (hf : f ∈ openCommands s)
    (h : f.input.contains addr.toNat = true ∨ f.output.contains addr.toNat = true) :
    hostMemWrite addr v s = .refused .inputWritten ∨ hostMemWrite addr v s = .refused .outputWritten := by
  unfold hostMemWrite
  split
  · exact .inl rfl
  · rename_i h1
    right
    rw [if_pos]
    simp only [List.any_eq_true, not_exists, not_and, Bool.not_eq_true] at h1 ⊢
    exact ⟨f, hf, h.resolve_left (by simp [h1 f hf])⟩

/-- Which commands' windows are open. -/
theorem mem_openCommands {s : State} {f : Footprint} :
    f ∈ openCommands s ↔ s.bcd.busy = true ∧ f = bcdFootprint s.bcdLatch ∨
      s.sbd.busy = true ∧ f = sbdFootprint s.sbdLatch ∨ ∃ u ∈ unseenCommands s, u.ranges = f := by
  unfold openCommands runningCommands
  cases s.bcd.busy <;> cases s.sbd.busy <;> simp

/-- A host memory read changes what the host read and the count of free values, and nothing else. -/
theorem hostMemRead_frame (addr : Word) (s : State) :
    ∃ v i, hostMemRead addr s = { s with lastRead := v, freeIdx := i } := by
  unfold hostMemRead
  split <;> exact ⟨_, _, rfl⟩

/-- What a host memory read returns: a pick among memory's byte and those of the open windows (R37, R61). -/
theorem hostMemRead_lastRead (addr : Word) (s : State) : ∃ values : Bytes,
    values = s.mem.read addr.toNat :: openBytes s addr.toNat ∧
      (hostMemRead addr s).lastRead = (byteAt values (Config.freePick s.freeIdx % values.length)).zeroExtend 32 := by
  refine ⟨_, rfl, ?_⟩
  unfold hostMemRead
  split
  · rename_i h
    simp [h, Nat.mod_one, byteAt]
  · rfl

/-- A register read changes what the host read, and ends the duties of an engine seen done, and nothing else (R52). -/
theorem hostRegRead_cases (win : Window) (offset : BitVec 8) (s : State) :
    ∃ v, hostRegRead win offset s = { s with lastRead := v } ∨
      isDone win s = true ∧ hostRegRead win offset s = observe win { s with lastRead := v } := by
  unfold hostRegRead
  dsimp only
  split
  · rename_i h
    exact ⟨_, .inr ⟨(Bool.and_eq_true_iff.1 h).2, rfl⟩⟩
  · exact ⟨_, .inl rfl⟩

/-- Looking at a line likewise (R63). -/
theorem hostObserveIrq_cases (win : Window) (s : State) :
    ∃ v, hostObserveIrq win s = { s with lastRead := v } ∨
      isDone win s = true ∧ hostObserveIrq win s = observe win { s with lastRead := v } := by
  unfold hostObserveIrq
  dsimp only
  split
  · rename_i h
    refine ⟨_, .inr ⟨?_, rfl⟩⟩
    cases win <;> simp only [irq, irqBcd, irqSbd, Bool.and_eq_true] at h <;> exact h.1
  · exact ⟨_, .inl rfl⟩

/-- All that a step can do. -/
theorem step_next {s t : State} (h : step s = .next t) :
    (∃ a rest, s.agenda = .host a :: rest ∧ hostAct a { s with agenda := rest } = .next t) ∨
      (∃ rest, s.agenda = .bcd :: rest ∧ runBcd { s with agenda := rest } = .next t) ∨
      (∃ rest, s.agenda = .sbd :: rest ∧ runSbd { s with agenda := rest } = .next t) ∨
      s.agenda = [] ∧ (s.sbd.busy = true ∧ runSbd s = .next t ∨ s.sbd.busy = false ∧ runBcd s = .next t) := by
  unfold step at h
  split at h
  · rename_i e rest ha
    cases e with
    | host a => exact .inl ⟨a, rest, ha, h⟩
    | bcd => exact .inr (.inl ⟨rest, ha, h⟩)
    | sbd => exact .inr (.inr (.inl ⟨rest, ha, h⟩))
  · rename_i ha
    unfold runAlone at h
    split at h
    · rename_i hb; exact .inr (.inr (.inr ⟨ha, .inl ⟨hb, h⟩⟩))
    · rename_i hb; exact .inr (.inr (.inr ⟨ha, .inr ⟨by simpa using hb, h⟩⟩))

/-! ### Runs -/

/-- A run of a machine whose first step answers a next state. -/
theorem run_of_step (M : Host.Core) {k : Nat} {s t : M.State} (h : M.step s = .next t) : M.run (k + 1) s = M.run k t := by
  simp only [Host.Core.run, h]

theorem core_run_of_step {k : Nat} {s t : State} (h : step s = .next t) :
    Sys2Proof.core.run (k + 1) s = Sys2Proof.core.run k t :=
  run_of_step Sys2Proof.core h

/-- With nothing running and nothing to come, nothing happens (R226). -/
theorem core_run_idle {s : State} (h1 : s.sbd.busy = false) (h2 : s.bcd.busy = false) (h3 : s.agenda = []) (k : Nat) :
    Sys2Proof.core.run k s = .next s := by
  induction k with
  | zero => rfl
  | succ k ih =>
    have h : step s = .next s := by simp [step, h3, runAlone, h1, runBcd, h2]
    rw [core_run_of_step h]
    exact ih

end Sys2Proof.Machine
end

