-- ==== Sys2Proof/Tests/Slice0.lean ====
section
/-! SUPPORT. Tests: ill-formed terms, words written from the encodings of 30_encoding.md, single steps with the values
of 95_test_vectors.md, and for every obligation with hypotheses a witness that they can be met. -/

namespace Sys2Proof.Tests

open Sys2Proof Sys2Proof.Machine

-- One kernel evaluation at a time: each has a large stack.
set_option Elab.async false

/-! ### Helpers -/

/-- The next state, if there is one. -/
def nextState : Result → Option State
  | .next s => some s
  | _ => none

/-- What the next state shows, if there is one. -/
def shows {α : Type} (f : State → α) (r : Result) : Option α := (nextState r).map f

theorem exists_next {r : Result} (h : (nextState r).isSome = true) : ∃ t, r = .next t := by
  cases r with
  | next t => exact ⟨t, rfl⟩
  | fault e => cases e
  | refused e => simp [nextState] at h

/-- Whether the words decode to the instruction and nothing is left. -/
def decodesTo (place : Place) (ws : List Word) (i : Instr) : Bool :=
  match decode place ws with
  | .ok (j, rest) => decide (j = i ∧ rest = [])
  | .error _ => false

def decodesAll (place : Place) (rows : List (List Word × Instr)) : Bool := rows.all fun r => decodesTo place r.1 r.2

/-- A running SBD at token `cur` of a 2.0 stream at address 0, its text buffer at 0x1000. -/
def sbdAt (toks : List Word) (cur : Nat) (cap : Word) : State :=
  { State.reset with
    mem := Memory.writeBytes [] 0 (toks.flatMap leBytes)
    sbd := { SbdRegs.reset with busy := true }
    sbdLatch := ⟨0, BitVec.ofNat 32 (4 * toks.length), 0x1000, cap⟩
    sbdInt := { SbdInternal.reset with n := toks.length, cur := cur, major := 2, minor := 0 } }

/-- The same past a header token. -/
def sbdRunning (toks : List Word) : State := sbdAt (0xFFFF0200 :: toks) 1 256

/-- A running BCD with its input at address 0 and its output at 0x1000. -/
def bcdAt (fmt : BitVec 3) (w h : Word) (input : Bytes) : State :=
  { State.reset with
    mem := Memory.writeBytes [] 0 input
    bcd := { BcdRegs.reset with busy := true }
    bcdLatch := ⟨fmt, w, h, 0, BitVec.ofNat 32 input.length, 0x1000, false⟩ }

/-- A complete line of 103 bytes with this body, all tokens passed. -/
def printsLine (toks : List Word) (body : String) : Bool :=
  match nextState (step (sbdRunning toks)) with
  | some t =>
    decide (t.sbdInt.text.take 60 = ascii body ++ spaces (60 - body.length) ∧ t.sbdInt.text.length = 103 ∧
      t.sbdInt.cur = 1 + toks.length)
  | none => false

def printsAll (rows : List (List Word × String)) : Bool := rows.all fun r => printsLine r.1 r.2

/-- A truncated instruction with this text. -/
def cutsTo (toks : List Word) (part : String) : Bool :=
  match nextState (step (sbdRunning toks)) with
  | some t =>
    decide (t.sbdInt.text = ascii part ∧ t.sbdInt.ended = some (.insufficientData, 1 + toks.length) ∧
      t.sbdInt.cur = 1 + toks.length)
  | none => false

def cutsAll (rows : List (List Word × String)) : Bool := rows.all fun r => cutsTo r.1 r.2

def r0 : DstOp := ⟨.r, 0, ⟨true, true, true, true⟩, ⟨false, false, false⟩⟩
def r1xyz : DstOp := ⟨.r, 1, ⟨true, true, true, false⟩, ⟨false, false, false⟩⟩
def r2xSat : DstOp := ⟨.r, 2, ⟨true, false, false, false⟩, ⟨true, false, false⟩⟩
def r3xyPartial : DstOp := ⟨.r, 3, ⟨true, true, false, false⟩, ⟨false, true, false⟩⟩
def oC0 : DstOp := ⟨.oC, 0, ⟨true, true, true, true⟩, ⟨false, false, false⟩⟩
def s0 : DstOp := ⟨.s, 0, ⟨true, true, true, true⟩, ⟨false, false, false⟩⟩
def r0s : SrcOp := ⟨.r, 0, ⟨.x, .y, .z, .w⟩, .none⟩
def negR1 : SrcOp := ⟨.r, 1, ⟨.x, .y, .z, .w⟩, .negate⟩
def r2yzwx : SrcOp := ⟨.r, 2, ⟨.y, .z, .w, .x⟩, .none⟩
def absC3w : SrcOp := ⟨.c, 3, ⟨.w, .w, .w, .w⟩, .abs⟩
def r4bx2 : SrcOp := ⟨.r, 4, ⟨.x, .y, .z, .w⟩, .sign⟩
def t0 : SrcOp := ⟨.t, 0, ⟨.x, .y, .z, .w⟩, .none⟩
def v0x : SrcOp := ⟨.v, 0, ⟨.x, .x, .x, .x⟩, .none⟩

/-! ### Ill-formed terms are refused -/

/-- A register type with a name, written as a nameless code. -/
theorem test_wf_register : (Instr.mov 0 (some { r0 with reg := .unk 2 }) (some r0s)).wellFormed = false := by decide

theorem test_wf_source_register : (Instr.call 0 (some { r0s with reg := .unk 0 })).wellFormed = false := by decide

/-- An operand after a missing one. -/
theorem test_wf_missing_operand : (Instr.add 0 (some r0) none (some r0s)).wellFormed = false := by decide

theorem test_wf_missing_destination : (Instr.tex 0 (some r0)).wellFormed = true ∧
    (Instr.texld14 0 none (some r0s)).wellFormed = false := by decide

theorem test_wf_missing_literal : (Instr.def_ 0 (some r0) (some 0) none (some 0) none).wellFormed = false := by decide

/-- A texture type with a name, written as a nameless code. -/
theorem test_wf_texture : (Instr.dcl 0 (some ⟨.position, 0, .unknown 2⟩) (some s0)).wellFormed = false := by decide

theorem test_wf_missing_usage : (Instr.dcl 0 none (some s0)).wellFormed = false := by decide

/-- A recognised opcode called unrecognised. -/
theorem test_wf_recognised : (Instr.unrecognised 0x02000001).wellFormed = false := by decide

/-- A ps header called rejected, and a vs one. -/
theorem test_wf_header : (Instr.headerRejected 0xFFFF0200).wellFormed = false ∧
    (Instr.headerRejected 0xFFFE0101).wellFormed = false := by decide

/-! ### Words and lines -/

/-- R78: 1 | type 2:0 | ignored | modifiers | mask | ignored | type 4:3 | number. -/
theorem test_destination_bits :
    DstOp.ofToken 0b1_000_0000_0000_0111_000_00_00000000001 = r1xyz ∧
    DstOp.ofToken 0b1_000_0000_0001_0001_000_00_00000000010 = r2xSat ∧
    DstOp.ofToken 0b1_000_0000_0000_1111_000_01_00000000000 = oC0 ∧
    DstOp.ofToken 0b1_010_0000_0000_1111_000_01_00000000000 = s0 := by decide

/-- R79: 1 | type 2:0 | modifier | swizzle, w first | ignored | type 4:3 | number. -/
theorem test_source_bits :
    SrcOp.ofToken 0b1_000_0001_11100100_000_00_00000000001 = negR1 ∧
    SrcOp.ofToken 0b1_000_0000_00111001_000_00_00000000010 = r2yzwx ∧
    SrcOp.ofToken 0b1_010_1011_11111111_000_00_00000000011 = absC3w ∧
    SrcOp.ofToken 0b1_001_0000_00000000_000_00_00000000000 = v0x := by decide

/-- R87: 1 | ignored | texture type | ignored | index | ignored | usage. -/
theorem test_declaration_bits :
    Decl.ofToken 0b1_0_010_0000000_0000_000000000000_0000 = ⟨.position, 0, .twoD⟩ ∧
    Decl.ofToken 0b1_0_011_0000000_0001_000000000000_0101 = ⟨.texcoord, 1, .cube⟩ ∧
    Decl.ofToken 0b1_0_111_0000000_1111_000000000000_1010 = ⟨.color, 15, .unknown 7⟩ := by decide

/-- R67: FMT, three bits; R206 to R208: header tokens. -/
theorem test_decode_fmt :
    decodesAll .format
      [([0b000], .decodeBc1), ([0b001], .decodeBc2), ([0b010], .decodeBc3), ([0b011], .decodeBc4),
        ([0b100], .decodeBc5), ([0b101], .unsupportedFormat5), ([0b110], .unsupportedFormat6),
        ([0b111], .unsupportedFormat7)] = true := by decide +kernel

theorem test_decode_header :
    decodesAll .header
      [([0b1111111111111111_00000010_00000000], .headerPs 2 0), ([0b1111111111111110_00000001_00000001], .headerVs 1 1),
        ([0b1111111111111101_00000010_00000000], .headerRejected 0xFFFD0200)] = true := by decide +kernel

/-- 95 §3.3: the words of the bare instructions. -/
theorem test_decode_bare : decodesAll (.stream 2 0)
    [([0x00000000], .nop 0x0000),
     ([0x0000001C], .ret 0x0000),
     ([0x0000001D], .endloop 0x0000),
     ([0x00000027], .endrep 0x0000),
     ([0x0000FFFD], .phase 0x0000),
     ([0x0000FFFF], .end_ 0x0000)] = true := by
  decide +kernel

/-- 95 §3.3: what they print. -/
theorem test_line_bare : printsAll
    [([0x00000000], "NOP"),
     ([0x0000001C], "RET"),
     ([0x0000001D], "ENDLOOP"),
     ([0x00000027], "ENDREP"),
     ([0x0000FFFD], "PHASE"),
     ([0x0000FFFF], "END")] = true := by
  decide +kernel

/-- 95 §3.3: the words of the unary instructions. -/
theorem test_decode_unary : decodesAll (.stream 2 0)
    [([0x02000001, 0x80070001, 0x81E40001], .mov 0x0200 (some r1xyz) (some negR1)),
     ([0x02000006, 0x80070001, 0xB0E40000], .rcp 0x0200 (some r1xyz) (some t0)),
     ([0x02000007, 0x800F0800, 0x80E40000], .rsq 0x0200 (some oC0) (some r0s)),
     ([0x0200000E, 0x80230003, 0x80E40000], .exp 0x0200 (some r3xyPartial) (some r0s)),
     ([0x0200000F, 0x800F0000, 0x81E40001], .log 0x0200 (some r0) (some negR1)),
     ([0x02000010, 0x80070001, 0x90000000], .lit 0x0200 (some r1xyz) (some v0x)),
     ([0x02000013, 0x80230003, 0x84E40004], .frc 0x0200 (some r3xyPartial) (some r4bx2)),
     ([0x02000023, 0x800F0000, 0x80E40000], .abs 0x0200 (some r0) (some r0s)),
     ([0x02000024, 0x80070001, 0x81E40001], .nrm 0x0200 (some r1xyz) (some negR1)),
     ([0x0200002E, 0x80070001, 0xABFF0003], .mova 0x0200 (some r1xyz) (some absC3w))] = true := by
  decide +kernel

/-- 95 §3.3: what they print. -/
theorem test_line_unary : printsAll
    [([0x02000001, 0x80070001, 0x81E40001], "MOV r1.xyz, -r1"),
     ([0x02000006, 0x80070001, 0xB0E40000], "RCP r1.xyz, t0"),
     ([0x02000007, 0x800F0800, 0x80E40000], "RSQ oC0, r0"),
     ([0x0200000E, 0x80230003, 0x80E40000], "EXP_PARTIAL r3.xy, r0"),
     ([0x0200000F, 0x800F0000, 0x81E40001], "LOG r0, -r1"),
     ([0x02000010, 0x80070001, 0x90000000], "LIT r1.xyz, v0.x"),
     ([0x02000013, 0x80230003, 0x84E40004], "FRC_PARTIAL r3.xy, r4_bx2"),
     ([0x02000023, 0x800F0000, 0x80E40000], "ABS r0, r0"),
     ([0x02000024, 0x80070001, 0x81E40001], "NRM r1.xyz, -r1"),
     ([0x0200002E, 0x80070001, 0xABFF0003], "MOVA r1.xyz, abs(c3).w")] = true := by
  decide +kernel

/-- 95 §3.3: what they print with the last token dropped. -/
theorem test_cut_unary : cutsAll
    [([0x02000001, 0x80070001], "MOV r1.xyz"),
     ([0x02000006, 0x80070001], "RCP r1.xyz"),
     ([0x02000007, 0x800F0800], "RSQ oC0"),
     ([0x0200000E, 0x80230003], "EXP_PARTIAL r3.xy"),
     ([0x0200000F, 0x800F0000], "LOG r0"),
     ([0x02000010, 0x80070001], "LIT r1.xyz"),
     ([0x02000013, 0x80230003], "FRC_PARTIAL r3.xy"),
     ([0x02000023, 0x800F0000], "ABS r0"),
     ([0x02000024, 0x80070001], "NRM r1.xyz"),
     ([0x0200002E, 0x80070001], "MOVA r1.xyz")] = true := by
  decide +kernel

/-- 95 §3.3: the words of the binary instructions. -/
theorem test_decode_binary : decodesAll (.stream 2 0)
    [([0x03000002, 0x800F0800, 0x90000000, 0x80390002], .add 0x0300 (some oC0) (some v0x) (some r2yzwx)),
     ([0x03000003, 0x80110002, 0x80390002, 0xABFF0003], .sub 0x0300 (some r2xSat) (some r2yzwx) (some absC3w)),
     ([0x03000005, 0x800F0000, 0x84E40004, 0xB0E40000], .mul 0x0300 (some r0) (some r4bx2) (some t0)),
     ([0x03000008, 0x80110002, 0x81E40001, 0x90000000], .dp3 0x0300 (some r2xSat) (some negR1) (some v0x)),
     ([0x03000009, 0x80230003, 0x90000000, 0x80390002], .dp4 0x0300 (some r3xyPartial) (some v0x) (some r2yzwx)),
     ([0x0300000A, 0x800F0000, 0x80390002, 0xABFF0003], .min 0x0300 (some r0) (some r2yzwx) (some absC3w)),
     ([0x0300000B, 0x80070001, 0xABFF0003, 0x84E40004], .max 0x0300 (some r1xyz) (some absC3w) (some r4bx2)),
     ([0x0300000C, 0x800F0800, 0x84E40004, 0xB0E40000], .slt 0x0300 (some oC0) (some r4bx2) (some t0)),
     ([0x0300000D, 0x80110002, 0xB0E40000, 0x80E40000], .sge 0x0300 (some r2xSat) (some t0) (some r0s)),
     ([0x03000011, 0x800F0800, 0x80390002, 0xABFF0003], .dst 0x0300 (some oC0) (some r2yzwx) (some absC3w))] = true := by
  decide +kernel

/-- 95 §3.3: what they print. -/
theorem test_line_binary : printsAll
    [([0x03000002, 0x800F0800, 0x90000000, 0x80390002], "ADD oC0, v0.x, r2.yzwx"),
     ([0x03000003, 0x80110002, 0x80390002, 0xABFF0003], "SUB_SAT r2.x, r2.yzwx, abs(c3).w"),
     ([0x03000005, 0x800F0000, 0x84E40004, 0xB0E40000], "MUL r0, r4_bx2, t0"),
     ([0x03000008, 0x80110002, 0x81E40001, 0x90000000], "DP3_SAT r2.x, -r1, v0.x"),
     ([0x03000009, 0x80230003, 0x90000000, 0x80390002], "DP4_PARTIAL r3.xy, v0.x, r2.yzwx"),
     ([0x0300000A, 0x800F0000, 0x80390002, 0xABFF0003], "MIN r0, r2.yzwx, abs(c3).w"),
     ([0x0300000B, 0x80070001, 0xABFF0003, 0x84E40004], "MAX r1.xyz, abs(c3).w, r4_bx2"),
     ([0x0300000C, 0x800F0800, 0x84E40004, 0xB0E40000], "SLT oC0, r4_bx2, t0"),
     ([0x0300000D, 0x80110002, 0xB0E40000, 0x80E40000], "SGE_SAT r2.x, t0, r0"),
     ([0x03000011, 0x800F0800, 0x80390002, 0xABFF0003], "DST oC0, r2.yzwx, abs(c3).w")] = true := by
  decide +kernel

/-- 95 §3.3: what they print with the last token dropped. -/
theorem test_cut_binary : cutsAll
    [([0x03000002, 0x800F0800, 0x90000000], "ADD oC0, v0.x"),
     ([0x03000003, 0x80110002, 0x80390002], "SUB_SAT r2.x, r2.yzwx"),
     ([0x03000005, 0x800F0000, 0x84E40004], "MUL r0, r4_bx2"),
     ([0x03000008, 0x80110002, 0x81E40001], "DP3_SAT r2.x, -r1"),
     ([0x03000009, 0x80230003, 0x90000000], "DP4_PARTIAL r3.xy, v0.x"),
     ([0x0300000A, 0x800F0000, 0x80390002], "MIN r0, r2.yzwx"),
     ([0x0300000B, 0x80070001, 0xABFF0003], "MAX r1.xyz, abs(c3).w"),
     ([0x0300000C, 0x800F0800, 0x84E40004], "SLT oC0, r4_bx2"),
     ([0x0300000D, 0x80110002, 0xB0E40000], "SGE_SAT r2.x, t0"),
     ([0x03000011, 0x800F0800, 0x80390002], "DST oC0, r2.yzwx")] = true := by
  decide +kernel

/-- 95 §3.3: the words of the ternary instructions. -/
theorem test_decode_ternary : decodesAll (.stream 2 0)
    [([0x04000004, 0x80230003, 0xABFF0003, 0x84E40004, 0xB0E40000], .mad 0x0400 (some r3xyPartial) (some absC3w) (some r4bx2) (some t0)),
     ([0x04000012, 0x80110002, 0xABFF0003, 0x84E40004, 0xB0E40000], .lrp 0x0400 (some r2xSat) (some absC3w) (some r4bx2) (some t0)),
     ([0x04000022, 0x80230003, 0xB0E40000, 0x80E40000, 0x81E40001], .sgn 0x0400 (some r3xyPartial) (some t0) (some r0s) (some negR1)),
     ([0x04000025, 0x800F0800, 0x90000000, 0x80390002, 0xABFF0003], .sincos 0x0400 (some oC0) (some v0x) (some r2yzwx) (some absC3w))] = true := by
  decide +kernel

/-- 95 §3.3: what they print. -/
theorem test_line_ternary : printsAll
    [([0x04000004, 0x80230003, 0xABFF0003, 0x84E40004, 0xB0E40000], "MAD_PARTIAL r3.xy, abs(c3).w, r4_bx2, t0"),
     ([0x04000012, 0x80110002, 0xABFF0003, 0x84E40004, 0xB0E40000], "LRP_SAT r2.x, abs(c3).w, r4_bx2, t0"),
     ([0x04000022, 0x80230003, 0xB0E40000, 0x80E40000, 0x81E40001], "SGN_PARTIAL r3.xy, t0, r0, -r1"),
     ([0x04000025, 0x800F0800, 0x90000000, 0x80390002, 0xABFF0003], "SINCOS oC0, v0.x, r2.yzwx, abs(c3).w")] = true := by
  decide +kernel

/-- 95 §3.3: what they print with the last token dropped. -/
theorem test_cut_ternary : cutsAll
    [([0x04000004, 0x80230003, 0xABFF0003, 0x84E40004], "MAD_PARTIAL r3.xy, abs(c3).w, r4_bx2"),
     ([0x04000012, 0x80110002, 0xABFF0003, 0x84E40004], "LRP_SAT r2.x, abs(c3).w, r4_bx2"),
     ([0x04000022, 0x80230003, 0xB0E40000, 0x80E40000], "SGN_PARTIAL r3.xy, t0, r0"),
     ([0x04000025, 0x800F0800, 0x90000000, 0x80390002], "SINCOS oC0, v0.x, r2.yzwx")] = true := by
  decide +kernel

/-- 95 §3.3: the words of the matrix instructions. -/
theorem test_decode_matrix : decodesAll (.stream 2 0)
    [([0x03000014, 0x800F0000, 0xB0E40000, 0x80E40000], .m4x4 0x0300 (some r0) (some t0) (some r0s)),
     ([0x03000015, 0x80070001, 0x80E40000, 0x81E40001], .m4x3 0x0300 (some r1xyz) (some r0s) (some negR1)),
     ([0x03000016, 0x800F0800, 0x81E40001, 0x90000000], .m3x4 0x0300 (some oC0) (some negR1) (some v0x)),
     ([0x03000017, 0x80110002, 0x90000000, 0x80390002], .m3x3 0x0300 (some r2xSat) (some v0x) (some r2yzwx)),
     ([0x03000018, 0x80230003, 0x80390002, 0xABFF0003], .m3x2 0x0300 (some r3xyPartial) (some r2yzwx) (some absC3w)),
     ([0x03000020, 0x800F0800, 0xABFF0003, 0x84E40004], .pow 0x0300 (some oC0) (some absC3w) (some r4bx2)),
     ([0x03000021, 0x80110002, 0x84E40004, 0xB0E40000], .crs 0x0300 (some r2xSat) (some r4bx2) (some t0))] = true := by
  decide +kernel

/-- 95 §3.3: what they print. -/
theorem test_line_matrix : printsAll
    [([0x03000014, 0x800F0000, 0xB0E40000, 0x80E40000], "M4x4 r0, t0, r0"),
     ([0x03000015, 0x80070001, 0x80E40000, 0x81E40001], "M4x3 r1.xyz, r0, -r1"),
     ([0x03000016, 0x800F0800, 0x81E40001, 0x90000000], "M3x4 oC0, -r1, v0.x"),
     ([0x03000017, 0x80110002, 0x90000000, 0x80390002], "M3x3_SAT r2.x, v0.x, r2.yzwx"),
     ([0x03000018, 0x80230003, 0x80390002, 0xABFF0003], "M3x2_PARTIAL r3.xy, r2.yzwx, abs(c3).w"),
     ([0x03000020, 0x800F0800, 0xABFF0003, 0x84E40004], "POW oC0, abs(c3).w, r4_bx2"),
     ([0x03000021, 0x80110002, 0x84E40004, 0xB0E40000], "CRS_SAT r2.x, r4_bx2, t0")] = true := by
  decide +kernel

/-- 95 §3.3: what they print with the last token dropped. -/
theorem test_cut_matrix : cutsAll
    [([0x03000014, 0x800F0000, 0xB0E40000], "M4x4 r0, t0"),
     ([0x03000015, 0x80070001, 0x80E40000], "M4x3 r1.xyz, r0"),
     ([0x03000016, 0x800F0800, 0x81E40001], "M3x4 oC0, -r1"),
     ([0x03000017, 0x80110002, 0x90000000], "M3x3_SAT r2.x, v0.x"),
     ([0x03000018, 0x80230003, 0x80390002], "M3x2_PARTIAL r3.xy, r2.yzwx"),
     ([0x03000020, 0x800F0800, 0xABFF0003], "POW oC0, abs(c3).w"),
     ([0x03000021, 0x80110002, 0x84E40004], "CRS_SAT r2.x, r4_bx2")] = true := by
  decide +kernel

/-- 95 §3.3: the words of the source instructions. -/
theorem test_decode_source : decodesAll (.stream 2 0)
    [([0x01000019, 0xABFF0003], .call 0x0100 (some absC3w)),
     ([0x0200001A, 0x84E40004, 0xB0E40000], .callnz 0x0200 (some r4bx2) (some t0)),
     ([0x0200001B, 0xB0E40000, 0x80E40000], .loop 0x0200 (some t0) (some r0s)),
     ([0x0100001E, 0x90000000], .label 0x0100 (some v0x)),
     ([0x01000026, 0x80390002], .rep 0x0100 (some r2yzwx))] = true := by
  decide +kernel

/-- 95 §3.3: what they print. -/
theorem test_line_source : printsAll
    [([0x01000019, 0xABFF0003], "CALL abs(c3).w"),
     ([0x0200001A, 0x84E40004, 0xB0E40000], "CALLNZ r4_bx2, t0"),
     ([0x0200001B, 0xB0E40000, 0x80E40000], "LOOP t0, r0"),
     ([0x0100001E, 0x90000000], "LABEL v0.x"),
     ([0x01000026, 0x80390002], "REP r2.yzwx")] = true := by
  decide +kernel

/-- 95 §3.3: what they print with the last token dropped. -/
theorem test_cut_source : cutsAll
    [([0x01000019], "CALL"),
     ([0x0200001A, 0x84E40004], "CALLNZ r4_bx2"),
     ([0x0200001B, 0xB0E40000], "LOOP t0"),
     ([0x0100001E], "LABEL"),
     ([0x01000026], "REP")] = true := by
  decide +kernel

/-- 95 §3.4: opcode 66 under 1.3, 1.4 and 2.0. -/
theorem test_decode_texture :
    (decodesAll (.stream 1 3) [([0x03000042, 0x800F0000], .tex 0x0300 (some r0))] &&
      decodesAll (.stream 1 4) [([0x03000042, 0x800F0000, 0xB0E40000], .texld14 0x0300 (some r0) (some t0))] &&
      decodesAll (.stream 2 0)
        [([0x03000042, 0x800F0000, 0xB0E40000, 0xA0E40800],
          .texld20 0x0300 (some r0) (some t0) (some ⟨.s, 0, ⟨.x, .y, .z, .w⟩, .none⟩))]) = true := by decide +kernel

theorem test_line_texld : printsAll [([0x03000042, 0x800F0000, 0xB0E40000, 0xA0E40800], "TEXLD r0, t0, s0")] = true := by
  decide +kernel

/-- 95 §3.4: below 1.4 `TEX` takes two tokens. -/
theorem test_line_tex : shows (fun t => (t.sbdInt.text.take 8, t.sbdInt.cur))
    (exec (.tex 0x0300 (some r0)) (sbdRunning [])) = some (ascii "TEX r0  ", 3) := by decide +kernel

theorem test_line_texld14 : shows (fun t => (t.sbdInt.text.take 13, t.sbdInt.cur))
    (exec (.texld14 0x0300 (some r0) (some t0)) (sbdRunning [])) = some (ascii "TEXLD r0, t0 ", 4) := by decide +kernel

/-- 95 §3.5: a sampler declaration prints two lines. -/
theorem test_decode_dcl : decodesAll (.stream 2 0)
    [([0x0200001F, 0x90000000, 0xA00F0800], .dcl 0x0200 (some ⟨.position, 0, .twoD⟩) (some s0))] = true := by
  decide +kernel

theorem test_line_dcl : shows (fun t => (t.sbdInt.text.take 10, (t.sbdInt.text.drop 103).take 17, t.sbdInt.text.length))
    (step (sbdRunning [0x0200001F, 0x90000000, 0xA00F0800])) =
      some (ascii "DCL_2d s0 ", ascii "DCL_position0 s0 ", 206) := by decide +kernel

/-- 95 §3.5: a usage without a sampler, its modifiers not printed. -/
theorem test_line_dcl_usage : printsAll
    [([0x0200001F, 0x800F000A, 0x800F0800], "DCL_color15 oC0"), ([0x0200001F, 0x8000000F, 0x801F0000], "DCL_unknown0 r0")]
      = true := by decide +kernel

/-- 95 §3.6. -/
theorem test_decode_def : decodesAll (.stream 2 0)
    [([0x05000051, 0xA00F0000, 0x3F800000, 0x3F000000, 0xC0000000, 0x00000000],
      .def_ 0x0500 (some ⟨.c, 0, ⟨true, true, true, true⟩, ⟨false, false, false⟩⟩) (some 0x3F800000) (some 0x3F000000)
        (some 0xC0000000) (some 0))] = true := by decide +kernel

theorem test_line_def : printsAll
    [([0x05000051, 0xA00F0000, 0x3F800000, 0x3F000000, 0xC0000000, 0x00000000],
      "DEF c0, 1.000000, 0.500000, -2.000000, 0.000000"),
     ([0x05000051, 0xA01F0005, 0x7F800000, 0xFF800000, 0x7FC00000, 0x80000000], "DEF c5, inf, -inf, nan, -0.000000")]
      = true := by decide +kernel

theorem test_cut_def : cutsAll
    [([0x05000051], "DEF"), ([0x05000051, 0xA00F0000], "DEF c0"),
      ([0x05000051, 0xA00F0000, 0x3F800000], "DEF c0, 1.000000")] = true := by decide +kernel

/-- 95 §3.6: FLOAT_TEXT, and a tie that R202 rounds to even (2^-7 is 7812.5 millionths). -/
theorem test_float_text :
    floatText 0x3DCCCCCD = ascii "0.100000" ∧ floatText 0xB3D6BF95 = ascii "-0.000000" ∧
    floatText 0x358637BD = ascii "0.000001" ∧ floatText 0x3F7FFFF0 = ascii "0.999999" ∧
    floatText 0x7F7FFFFF = ascii "340282346638528859811704183484516925440.000000" ∧
    floatText 0xFFC00000 = ascii "-nan" ∧ floatText 0x3C000000 = ascii "0.007812" := by decide +kernel

/-- 95 §3.7: bodies of 59, 60 and 61 characters. -/
theorem test_padding : shows (fun t => t.sbdInt.text.length)
      (step (sbdRunning [0x04000004, 0x800F0000, 0x8C1B07FF, 0x8C1B07FF, 0x8C1B07FF])) = some 103 ∧
    shows (fun t => t.sbdInt.text.length)
      (step (sbdRunning [0x04000004, 0x800F0000, 0x8CE407FF, 0x8C1B07FF, 0x8C1BFFFF])) = some 104 := by decide +kernel

/-- 42 R142's line in full. -/
theorem test_line_comment : shows (fun t => t.sbdInt.text) (step (sbdRunning [0x02000001, 0x80070001, 0x81E40001])) =
    some (ascii "MOV r1.xyz, -r1                                             ; opcode: 0x0001, len:  2, val: 0x02000001\n") := by
  decide +kernel

/-- 95 §3.8: the unrecognised opcodes next to the recognised ones. -/
theorem test_unrecognised : decodesAll (.stream 2 0)
    [([0x00000028], .unrecognised 0x28), ([0x0000002F], .unrecognised 0x2F), ([0x00000041], .unrecognised 0x41),
      ([0x00000043], .unrecognised 0x43), ([0x00000050], .unrecognised 0x50), ([0x00000052], .unrecognised 0x52),
      ([0x0000FFFC], .unrecognised 0xFFFC), ([0x0000FFFE], .unrecognised 0xFFFE)] = true := by decide +kernel

/-- R95: it prints nothing and takes one token. -/
theorem test_unrecognised_step : shows (fun t => (t.sbdInt.text, t.sbdInt.cur)) (step (sbdRunning [0x12340028])) =
    some ([], 2) := by decide +kernel

/-- R205: END ends the loop with OK after it. -/
theorem test_end : shows (fun t => t.sbdInt.ended) (step (sbdRunning [0x0000FFFF, 0])) = some (some (.ok, 2)) := by
  decide +kernel

/-- E4: header lines, and a rejected header. -/
theorem test_headers :
    shows (fun t => (t.sbdInt.text, t.sbdInt.cur)) (step (sbdAt [0xFFFF0200] 0 256)) = some (ascii "ps_2_0\n", 1) ∧
    shows (fun t => (t.sbdInt.text, t.sbdInt.major)) (step (sbdAt [0xFFFE0101] 0 256)) = some (ascii "vs_1_1\n", 1) ∧
    shows (fun t => t.sbdInt.ended) (step (sbdAt [0xFFFD0200] 0 256)) = some (some (.unsupportedFormat, 0)) := by
  decide +kernel

/-! ### BCD blocks -/

/-- 95 §2.2, §2.3: four colours by the raw comparison, three colours with transparent black; BC2 never. -/
theorem test_bc1 :
    (decodeBlock1 false [0x00, 0xF8, 0xE0, 0x07, 0x00, 0x55, 0xAA, 0xFF]).texels.getD 8 [] = [0xAA, 0x55, 0x00, 0xFF] ∧
    (decodeBlock1 false [0x1F, 0x00, 0xE0, 0x07, 0x00, 0x55, 0xAA, 0xFF]).texels.getD 8 [] = [0x00, 0x7F, 0x7F, 0xFF] ∧
    (decodeBlock1 false [0x34, 0x12, 0x34, 0x12, 0x00, 0x55, 0xAA, 0xFF]).texels.getD 15 [] = [0, 0, 0, 0] := by
  decide +kernel

theorem test_bc2 :
    let b := (decodeBlock2 false
      [0xF0, 0x0F, 0xF0, 0x0F, 0x0F, 0xF0, 0x0F, 0xF0, 0xE0, 0x07, 0x00, 0xF8, 0xE4, 0xE4, 0xE4, 0xE4]).texels
    b.getD 2 [] = [0x55, 0xAA, 0x00, 0xFF] ∧ b.getD 3 [] = [0xAA, 0x55, 0x00, 0x00] ∧
      b.getD 8 [] = [0x00, 0xFF, 0x00, 0xFF] := by decide +kernel

theorem test_bc3 :
    let b := (decodeBlock3 false
      [0x00, 0xFF, 0x88, 0xC6, 0xFA, 0x88, 0xC6, 0xFA, 0x1F, 0x00, 0x00, 0x00, 0xAA, 0xAA, 0xAA, 0xAA]).texels
    b.getD 1 [] = [0x00, 0x00, 0xAA, 0xFF] ∧ b.getD 5 [] = [0x00, 0x00, 0xAA, 0xCC] ∧
      b.getD 14 [] = [0x00, 0x00, 0xAA, 0x00] := by decide +kernel

theorem test_bc4 : (decodeBlock4 false [0xFF, 0x00, 0x88, 0xC6, 0xFA, 0x88, 0xC6, 0xFA]).texels =
    [[0xFF], [0x00], [0xDA], [0xB6], [0x91], [0x6D], [0x48], [0x24], [0xFF], [0x00], [0xDA], [0xB6], [0x91], [0x6D],
      [0x48], [0x24]] := by decide +kernel

/-- 95 §2.7. -/
theorem test_bc5 :
    let blk : Bytes := [0x80, 0x80, 0, 0, 0, 0, 0, 0, 0x10, 0x20, 0x49, 0x92, 0x24, 0x49, 0x92, 0x24]
    (decodeBlock5 false blk).texels.getD 7 [] = [0x80, 0x80] ∧ (decodeBlock5 true blk).texels.getD 7 [] = [0x80, 0x20] := by
  decide +kernel

/-- A 2×1 BC4 image: two bytes written, no third. -/
theorem test_bcd_step : shows (fun t => (t.mem.readBytes 0x1000 3, t.bcd.outLen, t.bcd.done, t.bcd.busy))
    (step (bcdAt 3 2 1 [0x64, 0x32, 0, 0, 0, 0, 0, 0])) = some ([0x64, 0x64, 0], 2, true, false) := by decide +kernel

/-- R218: the format is checked before the sizes; a short input is INSUFFICIENT_DATA. -/
theorem test_bcd_errors :
    shows (fun t => t.bcd.err) (step (bcdAt 5 0 0 [])) = some .unsupportedFormat ∧
    shows (fun t => (t.bcd.err, t.bcd.outLen)) (step (bcdAt 0 5 4 [1, 2, 3, 4, 5, 6, 7, 8])) =
      some (.insufficientData, 0) := by decide +kernel

/-! ### Where the host finds an instruction -/

/-- The fetch place runs exactly the word: a stream token, a header, a FMT. -/
theorem test_fetch_word :
    decodeTableWord 96 (0x02000001 + 2 ^ 32 * 0x80070001 + 2 ^ 64 * 0x81E40001) =
      some (.mov 0x0200 (some r1xyz) (some negR1)) ∧
    shows (fun t => t.sbdInt.text.take 16)
      (step (State.reset.withFetchWord 96 (0x02000001 + 2 ^ 32 * 0x80070001 + 2 ^ 64 * 0x81E40001))) =
        some (ascii "MOV r1.xyz, -r1 ") ∧
    shows (fun t => t.sbdInt.text) (step (State.reset.withFetchWord 32 0xFFFE0300)) = some (ascii "vs_3_0\n") ∧
    shows (fun t => t.bcd.err) (step (State.reset.withFetchWord 3 6)) = some .unsupportedFormat := by decide +kernel

/-! ### Witnesses: the hypotheses of the obligations can be met -/

theorem witness_EveryWordDecodes : Place.header ≠ Place.format ∧ Place.stream 2 0 ≠ Place.format := by decide

theorem witness_DecodeEncode :
    (Instr.mad 1 (some r0) (some r0s) (some negR1) (some t0)).wellFormed = true ∧
    (Place.stream 1 4).admits (Instr.mad 1 (some r0) (some r0s) (some negR1) (some t0)) = true ∧
    (Instr.mad 1 (some r0) (some r0s) (some negR1) (some t0)).complete = true ∧
    (Instr.mad 1 (some r0) (some r0s) none none).wellFormed = true ∧
    (Place.stream 1 4).admits (.texld14 1 (some r0) (some t0)) = true ∧
    Place.format.admits .decodeBc1 = true ∧ Place.header.admits (.headerVs 1 1) = true := by decide

/-- Opcodes at the ends of the ranges of R95. -/
theorem witness_UnrecognisedOpcodes : ∀ op ∈ [(40 : Nat), 45, 47, 65, 67, 80, 82, 65532, 65534],
    decodesTo (.stream 2 0) [BitVec.ofNat 32 op] (.unrecognised (BitVec.ofNat 32 op)) = true := by decide +kernel

theorem witness_FloatText :
    field 0x7F800000 23 8 = 255 ∧ field 0x7F7FFFFF 23 8 ≠ 255 ∧ field 0x80000000 31 1 = 1 := by decide

/-- A tie: 2^-7 is 7812.5 millionths. -/
theorem witness_FloatText_tie : |((7812 : ℕ) : ℚ) - floatMagnitude 0x3C000000 * 10 ^ 6| = 1 / 2 := by
  have h1 : field 0x3C000000 23 8 = 120 := by decide
  have h2 : field 0x3C000000 0 23 = 0 := by decide
  norm_num [floatMagnitude, h1, h2]

theorem witness_NumberSpelling : 65535 < 16 ^ 4 ∧ 4294967295 < 16 ^ 8 ∧ 999999 < 10 ^ 6 ∧ (dec 0).head? = some 48 ∧
    (0x61 : Byte) ∈ hex4 10 ∧ (0x66 : Byte) ∈ hex8 15 ∧ (0x39 : Byte) ∈ decFixed 6 9 ∧ 99 < 100 := by
  decide

theorem witness_rows : bareRows ≠ [] ∧ oneSourceRows ≠ [] ∧ twoSourceRows ≠ [] ∧ unaryRows ≠ [] ∧ binaryRows ≠ [] ∧
    matrixRows ≠ [] ∧ ternaryRows ≠ [] ∧ decodeRows ≠ [] := by
  simp [bareRows, oneSourceRows, twoSourceRows, unaryRows, binaryRows, matrixRows, ternaryRows, decodeRows]

/-- Versions on both sides of 1.4 and of 2.0 (R92). -/
theorem witness_TextureInstructions :
    (1 : BitVec 8) = 1 ∧ (3 : BitVec 8).toNat < 4 ∧ 4 ≤ (4 : BitVec 8).toNat ∧ 2 ≤ (2 : BitVec 8).toNat ∧
      2 ≤ (255 : BitVec 8).toNat := by decide

theorem witness_Headers :
    field 0xFFFF0200 16 16 = 0xFFFF ∧ field 0xFFFE0101 16 16 = 0xFFFE ∧ field 0xFFFD0200 16 16 ≠ 0xFFFF ∧
      field 0xFFFD0200 16 16 ≠ 0xFFFE := by decide

theorem witness_ShaderFrame : Place.format.admits (.nop 0) = false ∧ Place.header.admits (.nop 0) = false ∧
    ∃ t, exec (.nop 0) State.reset = .next t := ⟨by decide, by decide, _, rfl⟩

theorem witness_FetchedTokens : (sbdRunning [0]).sbdInt.n ≤ (sbdRunning [0]).sbdInt.cur + 1 ∧
    (sbdRunning [0]).sbdInt.cur + 0 < (sbdRunning [0]).sbdInt.n := by decide

/-- A MOV that fits exactly, an END, and a MOV one token short. -/
theorem witness_CursorAdvance :
    let s := sbdRunning [0x02000001, 0x80070001, 0x81E40001]
    let e := sbdRunning [0xFFFF]
    let c := sbdRunning [0x02000001, 0x80070001]
    (s.sbd.busy = true ∧ (sbdInput s.sbdLatch).wraps = false ∧ s.sbdInt.ended = none ∧ 0 < s.sbdInt.cur ∧
      s.sbdInt.cur < s.sbdInt.n ∧ field (tokenAt s s.sbdInt.cur) 0 16 = 1 ∧ s.sbdInt.cur + opcodeLength (2, 0) 1 = s.sbdInt.n) ∧
    (field (tokenAt e e.sbdInt.cur) 0 16 = 65535 ∧ e.sbdInt.cur < e.sbdInt.n) ∧
    (c.sbd.busy = true ∧ (sbdInput c.sbdLatch).wraps = false ∧ c.sbdInt.ended = none ∧
      c.sbdInt.n + 1 = c.sbdInt.cur + opcodeLength (2, 0) 1) := by decide +kernel

/-- A finished command with 3 text bytes, and a buffer of 2. -/
def finished : State :=
  { sbdAt [0xFFFF0200] 1 2 with
    sbdInt := { SbdInternal.reset with n := 1, cur := 1, text := ascii "abc" } }

theorem witness_ShaderCompletion :
    finished.sbd.busy = true ∧ finished.mem.wf = true ∧ loopExit finished.sbdInt = some (.ok, 1) ∧
    (2 : Nat) = min finished.sbdInt.text.length finished.sbdLatch.dstCap.toNat ∧
    rangesLegal ⟨sbdInput finished.sbdLatch, sbdOutput finished.sbdLatch⟩ ⟨finished.sbdLatch.dstAddr.toNat, 2⟩
      (sbdRivals finished) (unseenInputs finished) := by
  unfold rangesLegal; decide +kernel

/-- A command of these tokens, started and left alone, its buffer of 256 bytes at 0x1000. -/
def started (toks : List Word) : State :=
  { sbdAt toks 0 256 with sbdInt := { SbdInternal.reset with n := toks.length } }

/-- A header and an END; the same with a token after it; and with two other tokens. -/
theorem witness_SbdStarted : SbdStarted (started [0xFFFF0200, 0xFFFF]) ∧ SbdStarted (started [0xFFFF0200, 0xFFFF, 1]) ∧
    SbdStarted (started [0xFFFF0200, 0xFFFF, 0x28, 7]) :=
  ⟨⟨rfl, rfl, rfl, by decide +kernel, by decide +kernel⟩, ⟨rfl, rfl, rfl, by decide +kernel, by decide +kernel⟩,
    ⟨rfl, rfl, rfl, by decide +kernel, by decide +kernel⟩⟩

theorem witness_ShaderCommand :
    let s := started [0xFFFF0200, 0xFFFF]
    ((sbDecode (inputTokens s)).1, (sbDecode (inputTokens s)).2.1.length, (sbDecode (inputTokens s)).2.2) = (.ok, 110, 2) ∧
    rangesLegal ⟨sbdInput s.sbdLatch, sbdOutput s.sbdLatch⟩ ⟨s.sbdLatch.dstAddr.toNat, 110⟩ (sbdRivals s)
      (unseenInputs s) := by
  unfold rangesLegal; decide +kernel

/-- Both commands end at the END: cursor 2 of three tokens, and two of the second's four agree. -/
theorem witness_TokensAfterEnd :
    let s := started [0xFFFF0200, 0xFFFF, 1]
    let s' := started [0xFFFF0200, 0xFFFF, 0x28, 7]
    shows (fun t => (t.sbd.err, t.sbd.cursor.toNat, t.sbdInt.text.length))
      (Sys2Proof.core.run (tokenCount s.sbdLatch.srcLen + 1) s) = some (.ok, 2, 110) ∧
    2 < tokenCount s.sbdLatch.srcLen ∧ 2 ≤ tokenCount s'.sbdLatch.srcLen ∧
    (∀ k, k < 2 → tokenAt s' k = tokenAt s k) ∧ (110 : Nat) = min 110 s'.sbdLatch.dstCap.toNat ∧
    rangesLegal ⟨sbdInput s'.sbdLatch, sbdOutput s'.sbdLatch⟩ ⟨s'.sbdLatch.dstAddr.toNat, 110⟩ (sbdRivals s')
      (unseenInputs s') := by
  unfold rangesLegal; decide +kernel

/-- A zero width, a zero height, an input one byte short. -/
theorem witness_SizeErrors : (bcdAt 0 0 4 []).bcdLatch.width = 0 ∧ (bcdAt 0 4 0 []).bcdLatch.height = 0 ∧
    (bcdAt 0 4 4 [1, 2, 3, 4, 5, 6, 7]).bcdLatch.srcLen.toNat < (4 + 3) / 4 * ((4 + 3) / 4) * 8 := by decide

/-- A 5×1 BC4 image: two blocks, cropped. -/
def twoBlocks : State := bcdAt 3 5 1 [9, 8, 7, 6, 5, 4, 3, 2, 1, 2, 3, 4, 5, 6, 7, 8]

theorem witness_BlockCommand :
    (Instr.decodeBc4, decodeBlock4, 8, 1) ∈ decodeRows ∧ twoBlocks.bcdLatch.width.toNat = 5 ∧
    twoBlocks.bcdLatch.height.toNat = 1 ∧ (5 + 3) / 4 * ((1 + 3) / 4) * 8 ≤ twoBlocks.bcdLatch.srcLen.toNat ∧
    twoBlocks.mem.wf = true ∧
    rangesLegal ⟨⟨twoBlocks.bcdLatch.srcAddr.toNat, 16⟩, ⟨twoBlocks.bcdLatch.dstAddr.toNat, 5⟩⟩
      ⟨twoBlocks.bcdLatch.dstAddr.toNat, 5⟩ (bcdRivals twoBlocks) (unseenInputs twoBlocks) :=
  ⟨by simp [decodeRows], by decide +kernel, by decide +kernel, by decide +kernel, by decide +kernel,
    by unfold rangesLegal; decide +kernel⟩

/-- The same image, its output elsewhere, in a machine that differs. -/
def twoBlocksMoved : State :=
  { twoBlocks with bcdLatch := { twoBlocks.bcdLatch with dstAddr := 0x2000 }, lastRead := 7, bcdInt := ⟨3, .reset⟩ }

theorem witness_BlockDeterminism :
    twoBlocksMoved.bcdLatch.width = twoBlocks.bcdLatch.width ∧ twoBlocksMoved.bcdLatch.height = twoBlocks.bcdLatch.height ∧
    twoBlocksMoved.bcdLatch.bc5Fix = twoBlocks.bcdLatch.bc5Fix ∧ 16 ≤ twoBlocks.bcdLatch.srcLen.toNat ∧
    16 ≤ twoBlocksMoved.bcdLatch.srcLen.toNat ∧ twoBlocks.mem.wf = true ∧ twoBlocksMoved.mem.wf = true ∧
    (∀ j, j < 16 → twoBlocks.mem.read j = twoBlocksMoved.mem.read j) ∧
    (∃ t, exec .decodeBc4 twoBlocks = .next t) ∧ (∃ t, exec .decodeBc4 twoBlocksMoved = .next t) :=
  ⟨by decide +kernel, by decide +kernel, by decide +kernel, by decide +kernel, by decide +kernel, by decide +kernel,
    by decide +kernel, by decide +kernel, exists_next (by decide +kernel), exists_next (by decide +kernel)⟩

/-- Blocks of both branches: color0 above color1, equal, below. -/
theorem witness_Bc1Texels : wordAt [1, 0, 0, 0] 2 < wordAt [1, 0, 0, 0] 0 ∧ ¬wordAt [1, 0, 1, 0] 2 < wordAt [1, 0, 1, 0] 0 ∧
    (15 : Nat) < 16 := by decide

theorem witness_RampOrder : (255 : Nat) ≤ 255 ∧ (7 : Nat) ≤ 255 - 248 ∧ ¬(7 : Nat) ≤ 255 - 249 ∧ (0 : Nat) ≤ 0 := by decide

theorem witness_StartCommand : (1 : Word).getLsbD 0 = true ∧ State.reset.bcd.busy = false ∧ State.reset.sbd.busy = false := by
  decide

theorem witness_StartIgnored : (bcdAt 0 4 4 []).bcd.busy = true ∧ (sbdRunning []).sbd.busy = true ∧
    (6 : Word).getLsbD 0 = false := by decide

theorem witness_ReadWriteRegisters : (0x08 : BitVec 8).toNat ∈ [0x08, 0x0C, 0x10, 0x14, 0x18, 0x1C] ∧
    (0x1C : BitVec 8).toNat ∈ [0x08, 0x0C, 0x10, 0x14, 0x18, 0x1C] ∧
    (0x14 : BitVec 8).toNat ∈ [0x08, 0x0C, 0x10, 0x14] := by decide

theorem witness_ReservedAndReadOnly : (0x20 : BitVec 8).toNat % 4 = 0 ∧ 0x20 ≤ (0xFC : BitVec 8).toNat ∧
    0x18 ≤ (0x18 : BitVec 8).toNat ∧ 0x24 ≤ (0x24 : BitVec 8).toNat ∧ (0xFC : BitVec 8).toNat % 4 = 0 := by decide

/-- A narrow access and a misaligned one, in a window and on the bus. -/
theorem witness_RefusedAccesses : (2 : Nat) ≠ 4 ∧ (0x05 : BitVec 8).toNat % 4 ≠ 0 ∧
    (RegTarget.window .sbd 0x05).resolve = some (.sbd, 0x05) ∧
    (RegTarget.bus (256 * Config.bcdPage + 5)).resolve = some (.bcd, 0x05) := by
  refine ⟨by decide, by decide, rfl, ?_⟩
  rw [RegTarget.resolve, if_pos (by omega)]
  congr 2
  apply BitVec.eq_of_toNat_eq
  change (256 * Config.bcdPage + 5) % 2 ^ 8 = 5
  omega

/-- An address past both windows. -/
theorem witness_BusWindows :
    256 * Config.bcdPage + 256 ≤ 256 * (Config.bcdPage + Config.sbdPage + 1) ∧
    256 * Config.sbdPage + 256 ≤ 256 * (Config.bcdPage + Config.sbdPage + 1) := by omega

theorem witness_StatusAndCtrlReads : (0x1C : BitVec 8).toNat % 4 = 0 := by decide

theorem witness_WritesWhileBusy :
    (bcdAt 0 4 4 []).bcd.busy = true ∧ (∃ t, hostAct (.regWrite (.window .bcd 0) 4 1) (bcdAt 0 4 4 []) = .next t) ∧
    (sbdRunning []).sbd.busy = true ∧ (∃ t, hostAct (.regWrite (.window .sbd 4) 4 2) (sbdRunning []) = .next t) :=
  ⟨by decide, ⟨_, rfl⟩, by decide, ⟨_, rfl⟩⟩

/-- A running BCD command and an address outside its output, and one inside. -/
theorem witness_ResetInput : twoBlocks.mem.wf = true ∧ twoBlocks.bcd.busy = true ∧
    (bcdOutput twoBlocks.bcdLatch).contains 0x0FFF = false ∧ (bcdOutput twoBlocks.bcdLatch).contains 0x1005 = false ∧
    (bcdOutput twoBlocks.bcdLatch).contains 0x1004 = true ∧ twoBlocks.sbd.busy = false := by decide +kernel

theorem witness_EnginesIndependent : (∃ t, runBcd twoBlocks = .next t) ∧ (∃ t, runSbd finished = .next t) :=
  ⟨exists_next (by decide +kernel), exists_next (by decide +kernel)⟩

/-- A 1×1 BC4 command whose input ends one past the last address, one whose output does; the same for the SBD. -/
theorem witness_WrappingRangesRefused :
    (0 < (1 : Word).toNat ∧ 8 ≤ (8 : Word).toNat ∧ 2 ^ 32 < (0xFFFFFFF9 : Word).toNat + 8 ∧
      2 ^ 32 < (0xFFFFFFFF : Word).toNat + 2 * 1 * 1) ∧
    (let s := { sbdRunning [] with sbdLatch := ⟨0xFFFFFFFD, 4, 0x1000, 256⟩ }
     s.sbd.busy = true ∧ 2 ^ 32 < s.sbdLatch.srcAddr.toNat + 4 * (s.sbdLatch.srcLen.toNat / 4)) ∧
    (let s := { finished with sbdLatch := ⟨0, 4, 0xFFFFFFFF, 2⟩ }
     s.sbd.busy = true ∧ loopExit s.sbdInt = some (.ok, 1) ∧
       2 ^ 32 < s.sbdLatch.dstAddr.toNat + min s.sbdInt.text.length s.sbdLatch.dstCap.toNat) := by decide +kernel

/-- An output that takes in the input's last byte; one that meets a range of the other engine's command; one that meets
the input of a completed command; an input that meets an output of the other engine's. The same for the SBD. -/
theorem witness_OverlapsRefused :
    (let s := { twoBlocks with bcdLatch := { twoBlocks.bcdLatch with dstAddr := 15 } }
     s.bcdLatch.dstAddr.toNat ≤ 15 ∧ 15 < s.bcdLatch.dstAddr.toNat + 5 ∧ s.bcdLatch.srcAddr.toNat ≤ 15 ∧
       15 < s.bcdLatch.srcAddr.toNat + 16 ∧ 16 ≤ s.bcdLatch.srcLen.toNat) ∧
    (let s := { twoBlocks with sbd := { SbdRegs.reset with busy := true }, sbdLatch := ⟨0x1004, 4, 0x0F, 1⟩ }
     (∃ g ∈ bcdRivals s, g.input.contains 0x1004 = true) ∧ ∃ g ∈ bcdRivals s, g.output.contains 0x0F = true) ∧
    (let s := { twoBlocks with sbdDuty := ⟨[⟨⟨⟨0x1004, 4⟩, ⟨0x2000, 8⟩⟩, [], []⟩], []⟩ }
     ∃ r ∈ unseenInputs s, r.contains 0x1004 = true) ∧
    (let s := { finished with sbdLatch := ⟨0, 4, 3, 2⟩ }
     s.sbd.busy = true ∧ loopExit s.sbdInt = some (.ok, 1) ∧ (sbdOutput s.sbdLatch).contains 3 = true ∧
       (sbdInput s.sbdLatch).contains 3 = true) ∧
    (let s := { finished with sbdDuty := ⟨[], [⟨⟨0x1001, 1⟩, ⟨3, 1⟩⟩]⟩ }
     (sbdOutput s.sbdLatch).contains 0x1001 = true ∧ (∃ g ∈ sbdRivals s, g.input.contains 0x1001 = true) ∧
       (sbdInput s.sbdLatch).contains 3 = true ∧ ∃ g ∈ sbdRivals s, g.output.contains 3 = true) ∧
    (let s := { finished with bcdDuty := ⟨[⟨⟨⟨0x1001, 8⟩, ⟨0x2000, 8⟩⟩, [], []⟩], []⟩ }
     s.sbdLatch.dstAddr.toNat ≤ 0x1001 ∧
       0x1001 < s.sbdLatch.dstAddr.toNat + min s.sbdInt.text.length s.sbdLatch.dstCap.toNat ∧
       ∃ r ∈ unseenInputs s, r.contains 0x1001 = true) := by decide +kernel

/-- A completed BC4 command that wrote 7 over 5 at 0x1000, and has not been seen. -/
def unseenCommand : Unseen := ⟨⟨⟨0, 16⟩, ⟨0x1000, 5⟩⟩, [(0x1000, 5)], [(0x1000, 7)]⟩

/-- A machine that runs nothing, with that command unseen. -/
def unseenState : State := { State.reset with bcdDuty := ⟨[unseenCommand], []⟩ }

/-- The last byte of a running command's ranges, and the first past them; a completed command's; no window open right
after reset; completions; a done engine; START of an idle one. -/
theorem witness_HostDuties :
    (twoBlocks.bcd.busy = true ∧ (bcdInput twoBlocks.bcdLatch).contains (15 : Word).toNat = true ∧
      (bcdOutput twoBlocks.bcdLatch).contains (0x1004 : Word).toNat = true) ∧
    (finished.sbd.busy = true ∧ (sbdInput finished.sbdLatch).contains (0 : Word).toNat = true ∧
      (sbdOutput finished.sbdLatch).contains (0x1001 : Word).toNat = true) ∧
    (∃ u ∈ unseenCommands unseenState, u.ranges.input.contains (15 : Word).toNat = true ∧
      u.ranges.output.contains (0x1004 : Word).toNat = true) ∧
    (twoBlocks.mem.wf = true ∧ (bcdInput twoBlocks.bcdLatch).contains (0x1005 : Word).toNat = false ∧
      (bcdOutput twoBlocks.bcdLatch).contains (0x1005 : Word).toNat = false ∧ twoBlocks.sbd.busy = false ∧
      unseenCommands twoBlocks = []) ∧
    ((∃ t, runBcd twoBlocks = .next t) ∧ loopExit finished.sbdInt = some (.ok, 1) ∧ ∃ t, runSbd finished = .next t) ∧
    (let s := { State.reset with bcd := { BcdRegs.reset with done := true, ie := true },
                                 sbd := { SbdRegs.reset with done := true, ie := true } }
     s.bcd.done = true ∧ s.sbd.done = true ∧ irqBcd s = true ∧ irqSbd s = true) ∧
    ((1 : Word).getLsbD 0 = true ∧ State.reset.bcd.busy = false ∧ State.reset.sbd.busy = false) :=
  ⟨by decide +kernel, by decide +kernel, by decide +kernel, by decide +kernel,
    ⟨exists_next (by decide +kernel), by decide +kernel, exists_next (by decide +kernel)⟩, by decide, by decide⟩

/-- A command that fails its checks keeps the host off its output range all the same (R37, R249). -/
theorem test_failing_output : nextState (hostAct (.memWrite 0x103F 1) (bcdAt 0 4 4 [])) = none ∧
    shows (fun t => t.mem.read 0x1040) (hostAct (.memWrite 0x1040 1) (bcdAt 0 4 4 [])) = some 1 := by decide +kernel

/-- A completed BCD command, unseen, under the output of a running SBD: a read of 0x1000 picks among memory, the SBD's
final byte, and the BCD's two (R37, R61). -/
theorem test_open_bytes :
    openBytes { finished with bcdDuty := ⟨[unseenCommand], []⟩ } 0x1000 = [0x61, 5, 7] ∧
    openBytes { finished with bcdDuty := ⟨[unseenCommand], []⟩ } 0x1001 = [0x62, 0, 0] ∧
    openBytes finished 0x1002 = [] := by decide +kernel

/-- A running BCD's last output byte and a running SBD's first, and an unseen command's; both commands complete. -/
theorem witness_BusyOutputReads :
    (twoBlocks.bcd.busy = true ∧ (bcdOutput twoBlocks.bcdLatch).contains (0x1004 : Word).toNat = true) ∧
    (∃ t, runBcd twoBlocks = .next t) ∧
    (finished.sbd.busy = true ∧ (sbdOutput finished.sbdLatch).contains (0x1000 : Word).toNat = true ∧
      (sbdToEnd (finished.sbdInt.n + 2) finished).isSome = true) ∧
    (unseenState.bcd.busy = false ∧ unseenState.sbd.busy = false ∧
      ∃ u ∈ unseenCommands unseenState, u.ranges.output.contains (0x1004 : Word).toNat = true) :=
  ⟨by decide +kernel, exists_next (by decide +kernel), by decide +kernel, by decide +kernel⟩

/-- An SBD at a NOP, one whose loop has ended, and a BCD command, each with an agenda and without; an idle machine. -/
theorem witness_StepRunsInstruction :
    (let s := sbdRunning [0]
     s.sbd.busy = true ∧ (sbdInput s.sbdLatch).wraps = false ∧ loopExit s.sbdInt = none ∧
       decodesTo (sbdPlace s) (fetchTokens s) (.nop 0) = true ∧ s.agenda = [] ∧
       { s with agenda := [.sbd, .bcd] }.agenda = .sbd :: [.bcd]) ∧
    (finished.sbd.busy = true ∧ (sbdInput finished.sbdLatch).wraps = false ∧
      loopExit finished.sbdInt = some (.ok, 1) ∧ finished.agenda = []) ∧
    (twoBlocks.bcd.busy = true ∧ twoBlocks.sbd.busy = false ∧ twoBlocks.agenda = [] ∧
       decodesTo .format [twoBlocks.bcdLatch.fmt.zeroExtend 32] .decodeBc4 = true) ∧
    ({ State.reset with agenda := [.host .rst, .sbd] }.agenda = .host .rst :: [.sbd] ∧ State.reset.sbd.busy = false ∧
      State.reset.bcd.busy = false) := by decide +kernel

/-- A running shader command with the invariant that takes a step. -/
theorem witness_InvariantKept : (sbdRunning [0]).Inv ∧ ∃ t, step (sbdRunning [0]) = .next t := by
  refine ⟨⟨by decide +kernel, ⟨by decide, by decide, by decide⟩, ⟨by decide, by decide, by decide, by decide⟩,
    fun _ => ⟨by decide, by decide, by decide, by decide, ?_⟩⟩, exists_next (by decide +kernel)⟩
  intro st c h
  cases h

/-- A truncated command at its end, with the invariant: it completes with CURSOR = n = 1 and the length of its text. -/
theorem witness_InvariantKept_truncated :
    let s := { finished with sbdInt := { finished.sbdInt with ended := some (.insufficientData, 1) } }
    s.Inv ∧ shows (fun t => (t.sbd.err, t.sbd.cursor, t.sbd.outLen)) (step s) = some (.insufficientData, 1, 3) := by
  refine ⟨⟨by decide +kernel, ⟨by decide, by decide, by decide⟩, ⟨by decide, by decide, by decide, by decide⟩,
    fun _ => ⟨by decide, by decide, by decide, by decide, ?_⟩⟩, by decide +kernel⟩
  intro st c h
  obtain ⟨rfl, rfl⟩ : st = .insufficientData ∧ c = 1 := by simpa [finished] using h.symm
  decide

end Sys2Proof.Tests
end

/-! Settles the statements about number spelling (00_scope.md R8, 30_encoding.md R97). -/

namespace Sys2Proof.Machine

theorem dec_zero : dec 0 = [48] := dec_digit (by decide)

/-- A spelling that begins with the digit 0 is that of zero: no leading zero is filled in (R8). -/
theorem eq_zero_of_head?_dec {n : Nat} (h : (dec n).head? = some 48) : n = 0 := by
  by_contra hn
  obtain ⟨d, rest, hdec, hpos, hlt⟩ := dec_leading (Nat.pos_of_ne_zero hn)
  have hd : decDigit d = 48 := by simpa [hdec] using h
  have hval : 48 + d = 48 := by rw [← decDigit_toNat hlt, hd]; rfl
  omega

theorem hexValue_hexFixed_of_lt {k n : Nat} (h : n < 16 ^ k) : hexValue (hexFixed k n) = n := by
  rw [hexValue_hexFixed, Nat.mod_eq_of_lt h]

theorem decValue_decFixed_of_lt {k n : Nat} (h : n < 10 ^ k) : decValue (decFixed k n) = n := by
  rw [decValue_decFixed, Nat.mod_eq_of_lt h]

/-- Settles O11: each conjunct is the value, digit or length lemma of its spelling. -/
theorem numberSpelling : Obligations.NumberSpelling := by
  intro n
  have no_leading_zero : (dec n).head? = some 48 → dec n = [48] := fun h =>
    eq_zero_of_head?_dec h ▸ dec_zero
  have hex_digits : ∀ b, b ∈ hex4 n ∨ b ∈ hex8 n →
      48 ≤ b.toNat ∧ b.toNat ≤ 57 ∨ 97 ≤ b.toNat ∧ b.toNat ≤ 102 := fun b hb =>
    hb.elim (hexFixed_digits 4 n b) (hexFixed_digits 8 n b)
  exact ⟨decValue_dec n, dec_digits n, no_leading_zero, dec_zero,
    hexValue_hexFixed_of_lt, length_hex4 n, hexValue_hexFixed_of_lt, length_hex8 n, hex_digits,
    decValue_decFixed_of_lt, length_decFixed 6 n, decFixed_digits 6 n,
    ⟨2 - (dec n).length, rfl⟩, length_pad2⟩

end Sys2Proof.Machine

/-! Settles the statements about the registers, reset, reads in open windows and the machine's invariant (10_state.md,
60_exceptions.md R220, R223). -/

namespace Sys2Proof.Machine

/-! ### Register reads -/

/-- What the host reads of the registers is a function of the registers. -/
theorem readReg_congr {s t : State} (hb : t.bcd = s.bcd) (hr : t.sbd = s.sbd) (win : Window) (offset : BitVec 8) :
    readReg win offset t = readReg win offset s := by
  cases win with
  | bcd => exact congrArg (bcdRead · offset) hb
  | sbd => exact congrArg (sbdRead · offset) hr

theorem bcdRead_reset (offset : BitVec 8) : bcdRead .reset offset = 0 := by
  unfold bcdRead
  split <;> rfl

theorem sbdRead_reset (offset : BitVec 8) : sbdRead .reset offset = 0 := by
  unfold sbdRead
  split <;> rfl

theorem readReg_reset (win : Window) (offset : BitVec 8) : readReg win offset State.reset = 0 := by
  cases win with
  | bcd => exact bcdRead_reset offset
  | sbd => exact sbdRead_reset offset

theorem irq_eq_false {s : State} (hb : s.bcd.done = false) (hr : s.sbd.done = false) (win : Window) :
    irq win s = false := by
  cases win with
  | bcd => simp [irq, irqBcd, hb]
  | sbd => simp [irq, irqSbd, hr]

/-- Settles O51, register by register. -/
theorem resetValues : Obligations.ResetValues := fun win offset =>
  ⟨readReg_reset win offset, irq_eq_false rfl rfl win⟩

theorem BcdRegs.toNat_status (r : BcdRegs) :
    r.status.toNat = r.busy.toNat + 2 * r.done.toNat + 16 * r.err.code.toNat := by
  unfold BcdRegs.status
  cases r.busy <;> cases r.done <;> cases r.err <;> rfl

theorem SbdRegs.toNat_status (r : SbdRegs) :
    r.status.toNat = r.busy.toNat + 2 * r.done.toNat + 16 * r.err.code.toNat + 256 * r.ovf.toNat := by
  unfold SbdRegs.status
  cases r.busy <;> cases r.done <;> cases r.err <;> cases r.ovf <;> rfl

theorem BcdRegs.toNat_ctrl (r : BcdRegs) : r.ctrl.toNat = 2 * r.ie.toNat + 4 * r.bc5Fix.toNat := by
  unfold BcdRegs.ctrl
  cases r.ie <;> cases r.bc5Fix <;> rfl

theorem SbdRegs.toNat_ctrl (r : SbdRegs) : r.ctrl.toNat = 2 * r.ie.toNat := by
  unfold SbdRegs.ctrl
  cases r.ie <;> rfl

/-- An aligned 32-bit access in a window is admitted (R56). -/
theorem admitted_of_aligned {offset : BitVec 8} (h : offset.toNat % 4 = 0) : admitted offset 4 = true := by
  simp [admitted, h]

theorem hostAct_regRead_window {win : Window} {offset : BitVec 8} (h : offset.toNat % 4 = 0) (s : State) :
    hostAct (.regRead (.window win offset) 4) s = .next (hostRegRead win offset s) := by
  simp [hostAct, RegTarget.resolve, admitted_of_aligned h]

theorem hostAct_regWrite_window {win : Window} {offset : BitVec 8} (h : offset.toNat % 4 = 0) (v : Word) (s : State) :
    hostAct (.regWrite (.window win offset) 4 v) s = .next (hostRegWrite win offset v s) := by
  simp [hostAct, RegTarget.resolve, admitted_of_aligned h]

/-- An access that is not refused has reached a register of one of the windows (R42, R54, R56). -/
theorem hostAct_regRead_next {target : RegTarget} {bytes : Nat} {s t : State}
    (h : hostAct (.regRead target bytes) s = .next t) : ∃ win offset, t = hostRegRead win offset s := by
  unfold hostAct at h
  dsimp only at h
  split at h
  · simp at h
  · split at h
    · exact ⟨_, _, (Host.Outcome.next.inj h).symm⟩
    · simp at h

theorem hostAct_regWrite_next {target : RegTarget} {bytes : Nat} {v : Word} {s t : State}
    (h : hostAct (.regWrite target bytes v) s = .next t) : ∃ win offset, t = hostRegWrite win offset v s := by
  unfold hostAct at h
  dsimp only at h
  split at h
  · simp at h
  · split at h
    · exact ⟨_, _, (Host.Outcome.next.inj h).symm⟩
    · simp at h

theorem hostRegRead_lastRead (win : Window) (offset : BitVec 8) (s : State) :
    (hostRegRead win offset s).lastRead = readReg win offset s := by
  unfold hostRegRead
  dsimp only
  split
  · exact observe_lastRead win _
  · rfl

/-- Settles O47: the four words from their bits, and the frame of a register read. -/
theorem statusAndCtrlReads : Obligations.StatusAndCtrlReads := by
  refine fun s => ⟨fun st => st.code.toNat, rfl, rfl, rfl, s.bcd.toNat_status, s.sbd.toNat_status, s.bcd.toNat_ctrl,
    s.sbd.toNat_ctrl, fun win offset hoffset => ⟨_, hostAct_regRead_window hoffset s, hostRegRead_lastRead .., ?_⟩⟩
  obtain ⟨v, he | ⟨-, he⟩⟩ := hostRegRead_cases win offset s
  · simp [he]
  · simp [he]

/-! ### Register writes -/

/-- Settles O49: a write is START, which an idle engine alone obeys, or it changes what the host may set. -/
theorem writesWhileBusy : Obligations.WritesWhileBusy := by
  intro s t target bytes v hstep
  obtain ⟨win, offset, rfl⟩ := hostAct_regWrite_next hstep
  cases win with
  | bcd =>
    simp only [hostRegWrite]
    obtain ⟨he, hidle⟩ | ⟨r, he, hbusy, herr, hlen, -⟩ := bcdWrite_cases offset v s
    · simp [he, hidle]
    · simp [he, hbusy, herr, hlen]
  | sbd =>
    simp only [hostRegWrite]
    obtain ⟨he, hidle⟩ | ⟨r, he, hbusy, herr, hlen, hovf, hcur, -⟩ := sbdWrite_cases offset v s
    · simp [he, hidle]
    · simp [he, hbusy, herr, hlen, hovf, hcur]

/-- FORMAT holds the three low bits of what was written (R19). -/
theorem setWidth_low_three (v : Word) : (v.extractLsb' 0 3).setWidth 32 = v &&& 7#32 := by
  apply BitVec.eq_of_toNat_eq
  have h : v.toNat &&& (2 ^ 3 - 1) = v.toNat % 2 ^ 3 := Nat.and_two_pow_sub_one_eq_mod _ 3
  have hfits : v.toNat % 8 % 4294967296 = v.toNat % 8 := by omega
  simpa [hfits] using h.symm

/-- What a write of a read-write register of the BCD does (R16, R19): it reads back, FORMAT its three low bits, and
every other register reads as before. -/
theorem bcdWrite_readWrite {offset : BitVec 8} (h : offset.toNat ∈ [0x08, 0x0C, 0x10, 0x14, 0x18, 0x1C]) (v : Word)
    (s : State) : ∃ r, bcdWrite offset v s = { s with bcd := r } ∧
      bcdRead r offset = (if offset = 0x08 then v &&& 7 else v) ∧ ∀ o ≠ offset, bcdRead r o = bcdRead s.bcd o := by
  have hcases : offset = 0x08 ∨ offset = 0x0C ∨ offset = 0x10 ∨ offset = 0x14 ∨ offset = 0x18 ∨ offset = 0x1C := by
    simpa [← BitVec.toNat_inj] using h
  rcases hcases with rfl | rfl | rfl | rfl | rfl | rfl
  all_goals
    refine ⟨_, rfl, by simp [bcdRead, setWidth_low_three], fun o ho => ?_⟩
    rw [← BitVec.toNat_inj.ne] at ho
    unfold bcdRead
    -- By the offset read: the field written is not among those it can still be.
    split <;> simp_all [BcdRegs.ctrl, BcdRegs.status]

/-- What a write of a read-write register of the SBD does (R16). -/
theorem sbdWrite_readWrite {offset : BitVec 8} (h : offset.toNat ∈ [0x08, 0x0C, 0x10, 0x14]) (v : Word) (s : State) :
    ∃ r, sbdWrite offset v s = { s with sbd := r } ∧ sbdRead r offset = v ∧
      ∀ o ≠ offset, sbdRead r o = sbdRead s.sbd o := by
  have hcases : offset = 0x08 ∨ offset = 0x0C ∨ offset = 0x10 ∨ offset = 0x14 := by
    simpa [← BitVec.toNat_inj] using h
  rcases hcases with rfl | rfl | rfl | rfl
  all_goals
    refine ⟨_, rfl, rfl, fun o ho => ?_⟩
    rw [← BitVec.toNat_inj.ne] at ho
    unfold sbdRead
    split <;> simp_all [SbdRegs.ctrl, SbdRegs.status]

/-- Settles O44, window by window: the register written reads back, every other one reads as before. -/
theorem readWriteRegisters : Obligations.ReadWriteRegisters := by
  rintro win offset (⟨rfl, h⟩ | ⟨rfl, h⟩) s v
  · have haligned : offset.toNat % 4 = 0 :=
      (by decide : ∀ n ∈ [0x08, 0x0C, 0x10, 0x14, 0x18, 0x1C], n % 4 = 0) _ h
    obtain ⟨r, he, hback, hothers⟩ := bcdWrite_readWrite h v s
    refine ⟨{ s with bcd := r }, (hostAct_regWrite_window haligned v s).trans (congrArg _ he), ?_, ?_, rfl, rfl,
      fun _ => rfl, rfl⟩
    · simpa [readReg] using hback
    · rintro (_ | _) o hne
      · exact hothers o fun ho => hne (ho ▸ rfl)
      · rfl
  · have haligned : offset.toNat % 4 = 0 := (by decide : ∀ n ∈ [0x08, 0x0C, 0x10, 0x14], n % 4 = 0) _ h
    obtain ⟨r, he, hback, hothers⟩ := sbdWrite_readWrite h v s
    refine ⟨{ s with sbd := r }, (hostAct_regWrite_window haligned v s).trans (congrArg _ he), ?_, ?_, rfl, rfl,
      fun _ => rfl, rfl⟩
    · simpa [readReg] using hback
    · rintro (_ | _) o hne
      · rfl
      · exact hothers o fun ho => hne (ho ▸ rfl)

/-! ### Reset -/

/-- Outside the output range of a running command lies outside the bytes that `rst` leaves unspecified (R39). -/
theorem outside_abandoned {busy : Bool} {output : Extent} {a : Nat} (h : busy = true → output.contains a = false) :
    a < output.base ∨ output.base + abandonedLen busy output ≤ a := by
  cases busy with
  | false => simp only [abandonedLen, Bool.false_eq_true, if_false]; omega
  | true =>
    have hout := h rfl
    simp only [Extent.contains, Bool.and_eq_false_iff, decide_eq_false_iff_not] at hout
    simp only [abandonedLen, if_true]
    omega

/-- Settles O52: registers as right after reset; each engine's free bytes stay in the output range it abandons. -/
theorem resetInput : Obligations.ResetInput := by
  intro s hm
  have hregs (win : Window) (offset : BitVec 8) : readReg win offset (hostReset s) = 0 :=
    (readReg_congr rfl rfl win offset).trans (readReg_reset win offset)
  refine ⟨hostReset s, rfl, hregs, rfl, rfl, rfl, rfl, irq_eq_false rfl rfl, fun a hbcd hsbd => ?_⟩
  exact (read_freeBytes_outside (wf_freeBytes hm) (outside_abandoned hsbd)).trans
    (read_freeBytes_outside hm (outside_abandoned hbcd))

/-! ### Reads in open windows -/

theorem mem_finalByte {busy : Bool} {output : Extent} {final : Option Memory} {free b : Byte} {a : Nat} :
    b ∈ finalByte busy output final free a ↔
      busy = true ∧ output.contains a = true ∧ b = (final.map (·.read a)).getD free := by
  simp [finalByte, and_assoc]

theorem Unseen.mem_bytesAt {u : Unseen} {a : Nat} {b : Byte} :
    b ∈ u.bytesAt a ↔ u.ranges.output.contains a = true ∧ (b = u.before.read a ∨ b = u.after.read a) := by
  simp [Unseen.bytesAt]

/-- The final values are those of the state the BCD's command completes in. -/
theorem bcdFinal_of_runs {s sb : State} (h : runBcd s = .next sb) : bcdFinal s = some sb.mem := by
  simp [bcdFinal, h]

theorem sbdFinal_of_runs {s ss : State} (h : sbdToEnd (s.sbdInt.n + 2) s = some ss) : sbdFinal s = some ss.mem := by
  simp [sbdFinal, h]

/-- The bytes of the open windows, where the running commands complete (R37, R61). -/
theorem mem_openBytes {s sb ss : State} (hsb : s.bcd.busy = true → runBcd s = .next sb)
    (hss : s.sbd.busy = true → sbdToEnd (s.sbdInt.n + 2) s = some ss) {a : Nat} {b : Byte} :
    b ∈ openBytes s a ↔
      s.bcd.busy = true ∧ (bcdOutput s.bcdLatch).contains a = true ∧ b = sb.mem.read a ∨
        s.sbd.busy = true ∧ (sbdOutput s.sbdLatch).contains a = true ∧ b = ss.mem.read a ∨
        ∃ u ∈ unseenCommands s, u.ranges.output.contains a = true ∧ (b = u.before.read a ∨ b = u.after.read a) := by
  have hbcd (hb : s.bcd.busy = true) := bcdFinal_of_runs (hsb hb)
  have hsbd (hb : s.sbd.busy = true) := sbdFinal_of_runs (hss hb)
  simp only [openBytes, List.mem_append, mem_finalByte, List.mem_flatMap, Unseen.mem_bytesAt, or_assoc]
  refine or_congr (and_congr_right fun hb => ?_) (or_congr_left (and_congr_right fun hb => ?_))
  · simp [hbcd hb]
  · simp [hsbd hb]

/-- Settles O57: the value read is a pick from memory's byte and the bytes of the open windows. -/
theorem busyOutputReads : Obligations.BusyOutputReads := by
  intro s sb ss a hsb hss
  obtain ⟨v, i, hframe⟩ := hostMemRead_frame a s
  obtain ⟨values, hvalues, hread⟩ := hostMemRead_lastRead a s
  have hpick : Config.freePick s.freeIdx % values.length < values.length :=
    Nat.mod_lt _ (by simp [hvalues])
  refine ⟨hostMemRead a s, values, rfl, fun b => ?_, ⟨_, List.getElem?_eq_getElem hpick, ?_⟩, ?_, ?_, ?_⟩
  · rw [hvalues, List.mem_cons, mem_openBytes hsb hss]
  · simpa [byteAt, hpick] using hread
  · simp [hframe]
  · simp [hframe]
  · simp [hframe]

/-! ### The invariant: what keeps each part of it -/

/-- The BCD's invariant speaks of BUSY, DONE, ERR and OUT_LEN alone, and losing DONE does it no harm. -/
theorem BcdInv.of_kept {s t : State} (h : BcdInv s) (hbusy : t.bcd.busy = s.bcd.busy)
    (hdone : t.bcd.done = true → s.bcd.done = true) (herr : t.bcd.err = s.bcd.err)
    (hlen : t.bcd.outLen = s.bcd.outLen) : BcdInv t where
  exclusive := fun ⟨hb, hd⟩ => h.exclusive ⟨hbusy ▸ hb, hdone hd⟩
  quiet hb := herr ▸ h.quiet (hbusy ▸ hb)
  errorLength he := hlen ▸ h.errorLength (herr ▸ he)

theorem BcdInv.congr {s t : State} (h : BcdInv s) (hb : t.bcd = s.bcd) : BcdInv t :=
  h.of_kept (by rw [hb]) (by rw [hb]; exact id) (by rw [hb]) (by rw [hb])

/-- The SBD's registers keep their invariant beside the same text and latch, though DONE be lost. -/
theorem SbdInv.of_kept {s t : State} (h : SbdInv s) (hint : t.sbdInt = s.sbdInt) (hlatch : t.sbdLatch = s.sbdLatch)
    (hbusy : t.sbd.busy = s.sbd.busy) (hdone : t.sbd.done = true → s.sbd.done = true) (herr : t.sbd.err = s.sbd.err)
    (hlen : t.sbd.outLen = s.sbd.outLen) (hovf : t.sbd.ovf = s.sbd.ovf) (hcur : t.sbd.cursor = s.sbd.cursor) :
    SbdInv t where
  exclusive := fun ⟨hb, hd⟩ => h.exclusive ⟨hbusy ▸ hb, hdone hd⟩
  quiet hb := by rw [herr, hovf]; exact h.quiet (hbusy ▸ hb)
  rejected he := by rw [hlen, hcur]; exact h.rejected (herr ▸ he)
  truncated he := by rw [hlen, hcur, hint, hlatch]; exact h.truncated (herr ▸ he)

theorem SbdInv.congr {s t : State} (h : SbdInv s) (hint : t.sbdInt = s.sbdInt) (hlatch : t.sbdLatch = s.sbdLatch)
    (hr : t.sbd = s.sbd) : SbdInv t :=
  h.of_kept hint hlatch (by rw [hr]) (by rw [hr]; exact id) (by rw [hr]) (by rw [hr]) (by rw [hr]) (by rw [hr])

/-- With no DONE, error or OVF to show, the SBD's registers keep their invariant: after reset (R38) and START (R227). -/
theorem SbdInv.of_quiet {s : State} (hdone : s.sbd.done = false) (herr : s.sbd.err = .ok) (hovf : s.sbd.ovf = false) :
    SbdInv s where
  exclusive := by simp [hdone]
  quiet _ := ⟨herr, hovf⟩
  rejected he := by simp [herr] at he
  truncated he := by simp [herr] at he

/-- A running SBD whose registers stay may change its text and cursor: no error shows yet (R223). -/
theorem SbdInv.of_running {s t : State} (h : SbdInv s) (hb : s.sbd.busy = true) (hr : t.sbd = s.sbd) : SbdInv t := by
  obtain ⟨herr, hovf⟩ := h.quiet hb
  have hdone : s.sbd.done = false := by
    cases hd : s.sbd.done
    · rfl
    · exact absurd ⟨hb, hd⟩ h.exclusive
  exact .of_quiet (hr ▸ hdone) (hr ▸ herr) (hr ▸ hovf)

theorem SbdRunInv.congr {s t : State} (h : SbdRunInv s) (hint : t.sbdInt = s.sbdInt)
    (hlatch : t.sbdLatch = s.sbdLatch) : SbdRunInv t where
  count := by rw [hint, hlatch]; exact h.count
  cursor := by rw [hint]; exact h.cursor
  printable := by rw [hint]; exact h.printable
  beforeHeader := by rw [hint]; exact h.beforeHeader
  ended := by rw [hint]; exact h.ended

/-- The invariant says nothing of the model's own fields, of the BCD's latch or of its internals. -/
theorem State.Inv.congr {s t : State} (h : s.Inv) (hm : t.mem = s.mem) (hb : t.bcd = s.bcd) (hr : t.sbd = s.sbd)
    (hint : t.sbdInt = s.sbdInt) (hlatch : t.sbdLatch = s.sbdLatch) : t.Inv where
  mem := hm ▸ h.mem
  bcd := h.bcd.congr hb
  sbd := h.sbd.congr hint hlatch hr
  run hbusy := (h.run (hr ▸ hbusy)).congr hint hlatch

/-! ### A header or an instruction of the SBD keeps the running command's invariant -/

/-- Printing lines and passing tokens short of n keeps it (R137, R147). -/
theorem SbdRunInv.printed {s : State} (h : SbdRunInv s) {ops : List Bytes} {lines : Bytes} {used : Nat}
    (hp : Printable lines) (hc : 0 < s.sbdInt.cur) (hle : s.sbdInt.cur + used ≤ s.sbdInt.n)
    (hnone : s.sbdInt.ended = none) : SbdRunInv (s.printed ops lines used) where
  count := h.count
  cursor := hle
  printable := Printable.append h.printable hp
  beforeHeader h0 := by simp only [State.printed_sbdInt] at h0; omega
  ended st c he := by simp [hnone] at he

/-- Being cut off by the end of the stream keeps it: the cursor is n (R143). -/
theorem SbdRunInv.cutOff {s : State} (h : SbdRunInv s) {ops : List Bytes} {part : Bytes}
    (hp : Printable part) (hn : 0 < s.sbdInt.n) : SbdRunInv (s.cutOff ops part) where
  count := h.count
  cursor := Nat.le_refl _
  printable := Printable.append h.printable hp
  beforeHeader h0 := by simp only [State.cutOff_sbdInt] at h0; omega
  ended st c he := by
    simp only [State.cutOff_sbdInt, Option.some.injEq, Prod.mk.injEq] at he ⊢
    obtain ⟨rfl, rfl⟩ := he
    simp

/-- The header line keeps it: the cursor is then 1 (R133). -/
theorem SbdRunInv.emitHeader {s : State} (h : SbdRunInv s) {prog : String} {major minor : BitVec 8}
    (hprog : prog = "ps" ∨ prog = "vs") (hn : 0 < s.sbdInt.n) (hnone : s.sbdInt.ended = none) :
    SbdRunInv (emitHeader prog major minor s) where
  count := h.count
  cursor := hn
  printable := by
    have hname : Printable (ascii prog) := by rcases hprog with rfl | rfl <;> decide
    have hbar : Printable (ascii "_") := by decide
    have hend : Printable (ascii "\n") := by decide
    exact Printable.append h.printable
      ((((hname.append hbar).append (printable_dec _)).append hbar).append (printable_dec _) |>.append hend)
  beforeHeader h0 := by simp at h0
  ended st c he := by simp [hnone] at he

/-- A rejected header keeps it: nothing has been printed yet (R132). -/
theorem SbdRunInv.headerRejected {s : State} (h : SbdRunInv s) (hc : s.sbdInt.cur = 0) :
    SbdRunInv { s with sbdInt := { s.sbdInt with ended := some (.unsupportedFormat, 0) } } where
  count := h.count
  cursor := h.cursor
  printable := h.printable
  beforeHeader := h.beforeHeader
  ended st c he := by
    simp only [Option.some.injEq, Prod.mk.injEq] at he
    obtain ⟨rfl, rfl⟩ := he
    exact ⟨Nat.zero_le _, fun _ => ⟨rfl, h.beforeHeader hc⟩, by simp⟩

/-- The normal end of the loop keeps it: OK at the present cursor (R144). -/
theorem SbdRunInv.endLoop {s : State} (h : SbdRunInv s) : SbdRunInv (endLoop .ok s) where
  count := h.count
  cursor := h.cursor
  printable := h.printable
  beforeHeader := h.beforeHeader
  ended st c he := by
    simp only [endLoop_sbdInt, Option.some.injEq, Prod.mk.injEq] at he ⊢
    obtain ⟨rfl, rfl⟩ := he
    exact ⟨h.cursor, by simp, by simp⟩

/-! ### The SBD's step -/

/-- How a loop ends: as an instruction ended it, with no token at all (R131), or past the last token (R146). -/
theorem loopExit_some {i : SbdInternal} {st : Status} {c : Nat} (h : loopExit i = some (st, c)) :
    i.ended = some (st, c) ∨ i.n = 0 ∧ st = .insufficientData ∧ c = 0 ∨ st = .ok ∧ c = i.cur := by
  unfold loopExit at h
  split at h
  · exact .inl h
  · split at h
    · rename_i hn
      obtain ⟨rfl, rfl⟩ : Status.insufficientData = st ∧ 0 = c := by simpa using h
      exact .inr (.inl ⟨hn, rfl, rfl⟩)
    · split at h
      · simp at h
      · obtain ⟨rfl, rfl⟩ : Status.ok = st ∧ i.cur = c := by simpa using h
        exact .inr (.inr ⟨rfl, rfl⟩)

/-- What a loop reports when it ends (R132, R143, R146). -/
theorem SbdRunInv.loopExit {s : State} (h : SbdRunInv s) {st : Status} {c : Nat}
    (hx : loopExit s.sbdInt = some (st, c)) :
    (st = .unsupportedFormat → c = 0 ∧ s.sbdInt.text = []) ∧ (st = .insufficientData → c = s.sbdInt.n) := by
  obtain he | ⟨hn, rfl, rfl⟩ | ⟨rfl, rfl⟩ := loopExit_some hx
  · exact (h.ended st c he).2
  · exact ⟨by simp, fun _ => hn.symm⟩
  · exact ⟨by simp, by simp⟩

/-- Without a token nothing is printed (R131). -/
theorem SbdRunInv.text_of_no_token {s : State} (h : SbdRunInv s) (hn : s.sbdInt.n = 0) : s.sbdInt.text = [] :=
  h.beforeHeader (Nat.le_zero.1 (hn ▸ h.cursor))

/-- Completion leaves the registers as R220 says, for each way the loop can end. -/
theorem sbdInv_sbdComplete {s : State} (h : SbdRunInv s) {st : Status} {c : Nat}
    (hx : loopExit s.sbdInt = some (st, c)) : SbdInv (sbdComplete st c s) := by
  obtain ⟨hrejected, htruncated⟩ := h.loopExit hx
  constructor
  case exclusive => simp
  case quiet => simp
  case rejected =>
    intro hst
    obtain ⟨rfl, htext⟩ := hrejected hst
    simp [htext]
  case truncated =>
    intro hst
    obtain rfl := htruncated hst
    refine ⟨rfl, by simp [h.count], fun hn => ?_⟩
    have hn' : s.sbdInt.n = 0 := h.count.trans hn
    simp [hn', h.text_of_no_token hn']

theorem wf_sbdStored {s : State} (hm : s.mem.wf = true)
    (hfit : (sbdTextRange s).base + (sbdTextRange s).len ≤ sysSize) : (sbdStored s).wf = true :=
  Memory.wf_writeBytes hm hfit

/-- The SBD's completion keeps the invariant. -/
theorem inv_sbdFinish {s t : State} {st : Status} {c : Nat} (h : s.Inv) (hb : s.sbd.busy = true)
    (hx : loopExit s.sbdInt = some (st, c)) (hstep : sbdFinish st c s = .next t) : t.Inv := by
  obtain ⟨rfl, -, hfit, -⟩ := sbdFinish_next hstep
  exact ⟨wf_sbdStored h.mem hfit, h.bcd.congr rfl, sbdInv_sbdComplete (h.run hb) hx, by simp⟩

/-- A step of a running SBD that changes its internals alone keeps the invariant if it keeps the command's. -/
theorem State.Inv.of_running {s t : State} (h : s.Inv) (hb : s.sbd.busy = true) (hm : t.mem = s.mem)
    (hbcd : t.bcd = s.bcd) (hr : t.sbd = s.sbd) (hrun : SbdRunInv t) : t.Inv :=
  ⟨hm ▸ h.mem, h.bcd.congr hbcd, h.sbd.of_running hb hr, fun _ => hrun⟩

/-- The header's step keeps the invariant. -/
theorem inv_sbdStep_header {s t : State} (h : s.Inv) (hb : s.sbd.busy = true) (hx : loopExit s.sbdInt = none)
    (hc : s.sbdInt.cur = 0) (hstep : exec (decodeHeader (tokenAt s 0)) s = .next t) : t.Inv := by
  obtain ⟨hnone, hn, -⟩ := loopExit_none hx
  obtain ⟨prog, major, minor, hprog, he⟩ | he := exec_header (admits_decodeHeader (tokenAt s 0)) s
  · rw [he] at hstep
    obtain rfl := Host.Outcome.next.inj hstep
    exact h.of_running hb rfl rfl rfl ((h.run hb).emitHeader hprog hn hnone)
  · rw [he] at hstep
    obtain rfl := Host.Outcome.next.inj hstep
    exact h.of_running hb rfl rfl rfl ((h.run hb).headerRejected hc)

/-- An instruction's step keeps the invariant: it prints and passes its tokens, END also ending the loop, or it is cut
off. -/
theorem inv_sbdStep_stream {s t : State} (h : s.Inv) (hb : s.sbd.busy = true)
    (hw : (sbdInput s.sbdLatch).wraps = false) (hx : loopExit s.sbdInt = none) (hc : 0 < s.sbdInt.cur)
    (hstep : sbdStep s = .next t) : t.Inv := by
  obtain ⟨hnone, hn, -⟩ := loopExit_none hx
  obtain ⟨ops, text, hp, he⟩ := sbdStep_stream_outcome hw hx hc rfl rfl
  rw [he] at hstep
  obtain rfl := Host.Outcome.next.inj hstep
  split
  · rename_i hle
    have hprinted := (h.run hb).printed (ops := ops) hp hc hle hnone
    split
    · exact h.of_running hb rfl rfl rfl hprinted.endLoop
    · exact h.of_running hb rfl rfl rfl hprinted
  · exact h.of_running hb rfl rfl rfl ((h.run hb).cutOff hp hn)

theorem inv_sbdStep {s t : State} (h : s.Inv) (hb : s.sbd.busy = true) (hstep : sbdStep s = .next t) : t.Inv := by
  obtain ⟨hw, ⟨st, c, hx, hfin⟩ | ⟨hx, hc, he⟩ | ⟨hx, hc, -⟩⟩ := sbdStep_next hstep
  · exact inv_sbdFinish h hb hx hfin
  · exact inv_sbdStep_header h hb hx hc he
  · exact inv_sbdStep_stream h hb hw hx hc hstep

theorem inv_runSbd {s t : State} (h : s.Inv) (hstep : runSbd s = .next t) : t.Inv := by
  unfold runSbd at hstep
  split at hstep
  · rename_i hb; exact inv_sbdStep h hb hstep
  · exact Host.Outcome.next.inj hstep ▸ h

/-! ### The BCD's step -/

/-- FMT names a DECODE command, or a format whose command raises UNSUPPORTED_FORMAT (R67, R101). -/
theorem exec_decodeFmt (fmt : BitVec 3) (s : State) :
    (∃ row ∈ decodeRows, exec (decodeFmt fmt) s = bcdCommand row.2.1 row.2.2.1 row.2.2.2 s) ∨
      exec (decodeFmt fmt) s = .next (bcdRaise .unsupportedFormat s) := by
  unfold decodeFmt
  split
  · exact .inl ⟨(.decodeBc1, decodeBlock1, 8, 4), by simp [decodeRows], rfl⟩
  · exact .inl ⟨(.decodeBc2, decodeBlock2, 16, 4), by simp [decodeRows], rfl⟩
  · exact .inl ⟨(.decodeBc3, decodeBlock3, 16, 4), by simp [decodeRows], rfl⟩
  · exact .inl ⟨(.decodeBc4, decodeBlock4, 8, 1), by simp [decodeRows], rfl⟩
  · exact .inl ⟨(.decodeBc5, decodeBlock5, 16, 2), by simp [decodeRows], rfl⟩
  all_goals exact .inr rfl

/-- All that the BCD's step can do: complete, an error with OUT_LEN 0 (R107), memory canonical as before. -/
theorem bcdStep_next {s t : State} (hm : s.mem.wf = true) (hstep : bcdStep s = .next t) :
    ∃ st len mem int, t = { bcdComplete st len mem s with bcdInt := int } ∧ (st ≠ .ok → len = 0) ∧
      mem.wf = true := by
  unfold bcdStep at hstep
  obtain ⟨row, hrow, he⟩ | he := exec_decodeFmt s.bcdLatch.fmt s
  · rw [he] at hstep
    obtain ⟨-, rfl⟩ | ⟨p, hp, ⟨-, hfit, -⟩, rfl⟩ := bcdCommand_next hstep
    · exact ⟨.insufficientData, 0, s.mem, s.bcdInt, rfl, fun _ => rfl, hm⟩
    · exact ⟨.ok, p.outLen, _, _, rfl, by simp, (bcdCommand_mem hrow hp hfit hm rfl).1⟩
  · rw [he] at hstep
    obtain rfl := Host.Outcome.next.inj hstep
    exact ⟨.unsupportedFormat, 0, s.mem, s.bcdInt, rfl, fun _ => rfl, hm⟩

theorem inv_bcdStep {s t : State} (h : s.Inv) (hstep : bcdStep s = .next t) : t.Inv := by
  obtain ⟨st, len, mem, int, rfl, hlen, hm⟩ := bcdStep_next h.mem hstep
  refine ⟨hm, ⟨by simp, by simp, fun he => ?_⟩, h.sbd.congr rfl rfl rfl, fun hb => (h.run hb).congr rfl rfl⟩
  simp [hlen he]

theorem inv_runBcd {s t : State} (h : s.Inv) (hstep : runBcd s = .next t) : t.Inv := by
  unfold runBcd at hstep
  split at hstep
  · exact inv_bcdStep h hstep
  · exact Host.Outcome.next.inj hstep ▸ h

/-! ### The host's turn -/

/-- Settles O59: no engine runs and no error shows right after reset. -/
theorem invariantAtReset : Obligations.InvariantAtReset where
  mem := rfl
  bcd := ⟨by simp [State.reset, BcdRegs.reset], fun _ => rfl, fun _ => rfl⟩
  sbd := .of_quiet rfl rfl rfl
  run hb := by simp [State.reset, SbdRegs.reset] at hb

/-- A START of the BCD keeps the invariant (R227). -/
theorem inv_bcdStart {s : State} (h : s.Inv) : (bcdStart s).Inv :=
  ⟨h.mem, ⟨by simp, fun _ => rfl, by simp⟩, h.sbd.congr rfl rfl rfl, fun hb => (h.run hb).congr rfl rfl⟩

/-- What START leaves in the SBD: cursor 0, no text, the latch's token count (R32, R33). -/
theorem sbdRunInv_sbdStart (s : State) : SbdRunInv (sbdStart s) where
  count := rfl
  cursor := Nat.zero_le _
  printable := rfl
  beforeHeader _ := rfl
  ended st c he := by simp [SbdInternal.reset] at he

/-- A START of the SBD keeps the invariant (R227). -/
theorem inv_sbdStart {s : State} (h : s.Inv) : (sbdStart s).Inv :=
  ⟨h.mem, h.bcd.congr rfl, .of_quiet rfl rfl rfl, fun _ => sbdRunInv_sbdStart s⟩

/-- BCD registers that keep BUSY, ERR and OUT_LEN and set no DONE keep the invariant. -/
theorem inv_withBcd {s : State} (h : s.Inv) {r : BcdRegs} (hbusy : r.busy = s.bcd.busy) (herr : r.err = s.bcd.err)
    (hlen : r.outLen = s.bcd.outLen) (hdone : r.done = true → s.bcd.done = true) : State.Inv { s with bcd := r } :=
  ⟨h.mem, h.bcd.of_kept hbusy hdone herr hlen, h.sbd.congr rfl rfl rfl, fun hb => (h.run hb).congr rfl rfl⟩

/-- SBD registers that keep what the hardware reports and set no DONE keep the invariant. -/
theorem inv_withSbd {s : State} (h : s.Inv) {r : SbdRegs} (hbusy : r.busy = s.sbd.busy) (herr : r.err = s.sbd.err)
    (hlen : r.outLen = s.sbd.outLen) (hovf : r.ovf = s.sbd.ovf) (hcur : r.cursor = s.sbd.cursor)
    (hdone : r.done = true → s.sbd.done = true) : State.Inv { s with sbd := r } :=
  ⟨h.mem, h.bcd.congr rfl, h.sbd.of_kept rfl rfl hbusy hdone herr hlen hovf hcur,
    fun hb => (h.run (hbusy ▸ hb)).congr rfl rfl⟩

theorem inv_bcdWrite {s : State} (h : s.Inv) (offset : BitVec 8) (v : Word) : (bcdWrite offset v s).Inv := by
  obtain ⟨he, -⟩ | ⟨r, he, hbusy, herr, hlen, hdone⟩ := bcdWrite_cases offset v s
  · exact he ▸ inv_bcdStart (inv_withBcd h rfl rfl rfl id)
  · exact he ▸ inv_withBcd h hbusy herr hlen hdone

theorem inv_sbdWrite {s : State} (h : s.Inv) (offset : BitVec 8) (v : Word) : (sbdWrite offset v s).Inv := by
  obtain ⟨he, -⟩ | ⟨r, he, hbusy, herr, hlen, hovf, hcur, hdone⟩ := sbdWrite_cases offset v s
  · exact he ▸ inv_sbdStart (inv_withSbd h rfl rfl rfl rfl rfl id)
  · exact he ▸ inv_withSbd h hbusy herr hlen hovf hcur hdone

theorem inv_hostRegWrite {s : State} (h : s.Inv) (win : Window) (offset : BitVec 8) (v : Word) :
    (hostRegWrite win offset v s).Inv := by
  cases win with
  | bcd => exact inv_bcdWrite h offset v
  | sbd => exact inv_sbdWrite h offset v

/-- What the host reads, and which duties it has seen end, is no part of the invariant. -/
theorem inv_observe {s : State} (h : s.Inv) (win : Window) (v : Word) : (observe win { s with lastRead := v }).Inv :=
  h.congr (by simp) (by simp) (by simp) (by simp) (by simp)

theorem inv_hostRegRead {s : State} (h : s.Inv) (win : Window) (offset : BitVec 8) :
    (hostRegRead win offset s).Inv := by
  obtain ⟨v, he | ⟨-, he⟩⟩ := hostRegRead_cases win offset s
  · exact he ▸ h.congr rfl rfl rfl rfl rfl
  · exact he ▸ inv_observe h win v

theorem inv_hostObserveIrq {s : State} (h : s.Inv) (win : Window) : (hostObserveIrq win s).Inv := by
  obtain ⟨v, he | ⟨-, he⟩⟩ := hostObserveIrq_cases win s
  · exact he ▸ h.congr rfl rfl rfl rfl rfl
  · exact he ▸ inv_observe h win v

theorem inv_hostMemRead {s : State} (h : s.Inv) (addr : Word) : (hostMemRead addr s).Inv := by
  obtain ⟨v, i, he⟩ := hostMemRead_frame addr s
  exact he ▸ h.congr rfl rfl rfl rfl rfl

theorem inv_hostMemWrite {s t : State} (h : s.Inv) {addr : Word} {v : Byte} (hstep : hostMemWrite addr v s = .next t) :
    t.Inv := by
  obtain ⟨-, rfl⟩ := hostMemWrite_next hstep
  exact ⟨Memory.wf_write h.mem addr.isLt, h.bcd.congr rfl, h.sbd.congr rfl rfl rfl,
    fun hb => (h.run hb).congr rfl rfl⟩

/-- `rst` writes free bytes inside SYS and leaves the registers as they are right after reset. -/
theorem inv_hostReset {s : State} (h : s.Inv) : (hostReset s).Inv :=
  have reset : State.reset.Inv := invariantAtReset
  ⟨wf_freeBytes (wf_freeBytes h.mem), reset.bcd.congr rfl, reset.sbd.congr rfl rfl rfl,
    fun hb => (reset.run hb).congr rfl rfl⟩

theorem inv_hostAct {s t : State} (h : s.Inv) {a : HostAction} (hstep : hostAct a s = .next t) : t.Inv := by
  cases a with
  | regRead target bytes =>
    obtain ⟨win, offset, rfl⟩ := hostAct_regRead_next hstep
    exact inv_hostRegRead h win offset
  | regWrite target bytes v =>
    obtain ⟨win, offset, rfl⟩ := hostAct_regWrite_next hstep
    exact inv_hostRegWrite h win offset v
  | memRead addr => exact Host.Outcome.next.inj hstep ▸ inv_hostMemRead h addr
  | memWrite addr v => exact inv_hostMemWrite h hstep
  | observeIrq win => exact Host.Outcome.next.inj hstep ▸ inv_hostObserveIrq h win
  | rst => exact Host.Outcome.next.inj hstep ▸ inv_hostReset h

/-- Settles O60: each of the three actors keeps the invariant, the host by its actions, the BCD by its completion, the
SBD by a header, an instruction or its completion. -/
theorem invariantKept : Obligations.InvariantKept := by
  intro s t h hstep
  have popped (rest : List Event) : State.Inv { s with agenda := rest } := h.congr rfl rfl rfl rfl rfl
  obtain ⟨a, rest, -, hact⟩ | ⟨rest, -, hrun⟩ | ⟨rest, -, hrun⟩ | ⟨-, ⟨-, hrun⟩ | ⟨-, hrun⟩⟩ := step_next hstep
  · exact inv_hostAct (popped rest) hact
  · exact inv_runBcd (popped rest) hrun
  · exact inv_runSbd (popped rest) hrun
  · exact inv_runSbd h hrun
  · exact inv_runBcd h hrun

end Sys2Proof.Machine

/-! Settles the statements about memory, the register windows' accesses and the host's duties (20_memory.md). -/

namespace Sys2Proof.Machine

/-! ### Fetched tokens -/

/-- The tokens fetched are those from the cursor on, six at most and none at or past n (R44). -/
theorem getElem?_fetchTokens (s : State) (k : Nat) :
    (fetchTokens s)[k]? =
      if k < 6 ∧ s.sbdInt.cur + k < s.sbdInt.n then some (tokenAt s (s.sbdInt.cur + k)) else none := by
  have hcount : k < Nat.min 6 (s.sbdInt.n - s.sbdInt.cur) ↔ k < 6 ∧ s.sbdInt.cur + k < s.sbdInt.n :=
    lt_min_iff.trans (and_congr_right fun _ => by omega)
  simp only [fetchTokens, getElem?_tokensFrom, hcount]

/-- Settles O25: by index, and each token by its four bytes. -/
theorem fetchedTokens : Obligations.FetchedTokens := by
  refine fun s k => ⟨fun hpast => ?_, fun hk hlt => ⟨tokenAt s (s.sbdInt.cur + k), ?_, _, rfl, toNat_tokenAt s _⟩⟩
  · rw [getElem?_fetchTokens, if_neg (by omega)]
  · rw [getElem?_fetchTokens, if_pos ⟨hk, hlt⟩]

/-! ### Register accesses -/

/-- OUT_LEN and the offsets past it are not writable (R23, R57). -/
theorem bcdWrite_of_reserved {offset : BitVec 8} (h : 0x20 ≤ offset.toNat) (v : Word) (s : State) :
    bcdWrite offset v s = s := by
  unfold bcdWrite
  split
  any_goals omega
  rfl

/-- OUT_LEN, CURSOR and the offsets past them are not writable (R30, R31, R57). -/
theorem sbdWrite_of_reserved {offset : BitVec 8} (h : 0x18 ≤ offset.toNat) (v : Word) (s : State) :
    sbdWrite offset v s = s := by
  unfold sbdWrite
  split
  any_goals omega
  rfl

theorem bcdRead_of_reserved {offset : BitVec 8} (h : 0x24 ≤ offset.toNat) (r : BcdRegs) : bcdRead r offset = 0 := by
  unfold bcdRead
  split
  any_goals omega
  rfl

theorem sbdRead_of_reserved {offset : BitVec 8} (h : 0x20 ≤ offset.toNat) (r : SbdRegs) : sbdRead r offset = 0 := by
  unfold sbdRead
  split
  any_goals omega
  rfl

/-- Settles O45: the offsets past the last writable register, and past the last register. -/
theorem reservedAndReadOnly : Obligations.ReservedAndReadOnly := fun s _ v haligned =>
  ⟨fun h => (hostAct_regWrite_window haligned v s).trans (congrArg _ (bcdWrite_of_reserved h v s)),
    fun h => (hostAct_regWrite_window haligned v s).trans (congrArg _ (sbdWrite_of_reserved h v s)),
    fun h => bcdRead_of_reserved h s.bcd, fun h => sbdRead_of_reserved h s.sbd⟩

theorem not_admitted {offset : BitVec 8} {bytes : Nat} (h : bytes ≠ 4 ∨ offset.toNat % 4 ≠ 0) :
    admitted offset bytes = false := by
  simpa [admitted, imp_iff_not_or] using h

/-- Settles O46, for whatever names the register. -/
theorem refusedAccesses : Obligations.RefusedAccesses := by
  intro s target win offset bytes v hresolve hbad
  simp [hostAct, hresolve, not_admitted hbad]

/-! ### The windows on the bus -/

theorem bcdPage_ne_sbdPage : Config.bcdPage ≠ Config.sbdPage := by
  unfold Config.sbdPage
  split <;> omega

/-- The offset in a window is the address's low byte, since bases are multiples of 256 (R54). -/
theorem ofNat_page_add (page : Nat) (offset : BitVec 8) : BitVec.ofNat 8 (256 * page + offset.toNat) = offset := by
  apply BitVec.eq_of_toNat_eq
  have := offset.isLt
  rw [BitVec.toNat_ofNat]
  omega

theorem page_add_div (page : Nat) (offset : BitVec 8) : (256 * page + offset.toNat) / 256 = page := by
  have := offset.isLt
  omega

/-- An address of neither window's 256 bytes names no register (R42, R54). -/
theorem resolve_bus_outside {addr : Nat}
    (hbcd : addr < 256 * Config.bcdPage ∨ 256 * Config.bcdPage + 256 ≤ addr)
    (hsbd : addr < 256 * Config.sbdPage ∨ 256 * Config.sbdPage + 256 ≤ addr) :
    RegTarget.resolve (.bus addr) = none := by
  have hb : addr / 256 ≠ Config.bcdPage := by omega
  have hs : addr / 256 ≠ Config.sbdPage := by omega
  simp [RegTarget.resolve, hb, hs]

/-- Settles O50: page and offset are quotient and remainder by 256 of the bus address. -/
theorem busWindows : Obligations.BusWindows := by
  refine ⟨bcdPage_ne_sbdPage, fun offset => ⟨?_, ?_⟩, fun s addr bytes v hbcd hsbd => ?_⟩
  · simp [RegTarget.resolve, page_add_div, ofNat_page_add]
  · simp [RegTarget.resolve, page_add_div, ofNat_page_add, bcdPage_ne_sbdPage.symm]
  · simp [hostAct, resolve_bus_outside hbcd hsbd]

/-! ### Legal ranges -/

theorem Extent.contains_iff {r : Extent} {a : Nat} : r.contains a = true ↔ r.base ≤ a ∧ a < r.base + r.len := by
  simp [Extent.contains]

/-- Ranges that do not overlap share no byte. -/
theorem Extent.not_contains_of_apart {r q : Extent} {a : Nat} (h : r.overlaps q = false) (hr : r.contains a = true) :
    ¬q.contains a = true := fun hq =>
  Bool.false_ne_true (h.symm.trans (Extent.overlaps_of_contains hr hq))

section
variable {f : Footprint} {written : Extent} {others : List Footprint} {guarded : List Extent} {a : Nat}

/-- R58: neither the bytes read nor the bytes written run past SYS. -/
theorem rangesLegal.fits (h : rangesLegal f written others guarded) :
    f.input.base + f.input.len ≤ sysSize ∧ written.base + written.len ≤ sysSize := by
  obtain ⟨hin, hout, -⟩ := h
  exact ⟨hin, hout⟩

/-- R59: a byte of the output range is in no input range and no other command's output range. -/
theorem rangesLegal.output_apart (h : rangesLegal f written others guarded) (ha : f.output.contains a = true) :
    ¬(f.input.contains a = true ∨ ∃ g ∈ others, g.input.contains a = true ∨ g.output.contains a = true) := by
  obtain ⟨-, -, hown, hothers, -, -⟩ := h
  rintro (hin | ⟨g, hg, hin | hout⟩)
  · exact Extent.not_contains_of_apart hown ha hin
  · exact Extent.not_contains_of_apart (hothers g hg).1 ha hin
  · exact Extent.not_contains_of_apart (hothers g hg).2 ha hout

/-- R37: a byte of the input range is in no other command's output range. -/
theorem rangesLegal.input_apart (h : rangesLegal f written others guarded) (ha : f.input.contains a = true) :
    ¬∃ g ∈ others, g.output.contains a = true := by
  obtain ⟨-, -, -, -, hothers, -⟩ := h
  rintro ⟨g, hg, hout⟩
  exact Extent.not_contains_of_apart (hothers g hg) hout ha

/-- R60: a byte written is in no guarded input range. -/
theorem rangesLegal.written_apart (h : rangesLegal f written others guarded) (ha : written.contains a = true) :
    ¬∃ r ∈ guarded, r.contains a = true := by
  obtain ⟨-, -, -, -, -, hguarded⟩ := h
  rintro ⟨r, hr, hin⟩
  exact Extent.not_contains_of_apart (hguarded r hr) ha hin

end

/-! ### Refused commands -/

/-- A DECODE command that passes its checks (R100 to R103) is refused unless its ranges are legal. -/
theorem exec_decodeRow_refused {row : Instr × (Bool → Bytes → BlockRegs) × Nat × Nat} (hrow : row ∈ decodeRows)
    {s : State} {w h need : Nat} (hw : w = s.bcdLatch.width.toNat) (hh : h = s.bcdLatch.height.toNat)
    (hneed : need = (w + 3) / 4 * ((h + 3) / 4) * row.2.2.1) (hwpos : 0 < w) (hhpos : 0 < h)
    (hlen : need ≤ s.bcdLatch.srcLen.toNat)
    (hillegal : ¬rangesLegal ⟨⟨s.bcdLatch.srcAddr.toNat, need⟩, ⟨s.bcdLatch.dstAddr.toNat, w * h * row.2.2.2⟩⟩
      ⟨s.bcdLatch.dstAddr.toNat, w * h * row.2.2.2⟩ (bcdRivals s) (unseenInputs s)) :
    ∃ r, exec row.1 s = .refused r := by
  subst hw hh hneed
  have hwidth : s.bcdLatch.width ≠ 0 := fun h0 => by simp [h0] at hwpos
  have hheight : s.bcdLatch.height ≠ 0 := fun h0 => by simp [h0] at hhpos
  rw [exec_decodeRow hrow]
  exact bcdCommand_of_illegal (bcdPlan_ok.2 ⟨hwidth, hheight, hlen, rfl⟩) hillegal

/-- The SBD reads no token of an input that runs past SYS (R58, log 19). -/
theorem runSbd_of_input_wraps {s : State} (hb : s.sbd.busy = true) (hw : (sbdInput s.sbdLatch).wraps = true) :
    runSbd s = .refused .inputRangeWraps := by
  simp [runSbd, hb, sbdStep, hw]

theorem sbdFinish_of_illegal {st : Status} {c : Nat} {s : State}
    (h : ¬rangesLegal (sbdFootprint s.sbdLatch) (sbdTextRange s) (sbdRivals s) (unseenInputs s)) :
    ∃ r, sbdFinish st c s = .refused r := by
  rw [← brokenDuty_eq_none] at h
  obtain ⟨r, hr⟩ := Option.ne_none_iff_exists'.1 h
  exact ⟨r, by simp only [sbdFinish, hr]⟩

/-- The step of an SBD whose loop has ended is its completion. -/
theorem runSbd_of_ended {s : State} (hb : s.sbd.busy = true) (hw : (sbdInput s.sbdLatch).wraps = false) {st : Status}
    {c : Nat} (hx : loopExit s.sbdInt = some (st, c)) : runSbd s = sbdFinish st c s := by
  simp [runSbd, hb, sbdStep, hw, hx]

/-- A shader command whose loop has ended is refused unless its ranges are legal. -/
theorem runSbd_refused {s : State} (hb : s.sbd.busy = true) {st : Status} {c : Nat}
    (hx : loopExit s.sbdInt = some (st, c))
    (h : ¬rangesLegal (sbdFootprint s.sbdLatch) (sbdTextRange s) (sbdRivals s) (unseenInputs s)) :
    ∃ r, runSbd s = .refused r := by
  cases hw : (sbdInput s.sbdLatch).wraps with
  | true => exact ⟨_, runSbd_of_input_wraps hb hw⟩
  | false => exact runSbd_of_ended hb hw hx ▸ sbdFinish_of_illegal h

/-- Settles O54: legal ranges fit in SYS, and the SBD's input is checked at every step. -/
theorem wrappingRangesRefused : Obligations.WrappingRangesRefused := by
  refine ⟨fun row hrow s w h need hw hh hneed hwpos hhpos hlen hwrap => ?_, fun s hb hwrap => ?_,
    fun s st c hb hx hwrap => ?_⟩
  · refine exec_decodeRow_refused hrow hw hh hneed hwpos hhpos hlen fun hlegal => ?_
    obtain ⟨hin, hout⟩ := hlegal.fits
    exact hwrap.elim (Nat.not_lt.2 hin) (Nat.not_lt.2 hout)
  · exact ⟨_, runSbd_of_input_wraps hb (decide_eq_true hwrap)⟩
  · refine runSbd_refused hb hx fun hlegal => ?_
    obtain ⟨-, hout⟩ := hlegal.fits
    rw [sbdTextRange, length_sbdWritten] at hout
    exact Nat.not_lt.2 hout hwrap

/-- Settles O55: legal ranges share no byte with the ranges they must keep off. -/
theorem overlapsRefused : Obligations.OverlapsRefused := by
  refine ⟨fun row hrow s w h need a hw hh hneed hwpos hhpos hlen hshared => ?_, fun s st c a hb hx hshared => ?_⟩
  · refine exec_decodeRow_refused hrow hw hh hneed hwpos hhpos hlen fun hlegal => ?_
    obtain ⟨hout, hin | hother | hunseen⟩ | ⟨hin, hother⟩ := hshared
    · exact hlegal.output_apart (Extent.contains_iff.2 hout) (.inl (Extent.contains_iff.2 hin))
    · exact hlegal.output_apart (Extent.contains_iff.2 hout) (.inr hother)
    · exact hlegal.written_apart (Extent.contains_iff.2 hout) hunseen
    · exact hlegal.input_apart (Extent.contains_iff.2 hin) hother
  · refine runSbd_refused hb hx fun hlegal => ?_
    obtain ⟨hout, hmeets⟩ | ⟨hin, hother⟩ | ⟨hwritten, hunseen⟩ := hshared
    · exact hlegal.output_apart hout hmeets
    · exact hlegal.input_apart hin hother
    · rw [← length_sbdWritten] at hwritten
      exact hlegal.written_apart (Extent.contains_iff.2 hwritten) hunseen

/-! ### The host's duties -/

/-- A host write to a byte of a range of an open window is refused (R60, R61). -/
theorem hostAct_memWrite_refused {s : State} {addr : Word} (v : Byte)
    (h : s.bcd.busy = true ∧ ((bcdInput s.bcdLatch).contains addr.toNat = true ∨
          (bcdOutput s.bcdLatch).contains addr.toNat = true) ∨
      s.sbd.busy = true ∧ ((sbdInput s.sbdLatch).contains addr.toNat = true ∨
          (sbdOutput s.sbdLatch).contains addr.toNat = true) ∨
      ∃ u ∈ unseenCommands s, u.ranges.input.contains addr.toNat = true ∨ u.ranges.output.contains addr.toNat = true) :
    hostAct (.memWrite addr v) s = .refused .inputWritten ∨ hostAct (.memWrite addr v) s = .refused .outputWritten := by
  obtain ⟨hb, hmeets⟩ | ⟨hb, hmeets⟩ | ⟨u, hu, hmeets⟩ := h
  · exact hostMemWrite_of_open (mem_openCommands.2 (.inl ⟨hb, rfl⟩)) hmeets
  · exact hostMemWrite_of_open (mem_openCommands.2 (.inr (.inl ⟨hb, rfl⟩))) hmeets
  · exact hostMemWrite_of_open (mem_openCommands.2 (.inr (.inr ⟨u, hu, rfl⟩))) hmeets

section
variable {s : State} {a : Nat} (hbcd : s.bcd.busy = true → (bcdOutput s.bcdLatch).contains a = false)
  (hsbd : s.sbd.busy = true → (sbdOutput s.sbdLatch).contains a = false)
  (hunseen : ∀ u ∈ unseenCommands s, u.ranges.output.contains a = false)
include hbcd hsbd hunseen

/-- Outside the output ranges of the open windows only memory's byte can be read (R37). -/
theorem openBytes_eq_nil : openBytes s a = [] := by
  refine List.eq_nil_iff_forall_not_mem.2 fun b hb => ?_
  simp only [openBytes, List.mem_append, mem_finalByte, List.mem_flatMap, Unseen.mem_bytesAt] at hb
  obtain (⟨hbusy, hin, -⟩ | ⟨hbusy, hin, -⟩) | ⟨u, hu, hin, -⟩ := hb
  · exact Bool.false_ne_true ((hbcd hbusy).symm.trans hin)
  · exact Bool.false_ne_true ((hsbd hbusy).symm.trans hin)
  · exact Bool.false_ne_true ((hunseen u hu).symm.trans hin)

/-- Outside every range of the open windows, no open command has the byte. -/
theorem openCommands_apart (hbcdIn : s.bcd.busy = true → (bcdInput s.bcdLatch).contains a = false)
    (hsbdIn : s.sbd.busy = true → (sbdInput s.sbdLatch).contains a = false)
    (hunseenIn : ∀ u ∈ unseenCommands s, u.ranges.input.contains a = false) :
    ∀ f ∈ openCommands s, f.input.contains a = false ∧ f.output.contains a = false := by
  intro f hf
  obtain ⟨hb, rfl⟩ | ⟨hb, rfl⟩ | ⟨u, hu, rfl⟩ := mem_openCommands.1 hf
  · exact ⟨hbcdIn hb, hbcd hb⟩
  · exact ⟨hsbdIn hb, hsbd hb⟩
  · exact ⟨hunseenIn u hu, hunseen u hu⟩

end

theorem hostMemRead_lastRead_of_closed {s : State} {addr : Word} (h : openBytes s addr.toNat = []) :
    (hostMemRead addr s).lastRead = (s.mem.read addr.toNat).zeroExtend 32 := by
  simp only [hostMemRead, h]

/-- All that the BCD's step can do is complete. -/
theorem bcdStep_completes {s t : State} (h : bcdStep s = .next t) :
    ∃ st len mem int, t = { bcdComplete st len mem s with bcdInt := int } := by
  unfold bcdStep at h
  obtain ⟨row, -, he⟩ | he := exec_decodeFmt s.bcdLatch.fmt s
  · obtain ⟨-, rfl⟩ | ⟨p, -, -, rfl⟩ := bcdCommand_next (he ▸ h)
    · exact ⟨.insufficientData, 0, s.mem, s.bcdInt, rfl⟩
    · exact ⟨.ok, p.outLen, _, _, rfl⟩
  · exact ⟨.unsupportedFormat, 0, s.mem, s.bcdInt, (Host.Outcome.next.inj (he ▸ h)).symm⟩

/-- A completion records one more command: its ranges, and its output range's bytes before and after (R37). -/
theorem Duty.exists_ended_unseen (d : Duty) (f : Footprint) (before after : Memory) :
    ∃ u, (d.ended f before after).unseen = u :: d.unseen ∧ u.ranges = f ∧
      ∀ a, f.output.contains a = true → u.before.read a = before.read a ∧ u.after.read a = after.read a :=
  ⟨_, rfl, rfl, fun _ ha => ⟨Memory.read_within ha, Memory.read_within ha⟩⟩

/-- The BCD's completion leaves its command's window of R60 and R61 open and the SBD's windows as they are. -/
theorem runBcd_opens_window {s t : State} (hb : s.bcd.busy = true) (h : runBcd s = .next t) :
    t.sbdDuty.unseen = s.sbdDuty.unseen ∧ ∃ u, t.bcdDuty.unseen = u :: s.bcdDuty.unseen ∧
      u.ranges = bcdFootprint s.bcdLatch ∧ ∀ a, (bcdOutput s.bcdLatch).contains a = true →
        u.before.read a = s.mem.read a ∧ u.after.read a = t.mem.read a := by
  obtain ⟨st, len, mem, int, rfl⟩ := bcdStep_completes (by simpa only [runBcd, hb, if_true] using h)
  exact ⟨Duty.beside_unseen .., Duty.exists_ended_unseen ..⟩

/-- The SBD's completion likewise. -/
theorem runSbd_opens_window {s t : State} (hb : s.sbd.busy = true) {st : Status} {c : Nat}
    (hx : loopExit s.sbdInt = some (st, c)) (h : runSbd s = .next t) :
    t.bcdDuty.unseen = s.bcdDuty.unseen ∧ ∃ u, t.sbdDuty.unseen = u :: s.sbdDuty.unseen ∧
      u.ranges = sbdFootprint s.sbdLatch ∧ ∀ a, (sbdOutput s.sbdLatch).contains a = true →
        u.before.read a = s.mem.read a ∧ u.after.read a = t.mem.read a := by
  cases hw : (sbdInput s.sbdLatch).wraps with
  | true => simp [runSbd_of_input_wraps hb hw] at h
  | false =>
    obtain ⟨rfl, -⟩ := sbdFinish_next (runSbd_of_ended hb hw hx ▸ h)
    exact ⟨Duty.beside_unseen .., Duty.exists_ended_unseen ..⟩

/-- A STATUS read that returns DONE = 1 is an observation (R60, R62). -/
theorem hostAct_readStatus_of_done {win : Window} {s : State} (h : isDone win s = true) :
    hostAct (.regRead (.window win 4) 4) s = .next (observe win { s with lastRead := readReg win 4 s }) := by
  rw [hostAct_regRead_window (by decide)]
  simp [hostRegRead, h]

/-- So is an interrupt line seen asserted (R63). -/
theorem hostAct_observeIrq_of_high {win : Window} {s : State} (h : irq win s = true) :
    hostAct (.observeIrq win) s = .next (observe win { s with lastRead := 1 }) := by
  simp [hostAct, hostObserveIrq, h]

/-- START of an idle BCD by a CTRL write, its other fields applied first (R227). -/
theorem hostAct_start_bcd {v : Word} {s : State} (hv : v.getLsbD 0 = true) (hidle : s.bcd.busy = false) :
    hostAct (.regWrite (.window .bcd 0) 4 v) s =
      .next (bcdStart { s with bcd := { s.bcd with ie := v.getLsbD 1, bc5Fix := v.getLsbD 2 } }) := by
  rw [hostAct_regWrite_window (by decide)]
  simp [hostRegWrite, bcdWrite, bcdWriteCtrl, hv, hidle]

/-- START of an idle SBD likewise. -/
theorem hostAct_start_sbd {v : Word} {s : State} (hv : v.getLsbD 0 = true) (hidle : s.sbd.busy = false) :
    hostAct (.regWrite (.window .sbd 0) 4 v) s =
      .next (sbdStart { s with sbd := { s.sbd with ie := v.getLsbD 1 } }) := by
  rw [hostAct_regWrite_window (by decide)]
  simp [hostRegWrite, sbdWrite, sbdWriteCtrl, hv, hidle]

/-- Settles O56: open windows guard their ranges and no others, a completion leaves its window open, an observation
closes those of its engine, and START closes none. -/
theorem hostDuties : Obligations.HostDuties := by
  refine ⟨fun s a v => hostAct_memWrite_refused v, fun s a v hm hbcd hsbd hunseen => ⟨?read, ?write⟩,
    fun s t st c => ⟨runBcd_opens_window, fun hb hx => runSbd_opens_window hb hx⟩, ?observation, ?start⟩
  case read => exact ⟨_, rfl, hostMemRead_lastRead_of_closed (openBytes_eq_nil hbcd hsbd hunseen)⟩
  case write =>
    intro hbcdIn hsbdIn hunseenIn
    exact ⟨_, hostMemWrite_of_closed (openCommands_apart hbcd hsbd hunseen hbcdIn hsbdIn hunseenIn),
      Memory.read_write hm _ v⟩
  case observation =>
    refine fun s => ⟨fun hdone => ?_, fun hdone => ?_, fun hirq => ?_, fun hirq => ?_⟩
    · exact ⟨_, hostAct_readStatus_of_done hdone, rfl, rfl⟩
    · exact ⟨_, hostAct_readStatus_of_done hdone, rfl, rfl⟩
    · exact ⟨_, hostAct_observeIrq_of_high hirq, rfl, rfl⟩
    · exact ⟨_, hostAct_observeIrq_of_high hirq, rfl, rfl⟩
  case start =>
    refine fun s v hv => ⟨fun hidle => ?_, fun hidle => ?_⟩
    · exact ⟨_, hostAct_start_bcd hv hidle, rfl, rfl, rfl⟩
    · exact ⟨_, hostAct_start_sbd hv hidle, rfl, rfl, rfl⟩

end Sys2Proof.Machine

/-! Settles the statements about an instruction's length and the unrecognised opcodes, the bits read of a parameter
token, and operand text from raw token bits (30_encoding.md R78 to R95, 42_shader_stream.md R138, R139). -/

namespace Sys2Proof

theorem Swizzle.toCode_ofCode (code : BitVec 8) : (Swizzle.ofCode code).toCode = code := by
  simp only [Swizzle.toCode, Swizzle.ofCode, Component.toCode_ofCode]
  rw [BitVec.extractLsb'_append_extractLsb'_eq_extractLsb' (start₂ := 6) (start₁ := 4) rfl,
    BitVec.extractLsb'_append_extractLsb'_eq_extractLsb' (start₂ := 4) (start₁ := 2) rfl,
    BitVec.extractLsb'_append_extractLsb'_eq_extractLsb' (start₂ := 2) (start₁ := 0) rfl]
  exact BitVec.extractLsb'_eq_self

theorem wellFormed_regTypeOf (tok : Word) : (regTypeOf tok).wellFormed = true := RegType.ofCode_wellFormed _

end Sys2Proof

namespace Sys2Proof.Machine

/-! ### Fields as numbers -/

theorem field_eq_toNat (tok : Word) (lo len : Nat) : field tok lo len = (tok.extractLsb' lo len).toNat := by
  rw [BitVec.extractLsb'_toNat, Nat.shiftRight_eq_div_pow, field]

theorem field_lt (tok : Word) (lo len : Nat) : field tok lo len < 2 ^ len := Nat.mod_lt _ (Nat.two_pow_pos len)

theorem extractLsb'_eq_iff_field {a b : Word} {lo len : Nat} :
    a.extractLsb' lo len = b.extractLsb' lo len ↔ field a lo len = field b lo len := by
  rw [field_eq_toNat, field_eq_toNat, BitVec.toNat_inj]

theorem field_one_eq_one {tok : Word} {k : Nat} : field tok k 1 = 1 ↔ tok.getLsbD k = true := by
  rw [field_eq_toNat, BitVec.getLsbD_eq_extractLsb', beq_iff_eq, ← BitVec.toNat_inj]
  rfl

/-- What prints for a flag's field prints for its bit. -/
theorem ite_field_one (tok : Word) (k : Nat) (x y : Bytes) :
    (if field tok k 1 = 1 then x else y) = if tok.getLsbD k then x else y := if_congr field_one_eq_one rfl rfl

theorem getLsbD_eq_iff_field {a b : Word} {k : Nat} : a.getLsbD k = b.getLsbD k ↔ field a k 1 = field b k 1 := by
  have ha := field_lt a k 1
  have hb := field_lt b k 1
  rw [Bool.eq_iff_iff, ← field_one_eq_one, ← field_one_eq_one]
  omega

/-- A field of a field is a field of the token. -/
theorem extractLsb'_extractLsb' (tok : Word) {lo len k n : Nat} (h : k + n ≤ len) :
    (tok.extractLsb' lo len).extractLsb' k n = tok.extractLsb' (lo + k) n := by
  refine BitVec.eq_of_getLsbD_eq fun i hi => ?_
  simp [hi, Nat.add_assoc, show k + i < len by omega]

/-- The write mask is full when its four bits are set (R84). -/
theorem field_writeMask_full {tok : Word} :
    field tok 16 4 = 15 ↔ field tok 16 1 = 1 ∧ field tok 17 1 = 1 ∧ field tok 18 1 = 1 ∧ field tok 19 1 = 1 := by
  simp only [field]
  omega

/-! ### Codes of the fields read -/

/-- The code of the register type read is the type of R80. -/
theorem toNat_toCode_regTypeOf (tok : Word) : (regTypeOf tok).toCode.toNat = rawType tok := by
  rw [regTypeOf, RegType.toCode_ofCode, BitVec.toNat_append, ← field_eq_toNat, ← field_eq_toNat,
    ← Nat.shiftLeft_add_eq_or_of_lt (field_lt tok 28 3), Nat.shiftLeft_eq, rawType]
  omega

theorem toNat_toCode_mod (tok : Word) : (SrcOp.ofToken tok).mod.toCode.toNat = field tok 24 4 := by
  rw [SrcOp.ofToken, SrcMod.toCode_ofCode, field_eq_toNat]

theorem toNat_toCode_usage (tok : Word) : (Decl.ofToken tok).usage.toCode.toNat = field tok 0 4 := by
  rw [Decl.ofToken, Usage.toCode_ofCode, field_eq_toNat]

theorem toNat_toCode_tex (tok : Word) : (Decl.ofToken tok).tex.toCode.toNat = field tok 27 3 := by
  rw [Decl.ofToken, TexType.toCode_ofCode, field_eq_toNat]

theorem toNat_toCode_swz (tok : Word) : (SrcOp.ofToken tok).swz.toCode.toNat = field tok 16 8 := by
  rw [SrcOp.ofToken, Swizzle.toCode_ofCode, field_eq_toNat]

/-- The component a position of the swizzle selects, by number (R79). -/
theorem toNat_toCode_component (tok : Word) {k : Nat} (h : k + 2 ≤ 8) :
    (Component.ofCode ((tok.extractLsb' 16 8).extractLsb' k 2)).toCode.toNat = field tok (16 + k) 2 := by
  rw [Component.toCode_ofCode, extractLsb'_extractLsb' tok h, field_eq_toNat]

/-! ### An instruction's length -/

/-- Settles O3: what decoding an opcode token leaves is part of `OpcodeSpec`. -/
theorem instructionLength : Obligations.InstructionLength := by
  intro major minor tok rest
  refine ⟨(decodeOpcode (major, minor) tok rest).1, ?_⟩
  rw [field_eq_toNat, ← (decodeOpcode_spec (major, minor) tok rest).left]
  rfl

/-! ### Unrecognised opcodes -/

/-- The opcodes R95 lists are those no row of R91 to R93 names. -/
theorem recognised_eq_false_iff {op : BitVec 16} :
    recognised op = false ↔
      (40 ≤ op.toNat ∧ op.toNat ≤ 45 ∨ 47 ≤ op.toNat ∧ op.toNat ≤ 65 ∨ 67 ≤ op.toNat ∧ op.toNat ≤ 80 ∨
        82 ≤ op.toNat ∧ op.toNat ≤ 65532 ∨ op.toNat = 65534) := by
  have := op.isLt
  simp only [recognised, Bool.or_eq_false_iff, decide_eq_false_iff_not]
  omega

/-- Each numbered row of the decoder is a recognised opcode, so any other opcode meets its last row. -/
theorem decodeOpcode_of_not_recognised (version : BitVec 8 × BitVec 8) {tok : Word} (rest : List Word)
    (h : recognised (tok.extractLsb' 0 16) = false) : decodeOpcode version tok rest = (.unrecognised tok, rest) := by
  unfold decodeOpcode
  split
  case h_46 => rfl
  all_goals
    rename_i hop
    simp [recognised, hop] at h

theorem decodeOpcode_eq_unrecognised_iff {version : BitVec 8 × BitVec 8} {tok : Word} {rest rest' : List Word} :
    decodeOpcode version tok rest = (.unrecognised tok, rest') ↔
      recognised (tok.extractLsb' 0 16) = false ∧ rest' = rest := by
  constructor
  · intro h
    have hwf := (decodeOpcode_spec version tok rest).wellFormed
    have hr : recognised (tok.extractLsb' 0 16) = false := by simpa [h, Instr.wellFormed] using hwf
    rw [decodeOpcode_of_not_recognised version rest hr] at h
    exact ⟨hr, (congrArg Prod.snd h).symm⟩
  · rintro ⟨hr, rfl⟩
    exact decodeOpcode_of_not_recognised version rest' hr

theorem decode_stream_eq_unrecognised_iff {major minor : BitVec 8} {tok : Word} {rest rest' : List Word} :
    decode (.stream major minor) (tok :: rest) = .ok (.unrecognised tok, rest') ↔
      recognised (tok.extractLsb' 0 16) = false ∧ rest' = rest := by
  simp only [decode, Except.ok.injEq, decodeOpcode_eq_unrecognised_iff]

theorem exec_unrecognised (tok : Word) (s : State) : exec (.unrecognised tok) s = .next (s.printed [] [] 1) := rfl

/-- Settles O4: a token decodes as unrecognised exactly when its opcode is not recognised, and leaves what follows. -/
theorem unrecognisedOpcodes : Obligations.UnrecognisedOpcodes := by
  intro major minor tok rest
  refine ⟨?_, fun rest' h => (decode_stream_eq_unrecognised_iff.1 h).2, exec_unrecognised tok⟩
  simp only [decode_stream_eq_unrecognised_iff, field_eq_toNat, ← recognised_eq_false_iff, exists_and_left,
    exists_eq, and_true]

/-! ### The bits read of a parameter token -/

/-- The word with the bits of one field set. -/
def fieldMask (lo len : Nat) : Word := (BitVec.allOnes len).setWidth 32 <<< lo

theorem getLsbD_fieldMask {lo len i : Nat} (hi : i < 32) :
    (fieldMask lo len).getLsbD i = decide (lo ≤ i ∧ i < lo + len) := by
  rw [Bool.eq_iff_iff]
  simp [fieldMask, hi]
  omega

/-- Agreeing under a field's mask is agreeing on the field. -/
theorem and_fieldMask_eq_iff {a b : Word} {lo len : Nat} :
    a &&& fieldMask lo len = b &&& fieldMask lo len ↔ field a lo len = field b lo len := by
  rw [← extractLsb'_eq_iff_field]
  constructor
  · intro h
    refine BitVec.eq_of_getLsbD_eq fun i hi => ?_
    have hbit := congrArg (·.getLsbD (lo + i)) h
    by_cases hlt : lo + i < 32
    · simpa [getLsbD_fieldMask hlt, hi] using hbit
    · simp [Nat.not_lt.1 hlt]
  · intro h
    refine BitVec.eq_of_getLsbD_eq fun i hi => ?_
    by_cases hin : lo ≤ i ∧ i < lo + len
    · have hbit := congrArg (·.getLsbD (i - lo)) h
      have hlen : i - lo < len := by omega
      simpa [getLsbD_fieldMask hi, hin, hlen] using hbit
    · simp [getLsbD_fieldMask hi, hin]

/-- Agreeing under a union of masks is agreeing under each. -/
theorem and_or_eq_iff {a b m n : Word} : a &&& (m ||| n) = b &&& (m ||| n) ↔ a &&& m = b &&& m ∧ a &&& n = b &&& n := by
  constructor
  · intro h
    have hpart (p : Word) (hp : (m ||| n) &&& p = p) : a &&& p = b &&& p := by
      rw [← hp, ← BitVec.and_assoc, h, BitVec.and_assoc]
    refine ⟨hpart m ?_, hpart n ?_⟩
    · ext; simp; tauto
    · ext; simp; tauto
  · rintro ⟨hm, hn⟩
    rw [BitVec.and_or_distrib_left, BitVec.and_or_distrib_left, hm, hn]

theorem regTypeOf_eq_iff_rawType {a b : Word} : regTypeOf a = regTypeOf b ↔ rawType a = rawType b := by
  rw [← toNat_toCode_regTypeOf, ← toNat_toCode_regTypeOf, BitVec.toNat_inj]
  refine ⟨congrArg RegType.toCode, fun h => ?_⟩
  rw [← RegType.ofCode_toCode (wellFormed_regTypeOf a), h, RegType.ofCode_toCode (wellFormed_regTypeOf b)]

/-- Register types are alike when both parts of the type are (R80). -/
theorem regTypeOf_eq_iff {a b : Word} :
    regTypeOf a = regTypeOf b ↔ field a 11 2 = field b 11 2 ∧ field a 28 3 = field b 28 3 := by
  have ha := field_lt a 28 3
  have hb := field_lt b 28 3
  rw [regTypeOf_eq_iff_rawType, rawType, rawType]
  omega

theorem dstOp_ofToken_eq_iff {a b : Word} :
    DstOp.ofToken a = DstOp.ofToken b ↔
      (field a 11 2 = field b 11 2 ∧ field a 28 3 = field b 28 3) ∧ field a 0 11 = field b 0 11 ∧
        (field a 16 1 = field b 16 1 ∧ field a 17 1 = field b 17 1 ∧ field a 18 1 = field b 18 1 ∧
          field a 19 1 = field b 19 1) ∧
        field a 20 1 = field b 20 1 ∧ field a 21 1 = field b 21 1 ∧ field a 22 1 = field b 22 1 := by
  simp only [DstOp.ofToken, DstOp.mk.injEq, WriteMask.mk.injEq, DstMods.mk.injEq, regTypeOf_eq_iff,
    extractLsb'_eq_iff_field, getLsbD_eq_iff_field]

theorem srcOp_ofToken_eq_iff {a b : Word} :
    SrcOp.ofToken a = SrcOp.ofToken b ↔
      (field a 11 2 = field b 11 2 ∧ field a 28 3 = field b 28 3) ∧ field a 0 11 = field b 0 11 ∧
        field a 16 8 = field b 16 8 ∧ field a 24 4 = field b 24 4 := by
  simp only [SrcOp.ofToken, SrcOp.mk.injEq, regTypeOf_eq_iff,
    (Function.LeftInverse.injective Swizzle.toCode_ofCode).eq_iff,
    (Function.LeftInverse.injective SrcMod.toCode_ofCode).eq_iff, extractLsb'_eq_iff_field]

theorem decl_ofToken_eq_iff {a b : Word} :
    Decl.ofToken a = Decl.ofToken b ↔
      field a 0 4 = field b 0 4 ∧ field a 16 4 = field b 16 4 ∧ field a 27 3 = field b 27 3 := by
  simp only [Decl.ofToken, Decl.mk.injEq, (Function.LeftInverse.injective Usage.toCode_ofCode).eq_iff,
    (Function.LeftInverse.injective TexType.toCode_ofCode).eq_iff, extractLsb'_eq_iff_field]

/-- Settles O5: each mask is the union of the masks of the fields its token is read from. -/
theorem ignoredOperandBits : Obligations.IgnoredOperandBits := by
  intro a b
  have hdst : (0x707F1FFF : Word) = (fieldMask 11 2 ||| fieldMask 28 3) ||| (fieldMask 0 11 |||
      ((fieldMask 16 1 ||| (fieldMask 17 1 ||| (fieldMask 18 1 ||| fieldMask 19 1))) |||
        (fieldMask 20 1 ||| (fieldMask 21 1 ||| fieldMask 22 1)))) := by decide
  have hsrc : (0x7FFF1FFF : Word) = (fieldMask 11 2 ||| fieldMask 28 3) ||| (fieldMask 0 11 |||
      (fieldMask 16 8 ||| fieldMask 24 4)) := by decide
  have hdecl : (0x380F000F : Word) = fieldMask 0 4 ||| (fieldMask 16 4 ||| fieldMask 27 3) := by decide
  rw [hdst, hsrc, hdecl]
  simp only [and_or_eq_iff, and_fieldMask_eq_iff, dstOp_ofToken_eq_iff, srcOp_ofToken_eq_iff, decl_ofToken_eq_iff,
    and_self]

/-! ### Register names -/

theorem symbolOf_toCode_unk {code : BitVec 5} (h : (RegType.unk code).wellFormed = true) :
    symbolOf code.toNat = none := by
  revert code
  decide

/-- A register's name by the number of its type (R82). -/
theorem regname_eq {reg : RegType} (h : reg.wellFormed = true) (num : BitVec 11) :
    regname reg num =
      (match symbolOf reg.toCode.toNat with
        | some name =>
          if reg.toCode.toNat = 9 ∨ reg.toCode.toNat = 15 then ascii name else ascii name ++ dec num.toNat
        | none => ascii "unk(" ++ dec reg.toCode.toNat ++ ascii ")" ++ dec num.toNat) := by
  cases reg with
  | unk code => simp [RegType.toCode, symbolOf_toCode_unk h, regname, symbol, numbered]
  | _ => simp [RegType.toCode, symbolOf, regname, symbol, numbered]

theorem regname_ofToken (tok : Word) : regname (regTypeOf tok) (tok.extractLsb' 0 11) = rawRegname tok := by
  rw [regname_eq (wellFormed_regTypeOf tok), toNat_toCode_regTypeOf, ← field_eq_toNat]
  rfl

/-- Settles O7: destinations and sources read their register from the same bits. -/
theorem registerNames : Obligations.RegisterNames := fun tok => ⟨regname_ofToken tok, regname_ofToken tok⟩

/-! ### Source operands -/

theorem modPre_eq (m : SrcMod) : modPre m = ascii (rawMod m.toCode.toNat).1 := by cases m <;> rfl

theorem modSuf_eq (m : SrcMod) : modSuf m = ascii (rawMod m.toCode.toNat).2 := by cases m <;> rfl

theorem letter_eq (c : Component) : letter c = rawLetter c.toCode.toNat := by cases c <;> rfl

/-- A swizzle does not print after the types t and s (R81). -/
theorem swizzled_eq_false_iff {reg : RegType} (h : reg.wellFormed = true) :
    swizzled reg = false ↔ reg.toCode.toNat = 3 ∨ reg.toCode.toNat = 10 := by
  cases reg with
  | unk code =>
    simp only [RegType.wellFormed, Bool.or_eq_true, Bool.and_eq_true, decide_eq_true_eq] at h
    simp only [swizzled, RegType.toCode, Bool.true_eq_false, false_iff]
    omega
  | _ => simp [swizzled, RegType.toCode]

theorem toNat_toCode_inj {c d : Component} : c.toCode.toNat = d.toCode.toNat ↔ c = d := by
  rw [BitVec.toNat_inj, (Function.LeftInverse.injective Component.ofCode_toCode).eq_iff]

/-- The identity swizzle is 0xE4 (R83). -/
theorem eq_identitySwizzle_iff {s : Swizzle} : s = identitySwizzle ↔ s.toCode.toNat = 0xE4 := by
  rw [← (Function.LeftInverse.injective Swizzle.ofCode_toCode).eq_iff, ← BitVec.toNat_inj]
  rfl

/-- A swizzle's text by the numbers of its type and its components (R83). -/
theorem swztext_eq {reg : RegType} (h : reg.wellFormed = true) (s : Swizzle) :
    swztext reg s =
      if reg.toCode.toNat = 3 ∨ reg.toCode.toNat = 10 then []
      else if s.toCode.toNat = 0xE4 then []
      else if s.c0.toCode.toNat = s.c1.toCode.toNat ∧ s.c1.toCode.toNat = s.c2.toCode.toNat ∧
        s.c2.toCode.toNat = s.c3.toCode.toNat then ascii "." ++ rawLetter s.c0.toCode.toNat
      else ascii "." ++ rawLetter s.c0.toCode.toNat ++ rawLetter s.c1.toCode.toNat ++ rawLetter s.c2.toCode.toNat ++
        rawLetter s.c3.toCode.toNat := by
  simp only [swztext, Bool.not_eq_true', swizzled_eq_false_iff h, eq_identitySwizzle_iff, toNat_toCode_inj, letter_eq]

theorem swztext_ofToken (tok : Word) : swztext (SrcOp.ofToken tok).reg (SrcOp.ofToken tok).swz = rawSwztext tok := by
  rw [swztext_eq (SrcOp.ofToken_wellFormed tok), toNat_toCode_swz]
  simp only [SrcOp.ofToken, Swizzle.ofCode, toNat_toCode_regTypeOf,
    toNat_toCode_component tok (show 0 + 2 ≤ 8 by decide), toNat_toCode_component tok (show 2 + 2 ≤ 8 by decide),
    toNat_toCode_component tok (show 4 + 2 ≤ 8 by decide), toNat_toCode_component tok (show 6 + 2 ≤ 8 by decide)]
  rfl

/-- Settles O8: each part of a source's text is that of its number, and the numbers are the token's fields. -/
theorem sourceText : Obligations.SourceText := by
  intro tok
  refine ⟨?_, swztext_ofToken tok⟩
  rw [srcop, modPre_eq, modSuf_eq, toNat_toCode_mod, swztext_ofToken, rawSrcop, ← regname_ofToken]
  rfl

/-! ### Destinations and declarations -/

theorem masktext_ofToken (tok : Word) : masktext (DstOp.ofToken tok).mask = rawMasktext tok := by
  have hfull : ((tok.getLsbD 16 && tok.getLsbD 17 && tok.getLsbD 18 && tok.getLsbD 19) = true) ↔
      field tok 16 4 = 15 := by
    simp only [field_writeMask_full, field_one_eq_one, Bool.and_eq_true, and_assoc]
  simp only [rawMasktext, Nat.add_zero, Nat.reduceAdd, ite_field_one]
  exact if_congr hfull rfl rfl

theorem dstmods_ofToken (tok : Word) : dstmods (DstOp.ofToken tok).mods = rawDstmods tok := by
  simp only [rawDstmods, Nat.add_zero, Nat.reduceAdd, ite_field_one]
  rfl

theorem usageName_eq (u : Usage) : usageName u = ascii (rawUsage u.toCode.toNat) := by cases u <;> rfl

/-- The code of a texture type without a name has no name either (R88). -/
theorem rawTextype_of_unknown {code : BitVec 3} (h : (code ≠ 2 && code ≠ 3 && code ≠ 4) = true) :
    rawTextype code.toNat = "unknown" := by
  revert code
  decide

theorem textypeName_eq {u : Decl} (h : u.wellFormed = true) :
    textypeName u.tex = ascii (rawTextype u.tex.toCode.toNat) := by
  obtain ⟨usage, index, tex⟩ := u
  cases tex with
  | unknown code => exact congrArg ascii (rawTextype_of_unknown h).symm
  | _ => rfl

/-- Settles O9: each name is that of its code, and the codes and flags are the token's fields. -/
theorem destinationAndDeclarationText : Obligations.DestinationAndDeclarationText := by
  intro tok
  have hdst : dstop (DstOp.ofToken tok) = rawRegname tok ++ rawMasktext tok := by
    rw [dstop, masktext_ofToken, ← regname_ofToken]
    rfl
  have husage : usageName (Decl.ofToken tok).usage = ascii (rawUsage (field tok 0 4)) := by
    rw [usageName_eq, toNat_toCode_usage]
  have htex : textypeName (Decl.ofToken tok).tex = ascii (rawTextype (field tok 27 3)) := by
    rw [textypeName_eq (Decl.ofToken_wellFormed tok), toNat_toCode_tex]
  exact ⟨masktext_ofToken tok, dstmods_ofToken tok, hdst, husage, (field_eq_toNat tok 16 4).symm, htex⟩

end Sys2Proof.Machine

/-! Settles the statements about the BCD's command: its checks, the bytes it writes and what they depend on
(40_bc_common.md R100 to R107, R121), endpoint expansion (R109), the order of a ramp (R117) and a BC2 texel (R123). -/

namespace Sys2Proof.Machine

/-! ### A command that fails -/

/-- `raise` (R107): the error shows, OUT_LEN is 0, and no byte, latch or other engine's state changes. -/
theorem bcdRaise_effect (st : Status) (s : State) :
    (bcdRaise st s).bcd = { s.bcd with outLen := 0, err := st, busy := false, done := true } ∧
      (∀ a, (bcdRaise st s).mem.read a = s.mem.read a) ∧ (bcdRaise st s).bcdLatch = s.bcdLatch ∧
      (bcdRaise st s).sbd = s.sbd ∧ (bcdRaise st s).sbdLatch = s.sbdLatch ∧ (bcdRaise st s).sbdInt = s.sbdInt ∧
      (bcdRaise st s).agenda = s.agenda :=
  ⟨rfl, fun _ => rfl, rfl, rfl, rfl, rfl, rfl⟩

/-- Settles O30: each of the three formats raises UNSUPPORTED_FORMAT without a check. -/
theorem unsupportedFormats : Obligations.UnsupportedFormats := by
  intro row hrow s
  simp only [List.mem_cons, List.not_mem_nil, or_false] at hrow
  rcases hrow with rfl | rfl | rfl
  · exact ⟨rfl, _, rfl, bcdRaise_effect .unsupportedFormat s⟩
  · exact ⟨rfl, _, rfl, bcdRaise_effect .unsupportedFormat s⟩
  · exact ⟨rfl, _, rfl, bcdRaise_effect .unsupportedFormat s⟩

/-- Settles O31: the failed check raises INSUFFICIENT_DATA before any duty is looked at. -/
theorem sizeErrors : Obligations.SizeErrors := by
  intro row hrow s hbad
  refine ⟨bcdRaise .insufficientData s, ?_, bcdRaise_effect .insufficientData s⟩
  rw [exec_decodeRow hrow]
  exact bcdCommand_of_error (bcdPlan_error.2 ⟨rfl, hbad⟩)

/-! ### A command that completes with OK -/

/-- The plan of a command that passes its checks, by its sizes as numbers (R100, R103). -/
theorem bcdPlan_of_sizes {bs ch : Nat} {l : BcdLatch} (hw : 0 < l.width.toNat) (hh : 0 < l.height.toNat)
    (hneed : ceil4 l.width.toNat * ceil4 l.height.toNat * bs ≤ l.srcLen.toNat) :
    bcdPlan (some (bs, ch)) l =
      .ok ⟨ceil4 l.width.toNat, ceil4 l.height.toNat, ceil4 l.width.toNat * ceil4 l.height.toNat * bs,
        l.width.toNat * l.height.toNat * ch⟩ := by
  have hwidth : l.width ≠ 0 := fun h0 => by simp [h0] at hw
  have hheight : l.height ≠ 0 := fun h0 => by simp [h0] at hh
  exact bcdPlan_ok.2 ⟨hwidth, hheight, hneed, rfl⟩

/-- Settles O32: `bcdCommand_mem` at the plan the sizes give. -/
theorem blockCommand : Obligations.BlockCommand := by
  intro row hrow s w h need ch len hw hh hch hneed hlen hwpos hhpos hsrc hm hlegal
  subst hw hh hch hneed hlen
  have hplan := bcdPlan_of_sizes (ch := row.2.2.2) hwpos hhpos hsrc
  obtain ⟨-, hpixels, hframe⟩ := bcdCommand_mem hrow hplan hlegal.fits.2 hm rfl
  refine ⟨_, (exec_decodeRow hrow s).trans (bcdCommand_of_legal hplan hlegal), rfl, fun x y c hx hy hc => ?_, hframe,
    rfl, rfl, rfl, rfl, rfl⟩
  rw [Nat.add_assoc]
  exact hpixels x y c hx hy hc

/-! ### What a command depends on -/

/-- Runs of bytes at two places of two memories agree where the bytes do. -/
theorem Memory.readBytes_eq_of_alike {m m' : Memory} {a a' n : Nat}
    (h : ∀ j, j < n → m.read (a + j) = m'.read (a' + j)) : m.readBytes a n = m'.readBytes a' n := by
  refine List.ext_getElem? fun j => ?_
  rw [getElem?_readBytes, getElem?_readBytes]
  split
  case isTrue hj => rw [h j hj]
  case isFalse => rfl

/-- A block among the first `count` is read from the first `count * bs` bytes of the input (R104). -/
theorem blockBytes_eq_of_alike {l l' : BcdLatch} {m m' : Memory} {bs k count : Nat} (hk : k < count)
    (h : ∀ j, j < count * bs → m.read (l.srcAddr.toNat + j) = m'.read (l'.srcAddr.toNat + j)) :
    blockBytes l bs k m = blockBytes l' bs k m' := by
  refine Memory.readBytes_eq_of_alike fun j hj => ?_
  have hin : k * bs + j < count * bs :=
    calc k * bs + j < k * bs + bs := by omega
      _ = (k + 1) * bs := (Nat.succ_mul k bs).symm
      _ ≤ count * bs := Nat.mul_le_mul_right bs hk
  rw [Nat.add_assoc, Nat.add_assoc]
  exact h _ hin

/-- The checks look at the dimensions and at whether the input is long enough, and at nothing else (R100, R121). -/
theorem bcdPlan_congr {bs ch : Nat} {l l' : BcdLatch} (hw : l'.width = l.width) (hh : l'.height = l.height)
    (hneed : ceil4 l.width.toNat * ceil4 l.height.toNat * bs ≤ l.srcLen.toNat ↔
      ceil4 l.width.toNat * ceil4 l.height.toNat * bs ≤ l'.srcLen.toNat) :
    bcdPlan (some (bs, ch)) l' = bcdPlan (some (bs, ch)) l := by
  simp only [bcdPlan, hw, hh, ← Nat.not_le, hneed]

/-- The byte at a position of the image depends on the mode and on the input bytes alone (R106, R121). -/
theorem pixelByte_eq_of_alike {dec : Bool → Bytes → BlockRegs} {bs x y c : Nat} {p : Plan} {l l' : BcdLatch}
    {m m' : Memory} (hmode : l'.bc5Fix = l.bc5Fix) (hblock : x / 4 + y / 4 * p.blocksX < p.blocksX * p.blocksY)
    (h : ∀ j, j < p.blocksX * p.blocksY * bs → m.read (l.srcAddr.toNat + j) = m'.read (l'.srcAddr.toNat + j)) :
    pixelByte dec bs p l m x y c = pixelByte dec bs p l' m' x y c := by
  simp only [pixelByte, hmode, blockBytes_eq_of_alike hblock h]

/-- Settles O33: the two commands have one plan, so both raise the same error, or both write the pixels of the same
blocks. -/
theorem blockDeterminism : Obligations.BlockDeterminism := by
  intro row hrow s s' t t' need hw hh hmode hneed hlen hm hm' hinput ht ht'
  subst hneed
  rw [exec_decodeRow hrow] at ht ht'
  have hplan := bcdPlan_congr (ch := row.2.2.2) hw hh hlen
  obtain ⟨herr, rfl⟩ | ⟨p, hp, hlegal, rfl⟩ := bcdCommand_next ht
  · obtain ⟨-, rfl⟩ | ⟨p', hp', -, -⟩ := bcdCommand_next ht'
    · exact ⟨rfl, rfl, fun hok => absurd hok (by simp [bcdRaise])⟩
    · simp [hplan, herr] at hp'
  · obtain ⟨herr', -⟩ | ⟨p', hp', hlegal', rfl⟩ := bcdCommand_next ht'
    · simp [hplan, hp] at herr'
    obtain rfl : p' = p := by simpa [hplan, hp] using hp'.symm
    refine ⟨rfl, rfl, fun _ j hj => ?_⟩
    obtain ⟨-, hpixels, -⟩ := bcdCommand_mem hrow hp hlegal.fits.2 hm rfl
    obtain ⟨-, hpixels', -⟩ := bcdCommand_mem hrow hp' hlegal'.fits.2 hm' rfl
    obtain ⟨-, -, -, rfl⟩ := bcdPlan_ok.1 hp
    have hjlen : j < s.bcdLatch.width.toNat * s.bcdLatch.height.toNat * row.2.2.2 :=
      Nat.lt_of_lt_of_le hj (Nat.mod_le _ _)
    obtain ⟨x, y, c, hx, hy, hc, rfl⟩ := exists_pixelOffset hjlen
    rw [hw, hh] at hpixels'
    exact (hpixels x y c hx hy hc).trans
      ((pixelByte_eq_of_alike hmode (block_lt hx hy) hinput).trans (hpixels' x y c hx hy hc).symm)

/-! ### Endpoint expansion -/

/-- Settles O39: over the 32 values of five bits and the 64 of six. -/
theorem expansionRounds : Obligations.ExpansionRounds := by
  have five_bits : ∀ v, v < 32 → 2 * 31 * rgb5to8 v < 2 * 255 * v + 31 ∧ 2 * 255 * v < 2 * 31 * rgb5to8 v + 31 := by
    decide
  have six_bits : ∀ v, v < 64 → 2 * 63 * rgb6to8 v < 2 * 255 * v + 63 ∧ 2 * 255 * v < 2 * 63 * rgb6to8 v + 63 := by
    decide
  exact ⟨five_bits, six_bits⟩

/-! ### The order of a ramp -/

/-- A mean of two endpoints by weights `k` and `n - k` lies `k` n-ths of their distance above the lower one. -/
theorem weightedMean_eq {n k lo hi : Nat} (hk : k ≤ n) (hn : 0 < n) (h : lo ≤ hi) :
    (k * hi + (n - k) * lo) / n = lo + k * (hi - lo) / n := by
  obtain ⟨d, rfl⟩ := Nat.exists_eq_add_of_le h
  obtain ⟨r, rfl⟩ := Nat.exists_eq_add_of_le hk
  have hsum : k * (lo + d) + (k + r - k) * lo = k * d + (k + r) * lo := by
    rw [Nat.add_sub_cancel_left]
    ring
  rw [hsum, Nat.add_mul_div_left _ _ hn, Nat.add_sub_cancel_left, Nat.add_comm]

/-- The ramp of eight values, by sevenths of the endpoints' distance (R115). -/
theorem buildRamp_of_gt {a0 a1 : Nat} (h : a1 < a0) :
    buildRamp a0 a1 =
      [a0, a1, a1 + 6 * (a0 - a1) / 7, a1 + 5 * (a0 - a1) / 7, a1 + 4 * (a0 - a1) / 7, a1 + 3 * (a0 - a1) / 7,
        a1 + 2 * (a0 - a1) / 7, a1 + 1 * (a0 - a1) / 7] := by
  have entry (k : Nat) (hk : k ≤ 7) : a1 + k * (a0 - a1) / 7 = (k * a0 + (7 - k) * a1) / 7 :=
    (weightedMean_eq hk (by decide) h.le).symm
  rw [entry 6 (by decide), entry 5 (by decide), entry 4 (by decide), entry 3 (by decide), entry 2 (by decide),
    entry 1 (by decide)]
  exact if_pos h

/-- The ramp of six values, by fifths of the endpoints' distance, with 0 and 255 (R115). -/
theorem buildRamp_of_le {a0 a1 : Nat} (h : a0 ≤ a1) :
    buildRamp a0 a1 =
      [a0, a1, a0 + 1 * (a1 - a0) / 5, a0 + 2 * (a1 - a0) / 5, a0 + 3 * (a1 - a0) / 5, a0 + 4 * (a1 - a0) / 5, 0,
        255] := by
  have entry (k : Nat) (hk : k ≤ 5) : a0 + k * (a1 - a0) / 5 = ((5 - k) * a0 + k * a1) / 5 := by
    rw [Nat.add_comm ((5 - k) * a0), weightedMean_eq hk (by decide) h]
  rw [entry 1 (by decide), entry 2 (by decide), entry 3 (by decide), entry 4 (by decide)]
  exact if_neg (Nat.not_lt.2 h)

/-- Settles O40: consecutive values are one part of the endpoints' distance apart, rounded; it takes a distance of
seven for every seventh to reach the next number. -/
theorem rampOrder : Obligations.RampOrder := by
  intro a0 a1 _ _
  by_cases h : a1 < a0
  · refine ⟨_, _, _, _, _, _, buildRamp_of_gt h, fun hle => absurd h (Nat.not_lt.2 hle), fun _ => ?_⟩
    omega
  · have hle := Nat.not_lt.1 h
    refine ⟨_, _, _, _, _, _, buildRamp_of_le hle, fun _ => ?_, fun hlt => absurd hlt h⟩
    omega

/-! ### Fields of a block -/

/-- The 16-bit field at a byte of a block is its reference's number (R47). -/
theorem toNat_le16 (buf : Bytes) (k : Nat) : (le16 buf k).toNat = wordAt buf k := by
  rw [le16]
  change BitVec.toNat (w := 8 + 8) _ = _
  rw [BitVec.toNat_append, Nat.shiftLeft_eq, Nat.mul_comm, ← Nat.two_pow_add_eq_or_of_lt (byteAt buf k).isLt,
    wordAt, Nat.add_comm]

/-- Byte q of a 32-bit field (R47). -/
theorem extractLsb'_le32 (buf : Bytes) (k : Nat) {q : Nat} (hq : q < 4) :
    (le32 buf k).extractLsb' (8 * q) 8 = byteAt buf (k + q) := by
  apply BitVec.eq_of_toNat_eq
  rw [BitVec.extractLsb'_toNat, Nat.shiftRight_eq_div_pow, toNat_le32]
  have h0 := (byteAt buf k).isLt
  have h1 := (byteAt buf (k + 1)).isLt
  have h2 := (byteAt buf (k + 2)).isLt
  have h3 := (byteAt buf (k + 3)).isLt
  interval_cases q <;> simp <;> omega

/-- The index bits of texel i stand in the byte of its row (R68, R113). -/
theorem toNat_colorIndexBits (blk : Bytes) (k : Nat) {i : Nat} (hi : i < 16) :
    ((le32 blk (k + 4)).extractLsb' (2 * i) 2).toNat = colorIndex blk k i := by
  have hplace : 2 * i = 8 * (i / 4) + 2 * (i % 4) := by omega
  rw [hplace, ← extractLsb'_extractLsb' (len := 8) _ (by omega), extractLsb'_le32 blk (k + 4) (by omega),
    BitVec.extractLsb'_toNat, Nat.shiftRight_eq_div_pow, Nat.pow_mul, colorIndex]

/-! ### Colours -/

/-- An expanded endpoint is its reference's three numbers, opaque (R69, R109). -/
theorem expand_eq (color : BitVec 16) :
    expand Config.rgb565Order color =
      ⟨(endpointRgb color.toNat).1, (endpointRgb color.toNat).2.1, (endpointRgb color.toNat).2.2, 255⟩ := by
  simp [expand, Config.rgb565Order, rgb5to8, rgb6to8, endpointRgb, Nat.shiftRight_eq_div_pow]

/-- Entry j of the four-colour palette, channel by channel (R111, R112). -/
theorem getD_paletteFour (color0 color1 : BitVec 16) {j : Nat} (hj : j < 4) :
    (paletteFour color0 color1).getD j ⟨0, 0, 0, 0⟩ =
      ⟨paletteChannel true (endpointRgb color0.toNat).1 (endpointRgb color1.toNat).1 j,
        paletteChannel true (endpointRgb color0.toNat).2.1 (endpointRgb color1.toNat).2.1 j,
        paletteChannel true (endpointRgb color0.toNat).2.2 (endpointRgb color1.toNat).2.2 j, 255⟩ := by
  rw [paletteFour, expand_eq, expand_eq]
  match j, hj with
  | 0, _ => rfl
  | 1, _ => rfl
  | 2, _ => simp [blend, paletteChannel, Config.blendDiv]
  | 3, _ => simp [blend, paletteChannel, Config.blendDiv]

/-- The colour of a texel whose block has the four-colour palette (R112, R113). -/
theorem colorTexel_paletteFour (blk : Bytes) (k : Nat) {i : Nat} (hi : i < 16) {p : Rgba}
    (hp : p = colorTexel (paletteFour (le16 blk k) (le16 blk (k + 2))) (le32 blk (k + 4)) i) :
    [octet p.r, octet p.g, octet p.b] = colorBytes true blk k i := by
  have hindex : colorIndex blk k i < 4 := Nat.mod_lt _ (by decide)
  subst hp
  rw [colorTexel, toNat_colorIndexBits blk k hi, getD_paletteFour _ _ hindex, toNat_le16, toNat_le16]
  rfl

/-- The explicit alpha is 17 times its nibble (R118). -/
theorem explicitAlpha_eq (blk : Bytes) (i : Nat) :
    explicitAlpha blk i = octet (17 * ((byteAt blk (i / 2)).toNat / 16 ^ (i % 2) % 16)) := by
  have hnibble : ((byteAt blk (i / 2)).extractLsb' (4 * (i % 2)) 4).toNat =
      (byteAt blk (i / 2)).toNat / 16 ^ (i % 2) % 16 := by
    rw [BitVec.extractLsb'_toNat, Nat.shiftRight_eq_div_pow, Nat.pow_mul]
  rw [explicitAlpha, ← hnibble]
  generalize (byteAt blk (i / 2)).extractLsb' (4 * (i % 2)) 4 = v
  revert v
  decide

/-- Settles O35: the four-colour palette in either order of the endpoints, and the texel's own nibble. -/
theorem bc2Texels : Obligations.Bc2Texels := by
  intro fix blk i hi
  rw [decodeBlock2, getElem?_tile _ hi, ← explicitAlpha_eq, ← colorTexel_paletteFour blk 8 hi rfl]
  rfl

end Sys2Proof.Machine

/-! Settles the statements about the BC1, BC3, BC4 and BC5 block decoders (41_bc_formats.md R122 and R124 to R128),
with the three-colour palette (R111) and the ramps (R115, R116). -/

namespace Sys2Proof.Machine

/-! ### The three-colour palette -/

/-- Entry j of the three-colour palette, channel by channel: its last entry alone is transparent (R111). -/
theorem getD_paletteThree (color0 color1 : BitVec 16) {j : Nat} (hj : j < 4) :
    (paletteThree color0 color1).getD j ⟨0, 0, 0, 0⟩ =
      ⟨paletteChannel false (endpointRgb color0.toNat).1 (endpointRgb color1.toNat).1 j,
        paletteChannel false (endpointRgb color0.toNat).2.1 (endpointRgb color1.toNat).2.1 j,
        paletteChannel false (endpointRgb color0.toNat).2.2 (endpointRgb color1.toNat).2.2 j,
        if j = 3 then 0 else 255⟩ := by
  rw [paletteThree, expand_eq, expand_eq]
  match j, hj with
  | 0, _ => rfl
  | 1, _ => rfl
  | 2, _ => simp [blend, paletteChannel, Config.blendDiv]
  | 3, _ => rfl

/-- Entry j of a BC1 block's palette: `two` says that the raw endpoints are in decreasing order (R111). -/
theorem getD_paletteBc1 {color0 color1 : BitVec 16} {two : Bool} (htwo : two = true ↔ color1.toNat < color0.toNat)
    {j : Nat} (hj : j < 4) :
    (paletteBc1 color0 color1).getD j ⟨0, 0, 0, 0⟩ =
      ⟨paletteChannel two (endpointRgb color0.toNat).1 (endpointRgb color1.toNat).1 j,
        paletteChannel two (endpointRgb color0.toNat).2.1 (endpointRgb color1.toNat).2.1 j,
        paletteChannel two (endpointRgb color0.toNat).2.2 (endpointRgb color1.toNat).2.2 j,
        if two = false ∧ j = 3 then 0 else 255⟩ := by
  cases two with
  | true =>
    rw [paletteBc1, if_pos (htwo.1 rfl), getD_paletteFour _ _ hj]
    rfl
  | false =>
    rw [paletteBc1, if_neg fun hlt => Bool.false_ne_true (htwo.2 hlt), getD_paletteThree _ _ hj]
    simp

/-- Settles O34: the index picks an entry of the palette that the order of the raw endpoints chose. -/
theorem bc1Texels : Obligations.Bc1Texels := by
  intro fix blk i hi
  refine ⟨decide (wordAt blk 2 < wordAt blk 0), decide_eq_true_iff, ?_⟩
  have hindex : colorIndex blk 0 i < 4 := Nat.mod_lt _ (by decide)
  have htwo : decide (wordAt blk 2 < wordAt blk 0) = true ↔ (le16 blk 2).toNat < (le16 blk 0).toNat := by
    rw [toNat_le16, toNat_le16, decide_eq_true_iff]
  rw [decodeBlock1, getElem?_tile _ hi]
  dsimp only
  rw [colorTexel, toNat_colorIndexBits blk 0 hi, getD_paletteBc1 htwo hindex, toNat_le16, toNat_le16]
  simp only [colorBytes, List.cons_append, List.nil_append, apply_ite octet]
  rfl

/-! ### Ramps -/

/-- The 24-bit field at a byte of a block (R47). -/
theorem toNat_le24 (buf : Bytes) (k : Nat) :
    (le24 buf k).toNat = wordAt buf k + 65536 * (byteAt buf (k + 2)).toNat := by
  have append_byte (w : Nat) (x : BitVec w) (y : Byte) : (x ++ y).toNat = 256 * x.toNat + y.toNat := by
    rw [BitVec.toNat_append, Nat.shiftLeft_eq, Nat.mul_comm, ← Nat.two_pow_add_eq_or_of_lt y.isLt]
  rw [le24]
  change BitVec.toNat (w := 8 + 8 + 8) _ = _
  rw [append_byte, append_byte, wordAt]
  omega

/-- The index of texel i: rows 0 and 1 of the tile stand in the first 24-bit field, rows 2 and 3 in the second (R71). -/
theorem idx3_eq (blk : Bytes) (k : Nat) {i : Nat} (hi : i < 16) : idx3 blk k i = rampIndex blk k i := by
  have bits (at0 j : Nat) : ((le24 blk at0).extractLsb' (3 * j) 3).toNat =
      (wordAt blk at0 + 65536 * (byteAt blk (at0 + 2)).toNat) / 8 ^ j % 8 := by
    rw [BitVec.extractLsb'_toNat, Nat.shiftRight_eq_div_pow, Nat.pow_mul, toNat_le24]
  rw [idx3, rampIndex, bits, bits]
  split
  case isTrue hlow => rw [Nat.div_eq_of_lt hlow, Nat.mod_eq_of_lt hlow]
  case isFalse hhigh =>
    have hhalf : i / 8 = 1 := by omega
    have hplace : i % 8 = i - 8 := by omega
    rw [hhalf, hplace]

/-- Entry j of a ramp is its reference's value (R115). -/
theorem getD_buildRamp (a0 a1 : Nat) {j : Nat} (hj : j < 8) : (buildRamp a0 a1).getD j 0 = rampValue a0 a1 j := by
  by_cases h : a1 < a0
  · rw [buildRamp, if_pos h]
    interval_cases j <;> simp [rampValue, h, Config.rampDiv]
  · rw [buildRamp, if_neg h]
    interval_cases j <;> simp [rampValue, h, Config.rampDiv]

/-- The ramp value of a texel, from the endpoints at byte e and the indices of the ramp block at byte k (R116). -/
theorem octet_rampTexel (blk : Bytes) (e k : Nat) {i : Nat} (hi : i < 16) :
    octet (rampTexel (buildRamp (byteAt blk e).toNat (byteAt blk (e + 1)).toNat) blk k i) = rampByte blk e k i := by
  have hindex : rampIndex blk k i < 8 := Nat.mod_lt _ (by decide)
  rw [rampTexel, idx3_eq blk k hi, getD_buildRamp _ _ hindex, rampByte]

/-- Settles O36: a BC2 block's colour, with the alpha read from the ramp of bytes 0 and 1. -/
theorem bc3Texels : Obligations.Bc3Texels := by
  intro fix blk i hi
  rw [decodeBlock3, getElem?_tile _ hi, ← octet_rampTexel blk 0 0 hi, ← colorTexel_paletteFour blk 8 hi rfl]
  rfl

/-- Settles O37: the one channel is a ramp value. -/
theorem bc4Texels : Obligations.Bc4Texels := by
  intro fix blk i hi
  rw [decodeBlock4, getElem?_tile _ hi, ← octet_rampTexel blk 0 0 hi]

/-- Settles O38: the mode picks the endpoints of the green ramp alone; the green indices are those of bytes 10 to 15 in
both, and no other decoder looks at the mode. -/
theorem bc5Texels : Obligations.Bc5Texels := by
  intro blk i hi
  have compatible : (decodeBlock5 false blk).texels[i]? = some [rampByte blk 0 0 i, rampByte blk 0 8 i] := by
    rw [decodeBlock5, getElem?_tile _ hi, ← octet_rampTexel blk 0 0 hi, ← octet_rampTexel blk 0 8 hi]
    rfl
  have corrected : (decodeBlock5 true blk).texels[i]? = some [rampByte blk 0 0 i, rampByte blk 8 8 i] := by
    rw [decodeBlock5, getElem?_tile _ hi, ← octet_rampTexel blk 0 0 hi, ← octet_rampTexel blk 8 8 hi]
    rfl
  exact ⟨compatible, corrected, rfl, rfl, rfl, rfl⟩

end Sys2Proof.Machine

/-! Settles the statements about the shader stream (42_shader_stream.md): a line's shape (R141, R142), the step (R129),
what an instruction leaves alone (R148), the cursor (R143, R147), and the completion (R150). -/

namespace Sys2Proof.Machine

/-! ### Lines -/

/-- Settles O12: the comment's fields are the opcode token's, and the length is `length_mkline`. -/
theorem lineShape : Obligations.LineShape := by
  refine fun body tok => ⟨?_, length_mkline body tok⟩
  have newline : ascii "\n" = [0x0A] := rfl
  simp only [mkline, field_eq_toNat, newline, spaces, Config.padColumn, List.append_assoc]

/-! ### The step -/

theorem step_of_agenda_cons {s : State} {e : Event} {rest : List Event} (h : s.agenda = e :: rest) :
    step s = runEvent e { s with agenda := rest } := by
  simp only [step, h]

theorem step_of_agenda_nil {s : State} (h : s.agenda = []) : step s = runAlone s := by
  simp only [step, h]

theorem runAlone_of_sbd_busy {s : State} (h : s.sbd.busy = true) : runAlone s = runSbd s := if_pos h

theorem runAlone_of_sbd_idle {s : State} (h : s.sbd.busy = false) : runAlone s = runBcd s :=
  if_neg (by simp [h])

theorem runSbd_of_busy {s : State} (h : s.sbd.busy = true) : runSbd s = sbdStep s := if_pos h

/-- An idle SBD's turn changes nothing (R226). -/
theorem runSbd_of_idle {s : State} (h : s.sbd.busy = false) : runSbd s = .next s := if_neg (by simp [h])

/-- An idle BCD's turn changes nothing (R226). -/
theorem runBcd_of_idle {s : State} (h : s.bcd.busy = false) : runBcd s = .next s := if_neg (by simp [h])

/-- The SBD's turn, its loop not ended, runs the instruction its tokens decode to. -/
theorem runSbd_of_decode {s : State} {i : Instr} {ws : List Word} (hb : s.sbd.busy = true)
    (hw : (sbdInput s.sbdLatch).wraps = false) (hx : loopExit s.sbdInt = none)
    (hd : decode (sbdPlace s) (fetchTokens s) = .ok (i, ws)) : runSbd s = exec i s := by
  simp [runSbd, hb, sbdStep, hw, hx, hd]

/-- The BCD's turn runs the command its latched FMT decodes to. -/
theorem runBcd_of_decode {s : State} {i : Instr} {ws : List Word} (hb : s.bcd.busy = true)
    (hd : decode .format [s.bcdLatch.fmt.zeroExtend 32] = .ok (i, ws)) : runBcd s = exec i s := by
  have hfmt : (s.bcdLatch.fmt.zeroExtend 32).extractLsb' 0 3 = s.bcdLatch.fmt := by
    refine BitVec.eq_of_getLsbD_eq fun k hk => ?_
    simp [hk]
    omega
  have hi : decodeFmt s.bcdLatch.fmt = i := by
    rw [← hfmt]
    exact congrArg Prod.fst (Except.ok.inj hd)
  rw [runBcd, if_pos hb, bcdStep, hi]

/-- What the SBD fetches does not depend on what is to come. -/
theorem fetchTokens_agenda (s : State) (rest : List Event) :
    fetchTokens { s with agenda := rest } = fetchTokens s :=
  tokensFrom_congr (s := s) (t := { s with agenda := rest }) rfl rfl _ _

/-- Settles O58: an engine's turn depends on the agenda neither in what it decodes nor in whether its loop has ended. -/
theorem stepRunsInstruction : Obligations.StepRunsInstruction := by
  intro s rest
  refine ⟨fun e => step_of_agenda_cons, fun hnil => ⟨step_of_agenda_nil hnil, rfl⟩, fun a => step_of_agenda_cons,
    fun i ws hb hw hx hd => ⟨fun hcons => ?_, fun hnil => ?_⟩,
    fun st c hb hw hx => ⟨fun hcons => ?_, fun hnil => ?_⟩,
    fun i ws hb hd => ⟨fun hcons => ?_, fun hnil hidle => ?_⟩, fun hidle hcons => ?_, fun hidle hcons => ?_⟩
  · rw [← fetchTokens_agenda s rest] at hd
    exact (step_of_agenda_cons hcons).trans (runSbd_of_decode (s := { s with agenda := rest }) hb hw hx hd)
  · rw [step_of_agenda_nil hnil, runAlone_of_sbd_busy hb, runSbd_of_decode hb hw hx hd]
  · exact (step_of_agenda_cons hcons).trans (runSbd_of_ended (s := { s with agenda := rest }) hb hw hx)
  · rw [step_of_agenda_nil hnil, runAlone_of_sbd_busy hb, runSbd_of_ended hb hw hx]
  · exact (step_of_agenda_cons hcons).trans (runBcd_of_decode (s := { s with agenda := rest }) hb hd)
  · rw [step_of_agenda_nil hnil, runAlone_of_sbd_idle hidle, runBcd_of_decode hb hd]
  · exact (step_of_agenda_cons hcons).trans (runSbd_of_idle hidle)
  · exact (step_of_agenda_cons hcons).trans (runBcd_of_idle hidle)

/-! ### What an instruction leaves alone -/

/-- An instruction that is no FMT value is a header token or stands in the stream of some version (R92). -/
theorem admits_header_or_stream {i : Instr} (h : Place.format.admits i = false) :
    Place.header.admits i = true ∨ ∃ major minor, (Place.stream major minor).admits i = true := by
  cases i
  case tex => exact .inr ⟨0, 0, rfl⟩
  case texld14 => exact .inr ⟨1, 4, rfl⟩
  case texld20 => exact .inr ⟨2, 0, rfl⟩
  case headerPs | headerVs | headerRejected => exact .inl rfl
  case decodeBc1 | decodeBc2 | decodeBc3 | decodeBc4 | decodeBc5 | unsupportedFormat5 | unsupportedFormat6 |
    unsupportedFormat7 => exact absurd h (by decide)
  all_goals exact .inr ⟨0, 0, rfl⟩

/-- The SBD's internals with more text, the token count kept, and the version too unless `header`. -/
def SbdInternal.Grows (header : Bool) (i j : SbdInternal) : Prop :=
  j.n = i.n ∧ (header = false → j.major = i.major ∧ j.minor = i.minor) ∧ ∃ added, j.text = i.text ++ added

/-- A header token changes the SBD's internals alone (R132, R133). -/
theorem exec_header_frame {i : Instr} (h : Place.header.admits i = true) (s : State) :
    ∃ j, exec i s = .next { s with sbdInt := j } ∧ s.sbdInt.Grows true j := by
  obtain ⟨prog, major, minor, -, he⟩ | he := exec_header h s
  · exact ⟨_, he, rfl, by simp, _, rfl⟩
  · exact ⟨_, he, rfl, by simp, [], (List.append_nil _).symm⟩

/-- A stream's instruction changes the SBD's internals alone and keeps the version (R148). -/
theorem exec_stream_frame {i : Instr} {major minor : BitVec 8} (h : (Place.stream major minor).admits i = true)
    (s : State) : ∃ j, exec i s = .next { s with sbdInt := j } ∧ s.sbdInt.Grows false j := by
  obtain ⟨ops, text, -, he⟩ := exec_stream h s
  split at he
  · split at he
    all_goals exact ⟨_, he, rfl, fun _ => ⟨rfl, rfl⟩, text, rfl⟩
  · exact ⟨_, he, rfl, fun _ => ⟨rfl, rfl⟩, text, rfl⟩

/-- Settles O24: a header token and a stream's instruction alike change the SBD's internals alone. -/
theorem shaderFrame : Obligations.ShaderFrame := by
  intro i s t hadm ht
  have hframe : ∃ j, exec i s = .next { s with sbdInt := j } ∧ s.sbdInt.Grows (Place.header.admits i) j := by
    obtain hheader | ⟨major, minor, hstream⟩ := admits_header_or_stream hadm
    · rw [hheader]
      exact exec_header_frame hheader s
    · obtain ⟨j, he, hn, hversion, htext⟩ := exec_stream_frame hstream s
      exact ⟨j, he, hn, fun _ => hversion rfl, htext⟩
  obtain ⟨j, he, hn, hversion, htext⟩ := hframe
  obtain rfl := Host.Outcome.next.inj (he.symm.trans ht)
  exact ⟨rfl, rfl, rfl, rfl, rfl, rfl, rfl, rfl, rfl, rfl, fun _ => rfl, hn, hversion, htext⟩

/-! ### The cursor -/

/-- Settles O26: the instruction at the cursor is printed and its tokens passed, or it is cut off. -/
theorem cursorAdvance : Obligations.CursorAdvance := by
  intro s op hb hw hended hpos hlt hop
  have hx : loopExit s.sbdInt = none := loopExit_running hended (by omega) (.inr hlt)
  rw [field_eq_toNat] at hop
  obtain ⟨ops, text, -, hstep⟩ := sbdStep_stream_outcome hw hx hpos hop rfl
  refine ⟨_, (runSbd_of_busy hb).trans hstep, fun hfits => ?_, fun hpast => ?_⟩
  · rw [if_pos hfits]
    split
    · exact ⟨rfl, rfl⟩
    · exact ⟨rfl, hended⟩
  · rw [if_neg (by omega)]
    exact ⟨rfl, rfl⟩

/-! ### The completion -/

/-- The text range in the form the statements give it. -/
theorem sbdTextRange_eq (s : State) :
    sbdTextRange s = ⟨s.sbdLatch.dstAddr.toNat, min s.sbdInt.text.length s.sbdLatch.dstCap.toNat⟩ := by
  rw [sbdTextRange, length_sbdWritten]

/-- Memory after the completion, by address (R150). -/
theorem read_sbdStored {s : State} (hm : s.mem.wf = true)
    (hfit : (sbdTextRange s).base + (sbdTextRange s).len ≤ sysSize) (a : Nat) :
    (sbdStored s).read a =
      if s.sbdLatch.dstAddr.toNat ≤ a ∧
          a < s.sbdLatch.dstAddr.toNat + min s.sbdInt.text.length s.sbdLatch.dstCap.toNat then
        byteAt (sbdWritten s) (a - s.sbdLatch.dstAddr.toNat)
      else s.mem.read a := by
  rw [← length_sbdWritten]
  exact Memory.read_writeBytes hm hfit a

/-- A byte of the output buffer that the text reaches is the text's (R150). -/
theorem read_sbdStored_inside {s : State} (hm : s.mem.wf = true)
    (hfit : (sbdTextRange s).base + (sbdTextRange s).len ≤ sysSize) {j : Nat}
    (hj : j < min s.sbdInt.text.length s.sbdLatch.dstCap.toNat) :
    s.sbdInt.text[j]? = some ((sbdStored s).read (s.sbdLatch.dstAddr.toNat + j)) := by
  obtain ⟨htext, hcap⟩ := lt_min_iff.1 hj
  rw [read_sbdStored hm hfit, if_pos (by omega), Nat.add_sub_cancel_left]
  simp [byteAt, sbdWritten, hcap, htext]

/-- The completion writes no byte outside the text's (R150). -/
theorem read_sbdStored_outside {s : State} (hm : s.mem.wf = true)
    (hfit : (sbdTextRange s).base + (sbdTextRange s).len ≤ sysSize) {a : Nat}
    (ha : a < s.sbdLatch.dstAddr.toNat ∨
      s.sbdLatch.dstAddr.toNat + min s.sbdInt.text.length s.sbdLatch.dstCap.toNat ≤ a) :
    (sbdStored s).read a = s.mem.read a := by
  rw [read_sbdStored hm hfit, if_neg (by omega)]

/-- Settles O27: legal ranges let the completion through, and memory after it is `sbdStored`. -/
theorem shaderCompletion : Obligations.ShaderCompletion := by
  intro s st c m hb hm hx hlen hlegal
  subst hlen
  rw [← sbdTextRange_eq] at hlegal
  obtain ⟨hin, hout⟩ := hlegal.fits
  have hnext : runSbd s = .next (sbdComplete st c s) :=
    (runSbd_of_ended hb (Extent.wraps_eq_false.2 hin) hx).trans (sbdFinish_of_legal hlegal)
  exact ⟨_, hnext, rfl, fun j => read_sbdStored_inside hm hout, fun a => read_sbdStored_outside hm hout,
    rfl, rfl, rfl, rfl, rfl, rfl⟩

end Sys2Proof.Machine

/-! Settles the statements about a whole shader command: the engine's run is SBDecode of its tokens (42_shader_stream.md
R129), and SBDecode reads no token after the END that ended it (R144). -/

namespace Sys2Proof.Machine

/-! ### An instruction rendered from its tokens is R129's reading of them -/

/-- A rendering without its operand texts: what R129 says of an instruction. -/
def Rendered.decoded : Rendered → Decoded
  | .done _ lines used => .done lines used
  | .truncated _ part => .truncated part

/-- `rest` holds the tokens after the one at `cur`, as far as an instruction's operands reach. -/
def FollowsAt (toks : List Word) (cur : Nat) (rest : List Word) : Prop := ∀ k < 5, rest[k]? = toks[cur + 1 + k]?

/-- DecodeGeneric (R137) of a row of ARITY and the tokens after the opcode token. -/
def renderRow (tok : Word) (rest : List Word) (row : String × Bool × Nat) : Rendered :=
  match row with
  | (name, false, count) => renderGeneric (ascii name) tok none ((List.range' 0 count).map (srcAt rest))
  | (name, true, count) =>
    renderGeneric (ascii name) tok (some (dstAt rest 0)) ((List.range' 1 count).map (srcAt rest))

/-- The rendering of the instruction that an opcode token of opcode `op` and the tokens after it name. -/
def renderOpcode (version : BitVec 8 × BitVec 8) (op : Nat) (tok : Word) (rest : List Word) : Rendered :=
  if op = 31 then renderDcl tok (declAt rest 0) (dstAt rest 1)
  else if op = 81 then renderDef tok (dstAt rest 0) [rest[1]?, rest[2]?, rest[3]?, rest[4]?]
  else if op = 66 then renderRow tok rest (texRow version)
  else
    match arity op with
    | some row => renderRow tok rest row
    | none => .done [] [] 1

/-- The state after a turn, from the state its rendering leaves: END also ends the loop (R144). -/
def turnOf (op : Nat) (s : State) : State := if op = 65535 then endLoop .ok s else s

/-- R129's `case op of`, with R95's reading of an unrecognised opcode: one token, no text. -/
def decodedAt (toks : List Word) (version : BitVec 8 × BitVec 8) (cur : Nat) (tok : Word) : Decoded :=
  (rawInstr toks version cur tok).getD (.done [] 1)

/-- Running the instruction of an opcode token emits its rendering, row by row of the decoder. -/
theorem exec_decodeOpcode_opTok (version : BitVec 8 × BitVec 8) (hi op : BitVec 16) (rest : List Word) (s : State) :
    exec (decodeOpcode version (opTok hi op) rest).1 s =
      .next (turnOf op.toNat (emit (renderOpcode version op.toNat (opTok hi op) rest) s)) := by
  unfold decodeOpcode
  rw [opTok_opcode, opTok_hi]
  split
  case h_42 h =>
    obtain rfl := eq_ofNat h
    simp only [decodeTex, renderOpcode, texRow]
    cases texForm version <;> rfl
  case h_46 =>
    have hnone : arity op.toNat = none := by
      unfold arity
      split
      case h_43 => rfl
      all_goals contradiction
    have hrender : renderOpcode version op.toNat (opTok hi op) rest = .done [] [] 1 := by
      rw [renderOpcode, if_neg (by assumption), if_neg (by assumption), if_neg (by assumption), hnone]
    rw [hrender, turnOf, if_neg (by assumption)]
    rfl
  all_goals
    rename_i h
    obtain rfl := eq_ofNat h
    rfl

theorem exec_decodeOpcode {tok : Word} {op : Nat} (hop : (tok.extractLsb' 0 16).toNat = op)
    (version : BitVec 8 × BitVec 8) (rest : List Word) (s : State) :
    exec (decodeOpcode version tok rest).1 s = .next (turnOf op (emit (renderOpcode version op tok rest) s)) := by
  subst hop
  have h := exec_decodeOpcode_opTok version (tok.extractLsb' 16 16) (tok.extractLsb' 0 16) rest s
  rwa [opTok_eta] at h

section
variable {toks rest : List Word} {cur : Nat}

theorem decoded_renderSources (h : FollowsAt toks cur rest) (tok : Word) (body : Bytes) (ops : List Bytes)
    {k count : Nat} (hk : k + count ≤ 5) :
    (renderSources tok body ops (1 + k) ((List.range' k count).map (srcAt rest))).decoded =
      rawSources toks cur tok body ops (cur + 1 + k) count := by
  induction count generalizing ops k with
  | zero =>
    have hused : cur + 1 + k - cur = 1 + k := by omega
    simp only [List.range'_zero, List.map_nil, renderSources, rawSources, Rendered.decoded, hused]
  | succ count ih =>
    rw [List.range'_succ, List.map_cons, rawSources, srcAt, ← h k (by omega)]
    cases rest[k]? with
    | none => rfl
    | some t =>
      dsimp only
      rw [← (sourceText t).1]
      exact ih _ (k := k + 1) (by omega)

theorem decoded_renderRow (h : FollowsAt toks cur rest) (tok : Word) {row : String × Bool × Nat}
    (hrow : row.2.2 ≤ 3) : (renderRow tok rest row).decoded = rawGeneric toks cur tok row := by
  obtain ⟨name, dst, count⟩ := row
  replace hrow : count ≤ 3 := hrow
  cases dst with
  | false => exact decoded_renderSources h tok (ascii name) [] (k := 0) (by omega)
  | true =>
    have hdst : rest[0]? = toks[cur + 1]? := h 0 (by omega)
    rw [renderRow, rawGeneric, dstAt, ← hdst]
    cases rest[0]? with
    | none => rfl
    | some t =>
      obtain ⟨-, hmods, hop, -⟩ := destinationAndDeclarationText t
      dsimp only
      rw [← hmods, rawDstop, ← hop]
      exact decoded_renderSources h tok _ _ (k := 1) (by omega)

/-- The type `s` has code 10 (R81). -/
theorem eq_sampler_iff {reg : RegType} (h : reg.wellFormed = true) : reg = .s ↔ reg.toCode.toNat = 10 := by
  constructor
  · rintro rfl
    rfl
  · intro hcode
    rw [← RegType.ofCode_toCode h, RegType.ofCode, hcode]
    rfl

theorem decoded_renderDcl (h : FollowsAt toks cur rest) (tok : Word) :
    (renderDcl tok (declAt rest 0) (dstAt rest 1)).decoded = rawDcl toks cur tok := by
  have hdecl : rest[0]? = toks[cur + 1]? := h 0 (by omega)
  have hdst : rest[1]? = toks[cur + 2]? := h 1 (by omega)
  rw [rawDcl, declAt, dstAt, ← hdecl, ← hdst]
  cases rest[0]? with
  | none => rfl
  | some u =>
    cases rest[1]? with
    | none => rfl
    | some d =>
      obtain ⟨-, -, hop, -⟩ := destinationAndDeclarationText d
      obtain ⟨-, -, -, husage, hindex, htex⟩ := destinationAndDeclarationText u
      have hsampler : (DstOp.ofToken d).reg = .s ↔ rawType d = 10 := by
        rw [← toNat_toCode_regTypeOf]
        exact eq_sampler_iff (wellFormed_regTypeOf d)
      simp only [Option.map_some, renderDcl, Rendered.decoded, dclSamplerLine, dclUsageLine, rawDstop, hop, husage,
        hindex, htex, hsampler]

theorem decoded_renderLiterals (h : FollowsAt toks cur rest) (tok : Word) (ops : List Bytes) (body : Bytes)
    {k count : Nat} (hk : k + count = 5) :
    (renderLiterals tok ops body (1 + k) ((List.range' k count).map (rest[·]?))).decoded =
      rawLiterals toks tok body (cur + 1 + k) count := by
  induction count generalizing ops body k with
  | zero =>
    obtain rfl : k = 5 := hk
    rfl
  | succ count ih =>
    rw [List.range'_succ, List.map_cons, rawLiterals, ← h k (by omega)]
    cases rest[k]? with
    | none => rfl
    | some x => exact ih _ _ (k := k + 1) (by omega)

theorem decoded_renderDef (h : FollowsAt toks cur rest) (tok : Word) :
    (renderDef tok (dstAt rest 0) [rest[1]?, rest[2]?, rest[3]?, rest[4]?]).decoded = rawDef toks cur tok := by
  have hdst : rest[0]? = toks[cur + 1]? := h 0 (by omega)
  rw [rawDef, dstAt, ← hdst]
  cases rest[0]? with
  | none => rfl
  | some d =>
    dsimp only
    rw [← (registerNames d).1]
    exact decoded_renderLiterals h tok _ _ (k := 1) (count := 4) rfl

/-- The rendering of an opcode token is R129's reading of the stream at it. -/
theorem decoded_renderOpcode (h : FollowsAt toks cur rest) {tok : Word} {op : Nat}
    (hop : (tok.extractLsb' 0 16).toNat = op) (version : BitVec 8 × BitVec 8) :
    (renderOpcode version op tok rest).decoded = decodedAt toks version cur tok := by
  rw [decodedAt, rawInstr, hop, renderOpcode]
  by_cases hdcl : op = 31
  · simp only [if_pos hdcl, decoded_renderDcl h, Option.getD_some]
  by_cases hdef : op = 81
  · simp only [if_neg hdcl, if_pos hdef, decoded_renderDef h, Option.getD_some]
  by_cases htex : op = 66
  · have hrow : (texRow version).2.2 ≤ 3 := by
      unfold texRow
      split <;> decide
    simp only [if_neg hdcl, if_neg hdef, if_pos htex, decoded_renderRow h tok hrow, Option.getD_some]
  simp only [if_neg hdcl, if_neg hdef, if_neg htex]
  cases hrow : arity op with
  | none => rfl
  | some row => exact decoded_renderRow h tok (arity_sources hrow)

end

/-! ### How far an instruction reaches -/

/-- How many tokens a row of ARITY takes (R94). -/
def rowLength (row : String × Bool × Nat) : Nat := 1 + (if row.2.1 then 1 else 0) + row.2.2

/-- Which reading R129 gives an opcode token, and how many tokens it takes (R94). -/
theorem decodedAt_cases {tok : Word} {op : Nat} (hop : (tok.extractLsb' 0 16).toNat = op)
    (version : BitVec 8 × BitVec 8) :
    (∀ toks cur, decodedAt toks version cur tok = rawDcl toks cur tok) ∧ opcodeLength version op = 3 ∨
      (∀ toks cur, decodedAt toks version cur tok = rawDef toks cur tok) ∧ opcodeLength version op = 6 ∨
      (∃ row, (∀ toks cur, decodedAt toks version cur tok = rawGeneric toks cur tok row) ∧
        opcodeLength version op = rowLength row) ∨
      (∀ toks cur, decodedAt toks version cur tok = .done [] 1) ∧ opcodeLength version op = 1 := by
  simp only [decodedAt, rawInstr, hop, opcodeLength]
  by_cases hdcl : op = 31
  · exact .inl (by simp [hdcl])
  by_cases hdef : op = 81
  · exact .inr (.inl (by simp [hdef]))
  by_cases htex : op = 66
  · exact .inr (.inr (.inl ⟨texRow version, by simp [htex], by simp [htex, rowLength]⟩))
  simp only [if_neg hdcl, if_neg hdef, if_neg htex]
  cases arity op with
  | none => exact .inr (.inr (.inr ⟨fun _ _ => rfl, rfl⟩))
  | some row => exact .inr (.inr (.inl ⟨row, fun _ _ => rfl, rfl⟩))

/-- A complete reading takes `len` tokens, all of them there; a truncated one has run out of tokens before. -/
def Decoded.Spans (toks : List Word) (cur len : Nat) : Decoded → Prop
  | .done _ used => used = len ∧ cur + len ≤ toks.length
  | .truncated _ => toks.length < cur + len

section
variable {toks : List Word} {cur : Nat}

/-- A reading that ends at a missing token before its `len` is through. -/
theorem spans_truncated {j len : Nat} (part : Bytes) (hget : toks[j]? = none) (hj : j < cur + len) :
    (Decoded.truncated part).Spans toks cur len :=
  (List.getElem?_eq_none_iff.1 hget).trans_lt hj

theorem rawSources_spans (tok : Word) (body : Bytes) (ops : List Bytes) {j : Nat} (count : Nat) (hcur : cur ≤ j)
    (hj : j ≤ toks.length) :
    (rawSources toks cur tok body ops j count).Spans toks cur (j - cur + count) := by
  induction count generalizing ops j with
  | zero => exact ⟨rfl, by omega⟩
  | succ count ih =>
    rw [rawSources]
    cases hget : toks[j]? with
    | none => exact spans_truncated _ hget (by omega)
    | some t =>
      obtain ⟨hlt, -⟩ := List.getElem?_eq_some_iff.1 hget
      rw [show j - cur + (count + 1) = j + 1 - cur + count by omega]
      exact ih _ (by omega) hlt

theorem rawGeneric_spans (tok : Word) (row : String × Bool × Nat) (hcur : cur < toks.length) :
    (rawGeneric toks cur tok row).Spans toks cur (rowLength row) := by
  obtain ⟨name, dst, count⟩ := row
  cases dst with
  | false =>
    have h := rawSources_spans tok (ascii name) [] count (Nat.le_add_right cur 1) hcur
    rwa [Nat.add_sub_cancel_left] at h
  | true =>
    rw [rawGeneric]
    cases hget : toks[cur + 1]? with
    | none => exact spans_truncated _ hget (show cur + 1 < cur + (1 + 1 + count) by omega)
    | some t =>
      obtain ⟨hlt, -⟩ := List.getElem?_eq_some_iff.1 hget
      have h := rawSources_spans tok (ascii name ++ rawDstmods t) [rawDstop t] count (Nat.le_add_right cur 2) hlt
      rwa [Nat.add_sub_cancel_left] at h

theorem rawDcl_spans (tok : Word) : (rawDcl toks cur tok).Spans toks cur 3 := by
  rw [rawDcl]
  cases hdecl : toks[cur + 1]? with
  | none => exact spans_truncated _ hdecl (by omega)
  | some u =>
    cases hdst : toks[cur + 2]? with
    | none => exact spans_truncated _ hdst (by omega)
    | some d =>
      obtain ⟨hlt, -⟩ := List.getElem?_eq_some_iff.1 hdst
      exact ⟨rfl, hlt⟩

theorem rawLiterals_spans (tok : Word) (body : Bytes) {j count : Nat} (hj : j + count = cur + 6)
    (hle : j ≤ toks.length) : (rawLiterals toks tok body j count).Spans toks cur 6 := by
  induction count generalizing body j with
  | zero => exact ⟨rfl, by omega⟩
  | succ count ih =>
    rw [rawLiterals]
    cases hget : toks[j]? with
    | none => exact spans_truncated _ hget (by omega)
    | some x =>
      obtain ⟨hlt, -⟩ := List.getElem?_eq_some_iff.1 hget
      exact ih _ (by omega) hlt

theorem rawDef_spans (tok : Word) : (rawDef toks cur tok).Spans toks cur 6 := by
  rw [rawDef]
  cases hget : toks[cur + 1]? with
  | none => exact spans_truncated _ hget (by omega)
  | some d =>
    obtain ⟨hlt, -⟩ := List.getElem?_eq_some_iff.1 hget
    exact rawLiterals_spans tok _ (by omega) hlt

/-- The reading of an opcode token spans its opcode's length (R94, R143). -/
theorem decodedAt_spans {tok : Word} {op : Nat} (hop : (tok.extractLsb' 0 16).toNat = op)
    (version : BitVec 8 × BitVec 8) (hcur : cur < toks.length) :
    (decodedAt toks version cur tok).Spans toks cur (opcodeLength version op) := by
  obtain ⟨hd, hlen⟩ | ⟨hd, hlen⟩ | ⟨row, hd, hlen⟩ | ⟨hd, hlen⟩ := decodedAt_cases hop version
  all_goals rw [hd, hlen]
  · exact rawDcl_spans tok
  · exact rawDef_spans tok
  · exact rawGeneric_spans tok row hcur
  · exact ⟨rfl, hcur⟩

/-! ### An instruction is read from its own tokens -/

variable {toks' : List Word}

theorem rawSources_congr (tok : Word) (body : Bytes) (ops : List Bytes) {j count : Nat}
    (h : ∀ k < j + count, toks'[k]? = toks[k]?) :
    rawSources toks' cur tok body ops j count = rawSources toks cur tok body ops j count := by
  induction count generalizing ops j with
  | zero => rfl
  | succ count ih =>
    rw [rawSources, rawSources, h j (by omega)]
    cases toks[j]? with
    | none => rfl
    | some t => exact ih _ fun k hk => h k (by omega)

theorem rawGeneric_congr (tok : Word) (row : String × Bool × Nat)
    (h : ∀ k < cur + rowLength row, toks'[k]? = toks[k]?) :
    rawGeneric toks' cur tok row = rawGeneric toks cur tok row := by
  obtain ⟨name, dst, count⟩ := row
  cases dst with
  | false =>
    replace h : ∀ k < cur + (1 + count), toks'[k]? = toks[k]? := h
    exact rawSources_congr tok _ _ fun k hk => h k (by omega)
  | true =>
    replace h : ∀ k < cur + (1 + 1 + count), toks'[k]? = toks[k]? := h
    rw [rawGeneric, rawGeneric, h (cur + 1) (by omega)]
    cases toks[cur + 1]? with
    | none => rfl
    | some t => exact rawSources_congr tok _ _ fun k hk => h k (by omega)

theorem rawDcl_congr (tok : Word) (h : ∀ k < cur + 3, toks'[k]? = toks[k]?) :
    rawDcl toks' cur tok = rawDcl toks cur tok := by
  rw [rawDcl, rawDcl, h (cur + 1) (by omega), h (cur + 2) (by omega)]

theorem rawLiterals_congr (tok : Word) (body : Bytes) {j count : Nat}
    (h : ∀ k < j + count, toks'[k]? = toks[k]?) :
    rawLiterals toks' tok body j count = rawLiterals toks tok body j count := by
  induction count generalizing body j with
  | zero => rfl
  | succ count ih =>
    rw [rawLiterals, rawLiterals, h j (by omega)]
    cases toks[j]? with
    | none => rfl
    | some x => exact ih _ fun k hk => h k (by omega)

theorem rawDef_congr (tok : Word) (h : ∀ k < cur + 6, toks'[k]? = toks[k]?) :
    rawDef toks' cur tok = rawDef toks cur tok := by
  rw [rawDef, rawDef, h (cur + 1) (by omega)]
  cases toks[cur + 1]? with
  | none => rfl
  | some d => exact rawLiterals_congr tok _ h

/-- The reading of an opcode token depends on its opcode's tokens alone. -/
theorem decodedAt_congr {tok : Word} {op : Nat} (hop : (tok.extractLsb' 0 16).toNat = op)
    (version : BitVec 8 × BitVec 8) (h : ∀ k < cur + opcodeLength version op, toks'[k]? = toks[k]?) :
    decodedAt toks' version cur tok = decodedAt toks version cur tok := by
  obtain ⟨hd, hlen⟩ | ⟨hd, hlen⟩ | ⟨row, hd, hlen⟩ | ⟨hd, -⟩ := decodedAt_cases hop version
  · rw [hd, hd, rawDcl_congr tok (hlen ▸ h)]
  · rw [hd, hd, rawDef_congr tok (hlen ▸ h)]
  · rw [hd, hd, rawGeneric_congr tok row (hlen ▸ h)]
  · rw [hd, hd]

end

/-! ### The loop of R129 -/

/-- A run of R129's loop from a cursor and a text to a status, text and cursor: past the last token (R146), at a
truncated instruction (R143), at an END (R144), or by another turn (R147). -/
inductive LoopRun (toks : List Word) (version : BitVec 8 × BitVec 8) : Nat → Bytes → Status → Bytes → Nat → Prop
  | past {cur : Nat} {text : Bytes} (hcur : toks.length ≤ cur) : LoopRun toks version cur text .ok text cur
  | cut {cur : Nat} {text part : Bytes} {tok : Word} (hget : toks[cur]? = some tok)
      (hd : decodedAt toks version cur tok = .truncated part) :
      LoopRun toks version cur text .insufficientData (text ++ part) toks.length
  | finish {cur used : Nat} {text lines : Bytes} {tok : Word} (hget : toks[cur]? = some tok)
      (hend : (tok.extractLsb' 0 16).toNat = 65535) (hd : decodedAt toks version cur tok = .done lines used) :
      LoopRun toks version cur text .ok (text ++ lines) (cur + used)
  | turn {cur used c : Nat} {text lines out : Bytes} {st : Status} {tok : Word} (hget : toks[cur]? = some tok)
      (hend : (tok.extractLsb' 0 16).toNat ≠ 65535) (hd : decodedAt toks version cur tok = .done lines used)
      (hrest : LoopRun toks version (cur + used) (text ++ lines) st out c) : LoopRun toks version cur text st out c

section
variable {toks : List Word} {version : BitVec 8 × BitVec 8} {cur c : Nat} {text out : Bytes} {st : Status}

/-- A complete reading of a token of the stream takes its opcode's tokens, one at least, and they are there. -/
theorem spans_of_done {tok : Word} {lines : Bytes} {used : Nat} (hget : toks[cur]? = some tok)
    (hd : decodedAt toks version cur tok = .done lines used) :
    used = opcodeLength version (tok.extractLsb' 0 16).toNat ∧ 0 < used ∧ cur + used ≤ toks.length := by
  obtain ⟨hlt, -⟩ := List.getElem?_eq_some_iff.1 hget
  have hspans := decodedAt_spans (tok := tok) rfl version hlt
  rw [hd] at hspans
  obtain ⟨rfl, hle⟩ := hspans
  exact ⟨rfl, opcodeLength_pos version _, hle⟩

/-- An unrecognised opcode is a turn like any other, and not END. -/
theorem rawInstr_none {tok : Word} (h : rawInstr toks version cur tok = none) :
    decodedAt toks version cur tok = .done [] 1 ∧ (tok.extractLsb' 0 16).toNat ≠ 65535 := by
  refine ⟨by rw [decodedAt, h]; rfl, fun hend => ?_⟩
  simp [rawInstr, hend, arity] at h

theorem decodedAt_of_some {tok : Word} {d : Decoded} (h : rawInstr toks version cur tok = some d) :
    decodedAt toks version cur tok = d := by
  rw [decodedAt, h]
  rfl

theorem rawLoop_of_past {fuel : Nat} (hcur : toks.length ≤ cur) :
    rawLoop toks version fuel cur text = (.ok, text, cur) := by
  cases fuel with
  | zero => rfl
  | succ fuel => rw [rawLoop, List.getElem?_eq_none_iff.2 hcur]

theorem rawLoop_of_truncated {tok : Word} {part : Bytes} {fuel : Nat} (hget : toks[cur]? = some tok)
    (hd : decodedAt toks version cur tok = .truncated part) :
    rawLoop toks version (fuel + 1) cur text = (.insufficientData, text ++ part, toks.length) := by
  rw [rawLoop, hget]
  dsimp only
  cases hraw : rawInstr toks version cur tok with
  | none => cases (rawInstr_none hraw).1.symm.trans hd
  | some d =>
    obtain rfl := (decodedAt_of_some hraw).symm.trans hd
    rfl

theorem rawLoop_of_done {tok : Word} {lines : Bytes} {used fuel : Nat} (hget : toks[cur]? = some tok)
    (hd : decodedAt toks version cur tok = .done lines used) :
    rawLoop toks version (fuel + 1) cur text =
      if (tok.extractLsb' 0 16).toNat = 65535 then (.ok, text ++ lines, cur + used)
      else rawLoop toks version fuel (cur + used) (text ++ lines) := by
  rw [rawLoop, hget]
  dsimp only
  cases hraw : rawInstr toks version cur tok with
  | none =>
    obtain ⟨hdone, hend⟩ := rawInstr_none hraw
    cases hdone.symm.trans hd
    rw [if_neg hend, List.append_nil]
  | some d =>
    obtain rfl := (decodedAt_of_some hraw).symm.trans hd
    rfl

/-- With fuel for the tokens that are left, `rawLoop` is a run of the loop. -/
theorem loopRun_of_rawLoop {fuel : Nat} (hfuel : toks.length ≤ cur + fuel)
    (h : rawLoop toks version fuel cur text = (st, out, c)) : LoopRun toks version cur text st out c := by
  induction fuel generalizing cur text with
  | zero =>
    cases h
    exact .past hfuel
  | succ fuel ih =>
    cases hget : toks[cur]? with
    | none =>
      have hpast := List.getElem?_eq_none_iff.1 hget
      cases (rawLoop_of_past hpast).symm.trans h
      exact .past hpast
    | some tok =>
      cases hd : decodedAt toks version cur tok with
      | truncated part =>
        cases (rawLoop_of_truncated hget hd).symm.trans h
        exact .cut hget hd
      | done lines used =>
        obtain ⟨-, hused, -⟩ := spans_of_done hget hd
        rw [rawLoop_of_done hget hd] at h
        split at h
        case isTrue hend =>
          cases h
          exact .finish hget hend hd
        case isFalse hend => exact .turn hget hend hd (ih (by omega) h)

/-- A run of the loop is `rawLoop` with any fuel for the tokens that are left. -/
theorem LoopRun.rawLoop_eq (h : LoopRun toks version cur text st out c) {fuel : Nat}
    (hfuel : toks.length ≤ cur + fuel) : rawLoop toks version fuel cur text = (st, out, c) := by
  induction h generalizing fuel with
  | past hcur => exact rawLoop_of_past hcur
  | cut hget hd =>
    obtain ⟨hlt, -⟩ := List.getElem?_eq_some_iff.1 hget
    obtain ⟨fuel, rfl⟩ := Nat.exists_eq_add_one_of_ne_zero (show fuel ≠ 0 by omega)
    exact rawLoop_of_truncated hget hd
  | finish hget hend hd =>
    obtain ⟨hlt, -⟩ := List.getElem?_eq_some_iff.1 hget
    obtain ⟨fuel, rfl⟩ := Nat.exists_eq_add_one_of_ne_zero (show fuel ≠ 0 by omega)
    rw [rawLoop_of_done hget hd, if_pos hend]
  | turn hget hend hd hrest ih =>
    obtain ⟨hlt, -⟩ := List.getElem?_eq_some_iff.1 hget
    obtain ⟨fuel, rfl⟩ := Nat.exists_eq_add_one_of_ne_zero (show fuel ≠ 0 by omega)
    obtain ⟨-, hused, -⟩ := spans_of_done hget hd
    rw [rawLoop_of_done hget hd, if_neg hend]
    exact ih (by omega)

/-- The cursor never goes back, and stays a token index 0 to n (R33). -/
theorem LoopRun.cursor_bounds (h : LoopRun toks version cur text st out c) (hcur : cur ≤ toks.length) :
    cur ≤ c ∧ c ≤ toks.length := by
  induction h with
  | past => exact ⟨le_rfl, hcur⟩
  | cut => exact ⟨hcur, le_rfl⟩
  | finish hget hend hd =>
    obtain ⟨-, -, hle⟩ := spans_of_done hget hd
    exact ⟨Nat.le_add_right _ _, hle⟩
  | turn hget hend hd hrest ih =>
    obtain ⟨-, -, hle⟩ := spans_of_done hget hd
    obtain ⟨hback, hlen⟩ := ih hle
    exact ⟨by omega, hlen⟩

/-- A loop that an END ended has read no token past the cursor it reports (R144). -/
theorem LoopRun.of_agree (h : LoopRun toks version cur text st out c) (hst : st = .ok) (hc : c < toks.length)
    {toks' : List Word} (hagree : ∀ k < c, toks'[k]? = toks[k]?) : LoopRun toks' version cur text st out c := by
  induction h with
  | past hcur => exact absurd hc (by omega)
  | cut => cases hst
  | @finish cur used text lines tok hget hend hd =>
    obtain ⟨hlen, hused, -⟩ := spans_of_done hget hd
    subst hlen
    exact .finish ((hagree cur (by omega)).trans hget) hend ((decodedAt_congr rfl version hagree).trans hd)
  | @turn cur used c text lines out st tok hget hend hd hrest ih =>
    obtain ⟨hlen, hused, hle⟩ := spans_of_done hget hd
    obtain ⟨hback, -⟩ := hrest.cursor_bounds hle
    subst hlen
    have hd' := decodedAt_congr (tok := tok) rfl version fun k hk => hagree k (hk.trans_le hback)
    exact .turn ((hagree cur (by omega)).trans hget) hend (hd'.trans hd) (ih hst hc hagree)

end

/-! ### The header -/

/-- What the header line says (R96). -/
def headerLine (prog : String) (tok : Word) : Bytes :=
  ascii prog ++ ascii "_" ++ dec (tok.extractLsb' 8 8).toNat ++ ascii "_" ++ dec (tok.extractLsb' 0 8).toNat ++
    ascii "\n"

/-- The version a header token names (R76). -/
def headerVersion (tok : Word) : BitVec 8 × BitVec 8 := (tok.extractLsb' 8 8, tok.extractLsb' 0 8)

/-- The engine and SBDecode alike print a header's line and go on at cursor 1 (R133), or reject the token (R132). -/
theorem header_cases (tok : Word) :
    (∃ prog,
      (∀ s, exec (decodeHeader tok) s = .next (emitHeader prog (headerVersion tok).1 (headerVersion tok).2 s)) ∧
      ∀ rest, sbDecode (tok :: rest) =
        rawLoop (tok :: rest) (headerVersion tok) (rest.length + 1) 1 (headerLine prog tok)) ∨
    (∀ s, exec (decodeHeader tok) s =
      .next { s with sbdInt := { s.sbdInt with ended := some (.unsupportedFormat, 0) } }) ∧
      ∀ rest, sbDecode (tok :: rest) = (.unsupportedFormat, [], 0) := by
  by_cases hps : tok.extractLsb' 16 16 = 0xFFFF#16
  · exact .inl ⟨"ps", fun s => by rw [decodeHeader, if_pos hps]; rfl, fun rest => by
      simp only [sbDecode, if_pos hps]; rfl⟩
  by_cases hvs : tok.extractLsb' 16 16 = 0xFFFE#16
  · exact .inl ⟨"vs", fun s => by rw [decodeHeader, if_neg hps, if_pos hvs]; rfl, fun rest => by
      simp only [sbDecode, if_neg hps, if_pos hvs]; rfl⟩
  · exact .inr ⟨fun s => by rw [decodeHeader, if_neg hps, if_neg hvs]; rfl, fun rest => by
      simp only [sbDecode, if_neg hps, if_neg hvs]⟩

/-- The cursor SBDecode reports is a token index 0 to n (R33). -/
theorem sbDecode_cursor_le {toks : List Word} {st : Status} {out : Bytes} {c : Nat}
    (h : sbDecode toks = (st, out, c)) : c ≤ toks.length := by
  cases toks with
  | nil =>
    cases h
    exact le_rfl
  | cons tok rest =>
    obtain ⟨prog, -, hdecode⟩ | ⟨-, hdecode⟩ := header_cases tok
    · rw [hdecode] at h
      obtain ⟨-, hle⟩ := (loopRun_of_rawLoop (by simp) h).cursor_bounds (by simp)
      exact hle
    · cases (hdecode rest).symm.trans h
      exact Nat.zero_le _

/-- SBDecode that an END ended reads no token past the cursor it reports (R144). -/
theorem sbDecode_of_agree {toks toks' : List Word} {out : Bytes} {c : Nat} (h : sbDecode toks = (.ok, out, c))
    (hc : c < toks.length) (hagree : ∀ k < c, toks'[k]? = toks[k]?) : sbDecode toks' = (.ok, out, c) := by
  cases toks with
  | nil => cases h
  | cons tok rest =>
    obtain ⟨prog, -, hdecode⟩ | ⟨-, hdecode⟩ := header_cases tok
    · rw [hdecode] at h
      have hloop := loopRun_of_rawLoop (by simp) h
      obtain ⟨hpos, -⟩ := hloop.cursor_bounds (by simp)
      have hhead : toks'[0]? = some tok := hagree 0 hpos
      obtain ⟨rest', rfl⟩ : ∃ rest', toks' = tok :: rest' := by
        cases toks' with
        | nil => cases hhead
        | cons tok' rest' => exact ⟨rest', by rw [Option.some.inj hhead]⟩
      rw [hdecode]
      exact (hloop.of_agree rfl hc hagree).rawLoop_eq (by simp)
    · cases (hdecode rest).symm.trans h

/-! ### The engine's run is SBDecode -/

theorem length_inputTokens (s : State) : (inputTokens s).length = tokenCount s.sbdLatch.srcLen :=
  length_tokensFrom s 0 _

theorem getElem?_inputTokens (s : State) (k : Nat) :
    (inputTokens s)[k]? = if k < tokenCount s.sbdLatch.srcLen then some (tokenAt s k) else none := by
  rw [inputTokens, getElem?_tokensFrom, Nat.zero_add]

/-- The engine's turns do not change its tokens. -/
theorem inputTokens_withInt (s : State) (i : SbdInternal) : inputTokens { s with sbdInt := i } = inputTokens s :=
  tokensFrom_congr (s := s) (t := { s with sbdInt := i }) rfl rfl _ _

/-- A running SBD with nothing else to happen, and an input that lies in SYS (R58). -/
structure LeftAlone (s : State) : Prop where
  busy : s.sbd.busy = true
  idle : s.bcd.busy = false
  quiet : s.agenda = []
  fits : (sbdInput s.sbdLatch).wraps = false

/-- The engine's turns do not take a state out of `LeftAlone`: they change its internals alone. -/
theorem LeftAlone.withInt {s : State} (h : LeftAlone s) (i : SbdInternal) : LeftAlone { s with sbdInt := i } :=
  ⟨h.busy, h.idle, h.quiet, h.fits⟩

theorem LeftAlone.step_eq_runSbd {s : State} (h : LeftAlone s) : step s = runSbd s :=
  (step_of_agenda_nil h.quiet).trans (runAlone_of_sbd_busy h.busy)

theorem LeftAlone.step_eq_sbdStep {s : State} (h : LeftAlone s) : step s = sbdStep s :=
  h.step_eq_runSbd.trans (runSbd_of_busy h.busy)

/-- From `s` the loop ends within `bound` turns, with this status, text and cursor, and any longer run is the completion
after it. -/
def EndsWithin (s : State) (bound : Nat) (st : Status) (out : Bytes) (c : Nat) : Prop :=
  ∃ i : SbdInternal, i.text = out ∧ loopExit i = some (st, c) ∧
    ∀ m, bound ≤ m → Sys2Proof.core.run (m + 1) s = runSbd { s with sbdInt := i }

/-- A run of a machine whose first step is refused. -/
theorem run_of_step_refused (M : Host.Core) {k : Nat} {s : M.State} {r : M.Refusal} (h : M.step s = .refused r) :
    M.run (k + 1) s = .refused r := by
  simp only [Host.Core.run, h]

/-- The step after the loop is the completion, and nothing happens after that. -/
theorem LeftAlone.run_of_ended {s : State} (h : LeftAlone s) {st : Status} {c : Nat}
    (hx : loopExit s.sbdInt = some (st, c)) (m : Nat) : Sys2Proof.core.run (m + 1) s = runSbd s := by
  have hstep := h.step_eq_runSbd
  rw [runSbd_of_ended h.busy h.fits hx] at hstep ⊢
  cases hfin : sbdFinish st c s with
  | next t =>
    obtain ⟨rfl, -⟩ := sbdFinish_next hfin
    rw [core_run_of_step (hstep.trans hfin)]
    exact core_run_idle (s := sbdComplete st c s) rfl h.idle h.quiet m
  | fault r => cases r
  | refused r => exact run_of_step_refused Sys2Proof.core (hstep.trans hfin)

theorem LeftAlone.endsWithin_of_ended {s : State} (h : LeftAlone s) {st : Status} {c : Nat}
    (hx : loopExit s.sbdInt = some (st, c)) (bound : Nat) : EndsWithin s bound st s.sbdInt.text c :=
  ⟨s.sbdInt, rfl, hx, fun m _ => h.run_of_ended hx m⟩

/-- A turn of the loop, then the rest of it. -/
theorem endsWithin_of_step {s : State} {i : SbdInternal} {rest bound : Nat} {st : Status} {out : Bytes} {c : Nat}
    (hstep : step s = .next { s with sbdInt := i }) (hrest : EndsWithin { s with sbdInt := i } rest st out c)
    (hbound : rest < bound) : EndsWithin s bound st out c := by
  obtain ⟨j, htext, hx, hrun⟩ := hrest
  refine ⟨j, htext, hx, fun m hm => ?_⟩
  obtain ⟨m, rfl⟩ := Nat.exists_eq_add_one_of_ne_zero (show m ≠ 0 by omega)
  rw [core_run_of_step hstep]
  exact hrun m (by omega)

/-- An SBD past its header, its loop not ended. -/
structure InLoop (s : State) : Prop extends LeftAlone s where
  count : s.sbdInt.n = tokenCount s.sbdLatch.srcLen
  running : s.sbdInt.ended = none
  pastHeader : 0 < s.sbdInt.cur
  cursor : s.sbdInt.cur ≤ s.sbdInt.n

section
variable {s : State} (h : InLoop s)
include h

theorem InLoop.length_eq : (inputTokens s).length = s.sbdInt.n :=
  (length_inputTokens s).trans h.count.symm

/-- Past the last token the loop ends with OK (R146). -/
theorem InLoop.loopExit_of_past (hpast : s.sbdInt.n ≤ s.sbdInt.cur) :
    loopExit s.sbdInt = some (.ok, s.sbdInt.cur) := by
  have hpos := h.pastHeader
  have hle := h.cursor
  rw [loopExit, h.running, if_neg (by simp), if_neg (by omega), if_neg (by omega)]

/-- The tokens fetched after the one at the cursor are those of the stream. -/
theorem InLoop.followsAt : FollowsAt (inputTokens s) s.sbdInt.cur (fetchedRest s) := by
  intro k hk
  rw [fetchedRest, getElem?_tokensFrom, getElem?_inputTokens, ← h.count]
  exact if_congr (by omega) rfl rfl

/-- A turn emits a rendering that is R129's reading of the token at the cursor. -/
theorem InLoop.turn {tok : Word} (hget : (inputTokens s)[s.sbdInt.cur]? = some tok) :
    ∃ r : Rendered,
      r.decoded = decodedAt (inputTokens s) (s.sbdInt.major, s.sbdInt.minor) s.sbdInt.cur tok ∧
      step s = .next (turnOf (tok.extractLsb' 0 16).toNat (emit r s)) := by
  rw [getElem?_inputTokens, ← h.count] at hget
  obtain ⟨hlt, htok⟩ := Option.ite_none_right_eq_some.1 hget
  obtain rfl := Option.some.inj htok
  refine ⟨_, decoded_renderOpcode h.followsAt rfl _, ?_⟩
  rw [h.step_eq_sbdStep, sbdStep_stream h.fits (loopExit_running h.running (by omega) (.inr hlt)) h.pastHeader]
  exact exec_decodeOpcode rfl _ _ s

/-- A turn at a truncated instruction cuts the text off and ends the loop (R143). -/
theorem InLoop.turn_of_truncated {tok : Word} {part : Bytes}
    (hget : (inputTokens s)[s.sbdInt.cur]? = some tok)
    (hd : decodedAt (inputTokens s) (s.sbdInt.major, s.sbdInt.minor) s.sbdInt.cur tok = .truncated part) :
    ∃ ops, step s = .next (s.cutOff ops part) := by
  obtain ⟨r, hr, hstep⟩ := h.turn hget
  rw [hd] at hr
  have hend : (tok.extractLsb' 0 16).toNat ≠ 65535 := fun hend => by
    obtain ⟨hlt, -⟩ := List.getElem?_eq_some_iff.1 hget
    have hspans := decodedAt_spans hend (s.sbdInt.major, s.sbdInt.minor) hlt
    rw [hd] at hspans
    exact absurd hspans (Nat.not_lt.2 hlt)
  cases r with
  | done => cases hr
  | truncated ops part' =>
    cases hr
    exact ⟨ops, by rw [hstep, turnOf, if_neg hend]; rfl⟩

/-- A turn at a complete instruction prints it and passes its tokens; END also ends the loop (R144, R147). -/
theorem InLoop.turn_of_done {tok : Word} {lines : Bytes} {used : Nat}
    (hget : (inputTokens s)[s.sbdInt.cur]? = some tok)
    (hd : decodedAt (inputTokens s) (s.sbdInt.major, s.sbdInt.minor) s.sbdInt.cur tok = .done lines used) :
    ∃ ops, step s = .next (turnOf (tok.extractLsb' 0 16).toNat (s.printed ops lines used)) := by
  obtain ⟨r, hr, hstep⟩ := h.turn hget
  rw [hd] at hr
  cases r with
  | truncated => cases hr
  | done ops lines' used' =>
    cases hr
    exact ⟨ops, hstep⟩

/-- A printed instruction with its tokens in the stream leaves the SBD in its loop. -/
theorem InLoop.printed {ops : List Bytes} {lines : Bytes} {used : Nat} (hle : s.sbdInt.cur + used ≤ s.sbdInt.n) :
    InLoop (s.printed ops lines used) where
  toLeftAlone := h.withInt _
  count := h.count
  running := h.running
  pastHeader := Nat.add_pos_left h.pastHeader _
  cursor := hle

end

/-- The engine's loop is R129's, turn by turn. -/
theorem InLoop.endsWithin {s : State} (h : InLoop s) {st : Status} {out : Bytes} {c : Nat}
    (hloop : LoopRun (inputTokens s) (s.sbdInt.major, s.sbdInt.minor) s.sbdInt.cur s.sbdInt.text st out c) :
    EndsWithin s (s.sbdInt.n - s.sbdInt.cur) st out c := by
  generalize htoks : inputTokens s = toks at hloop
  generalize hversion : (s.sbdInt.major, s.sbdInt.minor) = version at hloop
  generalize hcur : s.sbdInt.cur = cur at hloop
  generalize htext : s.sbdInt.text = text at hloop
  induction hloop generalizing s with
  | past hpast =>
    subst htoks hversion hcur htext
    rw [h.length_eq] at hpast
    exact h.endsWithin_of_ended (h.loopExit_of_past hpast) _
  | cut hget hd =>
    subst htoks hversion hcur htext
    obtain ⟨hlt, -⟩ := List.getElem?_eq_some_iff.1 hget
    rw [h.length_eq] at hlt ⊢
    obtain ⟨ops, hstep⟩ := h.turn_of_truncated hget hd
    exact endsWithin_of_step hstep ((h.withInt _).endsWithin_of_ended rfl 0) (by omega)
  | finish hget hend hd =>
    subst htoks hversion hcur htext
    obtain ⟨hlt, -⟩ := List.getElem?_eq_some_iff.1 hget
    rw [h.length_eq] at hlt
    obtain ⟨ops, hstep⟩ := h.turn_of_done hget hd
    rw [turnOf, if_pos hend] at hstep
    exact endsWithin_of_step hstep ((h.withInt _).endsWithin_of_ended rfl 0) (by omega)
  | turn hget hend hd hrest ih =>
    subst htoks hversion hcur htext
    obtain ⟨-, hused, hle⟩ := spans_of_done hget hd
    rw [h.length_eq] at hle
    obtain ⟨ops, hstep⟩ := h.turn_of_done hget hd
    rw [turnOf, if_neg hend] at hstep
    exact endsWithin_of_step hstep (ih (h.printed hle) (inputTokens_withInt s _) rfl rfl rfl) (by simp; omega)

/-- After its header a started SBD is in its loop, at cursor 1. -/
theorem SbdStarted.inLoop_emitHeader {s : State} (hs : SbdStarted s) (h : LeftAlone s)
    (hn : 0 < tokenCount s.sbdLatch.srcLen) (prog : String) (major minor : BitVec 8) :
    InLoop (emitHeader prog major minor s) where
  toLeftAlone := h.withInt _
  count := congrArg SbdInternal.n hs.fresh
  running := congrArg SbdInternal.ended hs.fresh
  pastHeader := Nat.one_pos
  cursor := hn.trans_eq (congrArg SbdInternal.n hs.fresh).symm

/-- After its header the engine runs R129's loop from cursor 1 and the header line. -/
theorem SbdStarted.endsWithin_emitHeader {s : State} (hs : SbdStarted s) (h : LeftAlone s)
    (hn : 0 < tokenCount s.sbdLatch.srcLen) {prog : String} {tok : Word} {st : Status} {out : Bytes} {c : Nat}
    (hloop : LoopRun (inputTokens s) (headerVersion tok) 1 (headerLine prog tok) st out c) :
    EndsWithin (emitHeader prog (headerVersion tok).1 (headerVersion tok).2 s) (s.sbdInt.n - 1) st out c := by
  have hline : s.sbdInt.text ++ headerLine prog tok = headerLine prog tok := by
    rw [hs.fresh]
    rfl
  rw [← hline] at hloop
  refine (hs.inLoop_emitHeader h hn prog (headerVersion tok).1 (headerVersion tok).2).endsWithin ?_
  exact (inputTokens_withInt s _).symm ▸ hloop

/-- The engine's run of a started command is SBDecode of its tokens. -/
theorem SbdStarted.endsWithin {s : State} (hs : SbdStarted s) (hw : (sbdInput s.sbdLatch).wraps = false)
    {st : Status} {out : Bytes} {c : Nat} (hdecode : sbDecode (inputTokens s) = (st, out, c)) :
    EndsWithin s (tokenCount s.sbdLatch.srcLen) st out c := by
  have h : LeftAlone s := ⟨hs.busy, hs.alone, hs.quiet, hw⟩
  have hcount : s.sbdInt.n = tokenCount s.sbdLatch.srcLen := congrArg SbdInternal.n hs.fresh
  have htext : s.sbdInt.text = [] := congrArg SbdInternal.text hs.fresh
  have hcur : s.sbdInt.cur = 0 := congrArg SbdInternal.cur hs.fresh
  have hrunning : s.sbdInt.ended = none := congrArg SbdInternal.ended hs.fresh
  cases hn : tokenCount s.sbdLatch.srcLen with
  | zero =>
    have hx : loopExit s.sbdInt = some (.insufficientData, 0) := by
      rw [hs.fresh, hn]
      rfl
    rw [inputTokens, hn] at hdecode
    cases hdecode
    exact htext ▸ h.endsWithin_of_ended hx 0
  | succ count =>
    have htoks : inputTokens s = tokenAt s 0 :: tokensFrom s 1 count := by
      rw [inputTokens, hn]
      rfl
    have hx : loopExit s.sbdInt = none := loopExit_running hrunning (by omega) (.inl hcur)
    have hstep := h.step_eq_sbdStep.trans (sbdStep_header hw hx hcur)
    rw [htoks] at hdecode
    obtain ⟨prog, hexec, hloop⟩ | ⟨hexec, hrejected⟩ := header_cases (tokenAt s 0)
    · rw [hexec] at hstep
      rw [hloop] at hdecode
      have hrun := loopRun_of_rawLoop (by simp) hdecode
      rw [← htoks] at hrun
      exact endsWithin_of_step hstep (hs.endsWithin_emitHeader h (by omega) hrun) (by omega)
    · rw [hexec] at hstep
      cases (hrejected _).symm.trans hdecode
      have hended := (h.withInt { s.sbdInt with ended := some (.unsupportedFormat, 0) }).endsWithin_of_ended rfl 0
      rw [htext] at hended
      exact endsWithin_of_step hstep hended (by omega)

/-- Settles O28: the run is SBDecode and then the completion, which is O27's. -/
theorem shaderCommand : Obligations.ShaderCommand := by
  intro s st text c m hs hdecode hlen hlegal
  obtain ⟨hin, -⟩ := hlegal.fits
  obtain ⟨i, rfl, hx, hrun⟩ := hs.endsWithin (Extent.wraps_eq_false.2 hin) hdecode
  obtain ⟨t, ht, hregs, hinside, houtside, hbcd, -⟩ :=
    shaderCompletion { s with sbdInt := i } st c m hs.busy hs.mem hx hlen hlegal
  exact ⟨t, (hrun _ le_rfl).trans ht, hregs, hinside, houtside, hbcd⟩

/-- All that a started command's run to its completion can answer: what SBDecode names. -/
theorem SbdStarted.run_next {s t : State} (hs : SbdStarted s)
    (hrun : Sys2Proof.core.run (tokenCount s.sbdLatch.srcLen + 1) s = .next t) :
    ∃ st c, sbDecode (inputTokens s) = (st, t.sbdInt.text, c) ∧ t.sbd.err = st ∧
      t.sbd.cursor = BitVec.ofNat 32 c ∧ t.sbd.outLen = BitVec.ofNat 32 t.sbdInt.text.length ∧ t.sbd.done = true := by
  cases hw : (sbdInput s.sbdLatch).wraps with
  | true =>
    have hstep : step s = .refused .inputRangeWraps :=
      ((step_of_agenda_nil hs.quiet).trans (runAlone_of_sbd_busy hs.busy)).trans (runSbd_of_input_wraps hs.busy hw)
    cases (run_of_step_refused Sys2Proof.core hstep).symm.trans hrun
  | false =>
    obtain ⟨⟨st, out, c⟩, hdecode⟩ : ∃ result, sbDecode (inputTokens s) = result := ⟨_, rfl⟩
    obtain ⟨i, rfl, hx, hends⟩ := hs.endsWithin hw hdecode
    have hfinish := (runSbd_of_ended (s := { s with sbdInt := i }) hs.busy hw hx).symm.trans
      ((hends _ le_rfl).symm.trans hrun)
    obtain ⟨rfl, -⟩ := sbdFinish_next hfinish
    exact ⟨st, c, hdecode, rfl, rfl, rfl, rfl⟩

/-- Settles O29: both runs are SBDecode, which reads no token past the END. -/
theorem tokensAfterEnd : Obligations.TokensAfterEnd := by
  intro s s' t c m hs hs' hrun hok hc hlt hle hagree hlen hlegal
  obtain ⟨st, c₀, hdecode, herr, hcursor, houtLen, -⟩ := hs.run_next hrun
  obtain rfl : st = .ok := herr.symm.trans hok
  have hbound : c₀ ≤ tokenCount s.sbdLatch.srcLen := length_inputTokens s ▸ sbDecode_cursor_le hdecode
  have hsmall : tokenCount s.sbdLatch.srcLen < 2 ^ 32 := (Nat.div_le_self _ 4).trans_lt s.sbdLatch.srcLen.isLt
  obtain rfl : c = c₀ := by
    rw [hc, hcursor, BitVec.toNat_ofNat, Nat.mod_eq_of_lt (by omega)]
  have htokens : ∀ k < c, (inputTokens s')[k]? = (inputTokens s)[k]? := fun k hk => by
    rw [getElem?_inputTokens, getElem?_inputTokens, if_pos (by omega), if_pos (by omega), hagree k hk]
  have hdecode' := sbDecode_of_agree hdecode (by rwa [length_inputTokens]) htokens
  obtain ⟨t', hrun', -, hinside, -, -⟩ := shaderCommand s' .ok t.sbdInt.text c m hs' hdecode' hlen hlegal
  obtain ⟨st', c', hnamed, herr', hcursor', houtLen', hdone'⟩ := hs'.run_next hrun'
  obtain ⟨hst', htext', hc'⟩ : Status.ok = st' ∧ t.sbdInt.text = t'.sbdInt.text ∧ c = c' := by
    simpa using hdecode'.symm.trans hnamed
  refine ⟨t', hrun', hdone', herr'.trans hst'.symm, ?_, htext'.symm, ?_, hinside⟩
  · rw [hcursor', hcursor, hc']
  · rw [houtLen', houtLen, htext']

end Sys2Proof.Machine

/-! Settles the statements about the shader's arithmetic and bare instructions (43_shader_arith.md R153 to R184,
44_shader_flow.md R188, R189, R192, 45_shader_special.md R204): each row of R91 decodes from its tokens and runs
DecodeGeneric (42_shader_stream.md R137). -/

namespace Sys2Proof.Machine

/-! ### DecodeGeneric, complete and truncated -/

/-- A text followed by sources, a comma before each. -/
def appendSources (text : Bytes) (srcs : List SrcOp) : Bytes :=
  srcs.foldl (fun text a => text ++ ascii ", " ++ srcop a) text

theorem append_joinComma_cons (text first : Bytes) (srcs : List SrcOp) :
    text ++ joinComma (first :: srcs.map srcop) = appendSources (text ++ first) srcs := by
  induction srcs generalizing text first with
  | nil => rfl
  | cons a srcs ih =>
    calc
      text ++ joinComma (first :: srcop a :: srcs.map srcop)
        = (text ++ first ++ ascii ", ") ++ joinComma (srcop a :: srcs.map srcop) := by simp [joinComma]
      _ = appendSources (text ++ first) (a :: srcs) := ih ..

/-- The operand list of R137 after a body, operand by operand. -/
theorem append_opsuffix_cons (body first : Bytes) (srcs : List SrcOp) :
    body ++ opsuffix (first :: srcs.map srcop) = appendSources (body ++ ascii " " ++ first) srcs := by
  rw [opsuffix, if_neg (List.cons_ne_nil _ _), ← List.append_assoc, append_joinComma_cons]

section
variable (name : String) (op hi : BitVec 16) (s : State)

/-- Neither destination nor sources: the mnemonic alone. -/
theorem generic_bare : generic name op hi none [] s = .next (s.printed [] (mkline (ascii name) (opTok hi op)) 1) := by
  have hline : ascii name ++ opsuffix [] = ascii name := List.append_nil _
  rw [generic, renderGeneric, renderSources, emit_done, hline]

/-- A destination and every source are there (R137, R141). -/
theorem generic_printed (d : DstOp) (srcs : List SrcOp) :
    generic name op hi (some (some d)) (srcs.map some) s =
      .next (s.printed (dstop d :: srcs.map srcop)
        (mkline (appendSources (ascii name ++ dstmods d.mods ++ ascii " " ++ dstop d) srcs) (opTok hi op))
        (2 + srcs.length)) := by
  rw [generic, renderGeneric, renderSources_done, List.singleton_append, append_opsuffix_cons, emit_done]

/-- The tokens run out after the destination and the sources that are there (R143). -/
theorem generic_cutOff_source (d : DstOp) (srcs : List SrcOp) (missing : List (Option SrcOp)) :
    generic name op hi (some (some d)) (srcs.map some ++ none :: missing) s =
      .next (s.cutOff (dstop d :: srcs.map srcop)
        (appendSources (ascii name ++ dstmods d.mods ++ ascii " " ++ dstop d) srcs)) := by
  rw [generic, renderGeneric, renderSources_truncated, List.singleton_append, append_opsuffix_cons, emit_truncated]

/-- The tokens run out before the destination (R143). -/
theorem generic_cutOff_dst (srcs : List (Option SrcOp)) :
    generic name op hi (some none) srcs s = .next (s.cutOff [] (ascii name)) := rfl

end

/-! ### The rows of R91

Row by row: the opcode selects its line of the decoder, and running the instruction it names is DecodeGeneric under the
row's mnemonic and opcode. -/

theorem decode_bareRow {row : String × BitVec 16 × (BitVec 16 → Instr)} (hrow : row ∈ bareRows)
    (major minor : BitVec 8) (hi : BitVec 16) (rest : List Word) :
    decode (.stream major minor) (opTok hi row.2.1 :: rest) = .ok (row.2.2 hi, rest) := by
  refine congrArg Except.ok ?_
  unfold decodeOpcode
  rw [opTok_opcode, opTok_hi]
  fin_cases hrow <;> rfl

theorem exec_bareRow {row : String × BitVec 16 × (BitVec 16 → Instr)} (hrow : row ∈ bareRows) (hi : BitVec 16)
    (s : State) : exec (row.2.2 hi) s = generic row.1 row.2.1 hi none [] s := by
  fin_cases hrow <;> rfl

theorem decode_unaryRow {row : String × BitVec 16 × (BitVec 16 → Option DstOp → Option SrcOp → Instr)}
    (hrow : row ∈ unaryRows) (major minor : BitVec 8) (hi : BitVec 16) (rest : List Word) :
    decode (.stream major minor) (opTok hi row.2.1 :: rest) =
      .ok (row.2.2 hi (dstAt rest 0) (srcAt rest 1), rest.drop 2) := by
  refine congrArg Except.ok ?_
  unfold decodeOpcode
  rw [opTok_opcode, opTok_hi]
  fin_cases hrow <;> rfl

theorem exec_unaryRow {row : String × BitVec 16 × (BitVec 16 → Option DstOp → Option SrcOp → Instr)}
    (hrow : row ∈ unaryRows) (hi : BitVec 16) (d : Option DstOp) (a : Option SrcOp) (s : State) :
    exec (row.2.2 hi d a) s = generic row.1 row.2.1 hi (some d) [a] s := by
  fin_cases hrow <;> rfl

theorem decode_binaryRow
    {row : String × BitVec 16 × (BitVec 16 → Option DstOp → Option SrcOp → Option SrcOp → Instr)}
    (hrow : row ∈ binaryRows ++ matrixRows) (major minor : BitVec 8) (hi : BitVec 16) (rest : List Word) :
    decode (.stream major minor) (opTok hi row.2.1 :: rest) =
      .ok (row.2.2 hi (dstAt rest 0) (srcAt rest 1) (srcAt rest 2), rest.drop 3) := by
  refine congrArg Except.ok ?_
  unfold decodeOpcode
  rw [opTok_opcode, opTok_hi]
  fin_cases hrow <;> rfl

theorem exec_binaryRow
    {row : String × BitVec 16 × (BitVec 16 → Option DstOp → Option SrcOp → Option SrcOp → Instr)}
    (hrow : row ∈ binaryRows ++ matrixRows) (hi : BitVec 16) (d : Option DstOp) (a b : Option SrcOp) (s : State) :
    exec (row.2.2 hi d a b) s = generic row.1 row.2.1 hi (some d) [a, b] s := by
  fin_cases hrow <;> rfl

theorem decode_ternaryRow
    {row : String × BitVec 16 ×
      (BitVec 16 → Option DstOp → Option SrcOp → Option SrcOp → Option SrcOp → Instr)}
    (hrow : row ∈ ternaryRows) (major minor : BitVec 8) (hi : BitVec 16) (rest : List Word) :
    decode (.stream major minor) (opTok hi row.2.1 :: rest) =
      .ok (row.2.2 hi (dstAt rest 0) (srcAt rest 1) (srcAt rest 2) (srcAt rest 3), rest.drop 4) := by
  refine congrArg Except.ok ?_
  unfold decodeOpcode
  rw [opTok_opcode, opTok_hi]
  fin_cases hrow <;> rfl

theorem exec_ternaryRow
    {row : String × BitVec 16 ×
      (BitVec 16 → Option DstOp → Option SrcOp → Option SrcOp → Option SrcOp → Instr)}
    (hrow : row ∈ ternaryRows) (hi : BitVec 16) (d : Option DstOp) (a b c : Option SrcOp) (s : State) :
    exec (row.2.2 hi d a b c) s = generic row.1 row.2.1 hi (some d) [a, b, c] s := by
  fin_cases hrow <;> rfl

/-! ### Each form's tokens and what it leaves -/

/-- Settles O13: the row decodes from its one token and runs DecodeGeneric without operands. -/
theorem bareInstructions : Obligations.BareInstructions := fun _ hrow major minor hi rest s =>
  ⟨decode_bareRow hrow major minor hi rest, (exec_bareRow hrow hi s).trans (generic_bare ..)⟩

/-- Settles O15: complete, without its source, without its destination. -/
theorem unaryInstructions : Obligations.UnaryInstructions := by
  intro row hrow major minor hi td ta rest s
  have hdecode := decode_unaryRow hrow major minor hi
  have hexec := fun d a => exec_unaryRow hrow hi d a s
  exact ⟨hdecode (td :: ta :: rest), hdecode [td], hdecode [],
    fun d a => (hexec ..).trans (generic_printed _ _ hi s d [a]),
    fun d => (hexec ..).trans (generic_cutOff_source _ _ hi s d [] []),
    (hexec ..).trans (generic_cutOff_dst ..)⟩

/-- The arithmetic rows of two sources and the matrix rows have one shape. -/
theorem binaryInstructions_and_matrixInstructions :
    Obligations.BinaryInstructions ∧ Obligations.MatrixInstructions := by
  constructor
  all_goals
    intro row hmem major minor hi td ta tb rest s
    have hrow : row ∈ binaryRows ++ matrixRows := by simp [hmem]
    have hdecode := decode_binaryRow hrow major minor hi
    have hexec := fun d a b => exec_binaryRow hrow hi d a b s
    exact ⟨hdecode (td :: ta :: tb :: rest), hdecode [td, ta], hdecode [td], hdecode [],
      fun d a b => (hexec ..).trans (generic_printed _ _ hi s d [a, b]),
      fun d a => (hexec ..).trans (generic_cutOff_source _ _ hi s d [a] []),
      fun d => (hexec ..).trans (generic_cutOff_source _ _ hi s d [] [none]),
      (hexec ..).trans (generic_cutOff_dst ..)⟩

/-- Settles O16, with the shape it shares with the matrix rows. -/
theorem binaryInstructions : Obligations.BinaryInstructions := binaryInstructions_and_matrixInstructions.1

/-- Settles O17, with the shape it shares with the arithmetic rows of two sources. -/
theorem matrixInstructions : Obligations.MatrixInstructions := binaryInstructions_and_matrixInstructions.2

/-- Settles O18: complete, without its last source and on down to no destination. -/
theorem ternaryInstructions : Obligations.TernaryInstructions := by
  intro row hrow major minor hi td ta tb tc rest s
  have hdecode := decode_ternaryRow hrow major minor hi
  have hexec := fun d a b c => exec_ternaryRow hrow hi d a b c s
  exact ⟨hdecode (td :: ta :: tb :: tc :: rest), hdecode [td, ta, tb], hdecode [td, ta], hdecode [td], hdecode [],
    fun d a b c => (hexec ..).trans (generic_printed _ _ hi s d [a, b, c]),
    fun d a b => (hexec ..).trans (generic_cutOff_source _ _ hi s d [a, b] []),
    fun d a => (hexec ..).trans (generic_cutOff_source _ _ hi s d [a] [none]),
    fun d => (hexec ..).trans (generic_cutOff_source _ _ hi s d [] [none, none]),
    (hexec ..).trans (generic_cutOff_dst ..)⟩

end Sys2Proof.Machine

/-! Settles the statement about the shader's source-only flow instructions (44_shader_flow.md R185 to R187, R190, R191):
each row of R91 decodes from its tokens and runs DecodeGeneric (42_shader_stream.md R137) without a destination. -/

namespace Sys2Proof.Machine

/-! ### DecodeGeneric without a destination, complete and truncated -/

section
variable (name : String) (op hi : BitVec 16) (s : State)

/-- Every source is there (R137, R141). -/
theorem generic_sources_printed (a : SrcOp) (srcs : List SrcOp) :
    generic name op hi none ((a :: srcs).map some) s =
      .next (s.printed ((a :: srcs).map srcop)
        (mkline (appendSources (ascii name ++ ascii " " ++ srcop a) srcs) (opTok hi op)) (1 + (a :: srcs).length)) := by
  rw [generic, renderGeneric, renderSources_done, List.nil_append, List.map_cons, append_opsuffix_cons, emit_done]

/-- The tokens run out after one or more sources (R143). -/
theorem generic_sources_cutOff (a : SrcOp) (srcs : List SrcOp) (missing : List (Option SrcOp)) :
    generic name op hi none ((a :: srcs).map some ++ none :: missing) s =
      .next (s.cutOff ((a :: srcs).map srcop) (appendSources (ascii name ++ ascii " " ++ srcop a) srcs)) := by
  rw [generic, renderGeneric, renderSources_truncated, List.nil_append, List.map_cons, append_opsuffix_cons,
    emit_truncated]

/-- The tokens run out before the first source: the mnemonic alone, its line not ended (R143). -/
theorem generic_sources_cutOff_first (missing : List (Option SrcOp)) :
    generic name op hi none (none :: missing) s = .next (s.cutOff [] (ascii name)) := by
  have htext : ascii name ++ opsuffix [] = ascii name := List.append_nil _
  rw [generic, renderGeneric, renderSources, htext, emit_truncated]

end

/-! ### The source-only rows of R91 -/

theorem decode_oneSourceRow {row : String × BitVec 16 × (BitVec 16 → Option SrcOp → Instr)}
    (hrow : row ∈ oneSourceRows) (major minor : BitVec 8) (hi : BitVec 16) (rest : List Word) :
    decode (.stream major minor) (opTok hi row.2.1 :: rest) = .ok (row.2.2 hi (srcAt rest 0), rest.drop 1) := by
  refine congrArg Except.ok ?_
  unfold decodeOpcode
  rw [opTok_opcode, opTok_hi]
  fin_cases hrow <;> rfl

theorem exec_oneSourceRow {row : String × BitVec 16 × (BitVec 16 → Option SrcOp → Instr)}
    (hrow : row ∈ oneSourceRows) (hi : BitVec 16) (a : Option SrcOp) (s : State) :
    exec (row.2.2 hi a) s = generic row.1 row.2.1 hi none [a] s := by
  fin_cases hrow <;> rfl

theorem decode_twoSourceRow {row : String × BitVec 16 × (BitVec 16 → Option SrcOp → Option SrcOp → Instr)}
    (hrow : row ∈ twoSourceRows) (major minor : BitVec 8) (hi : BitVec 16) (rest : List Word) :
    decode (.stream major minor) (opTok hi row.2.1 :: rest) =
      .ok (row.2.2 hi (srcAt rest 0) (srcAt rest 1), rest.drop 2) := by
  refine congrArg Except.ok ?_
  unfold decodeOpcode
  rw [opTok_opcode, opTok_hi]
  fin_cases hrow <;> rfl

theorem exec_twoSourceRow {row : String × BitVec 16 × (BitVec 16 → Option SrcOp → Option SrcOp → Instr)}
    (hrow : row ∈ twoSourceRows) (hi : BitVec 16) (a b : Option SrcOp) (s : State) :
    exec (row.2.2 hi a b) s = generic row.1 row.2.1 hi none [a, b] s := by
  fin_cases hrow <;> rfl

/-! ### Each form's tokens and what it leaves -/

/-- Settles O14: CALL, LABEL and REP with and without their source, CALLNZ and LOOP with both, one or no source. -/
theorem sourceOnlyInstructions : Obligations.SourceOnlyInstructions := by
  constructor
  · intro row hrow major minor hi ta rest s
    have hdecode := decode_oneSourceRow hrow major minor hi
    have hexec := fun a => exec_oneSourceRow hrow hi a s
    exact ⟨hdecode (ta :: rest), hdecode [],
      fun a => (hexec ..).trans (generic_sources_printed _ _ hi s a []),
      (hexec ..).trans (generic_sources_cutOff_first ..)⟩
  · intro row hrow major minor hi ta tb rest s
    have hdecode := decode_twoSourceRow hrow major minor hi
    have hexec := fun a b => exec_twoSourceRow hrow hi a b s
    exact ⟨hdecode (ta :: tb :: rest), hdecode [ta], hdecode [],
      fun a b => (hexec ..).trans (generic_sources_printed _ _ hi s a [b]),
      fun a => (hexec ..).trans (generic_sources_cutOff _ _ hi s a [] []),
      (hexec ..).trans (generic_sources_cutOff_first ..)⟩

end Sys2Proof.Machine

/-! Settles the statements about the header tokens and the special opcodes, the text of a DEF's literals, and that every
word decodes (45_shader_special.md R193 to R202, R205 to R208, R212). -/

namespace Sys2Proof.Machine

/-! ### Header tokens -/

section
variable {tok : Word}

theorem decodeHeader_of_ps (h : tok.extractLsb' 16 16 = 0xFFFF#16) :
    decodeHeader tok = .headerPs (tok.extractLsb' 8 8) (tok.extractLsb' 0 8) := if_pos h

theorem decodeHeader_of_vs (h : tok.extractLsb' 16 16 = 0xFFFE#16) :
    decodeHeader tok = .headerVs (tok.extractLsb' 8 8) (tok.extractLsb' 0 8) := by
  rw [decodeHeader, if_neg (by simp [h]), if_pos h]

theorem decodeHeader_of_rejected (hps : tok.extractLsb' 16 16 ≠ 0xFFFF#16) (hvs : tok.extractLsb' 16 16 ≠ 0xFFFE#16) :
    decodeHeader tok = .headerRejected tok := by
  rw [decodeHeader, if_neg hps, if_neg hvs]

theorem wellFormed_decodeHeader (tok : Word) : (decodeHeader tok).wellFormed = true := by
  by_cases hps : tok.extractLsb' 16 16 = 0xFFFF#16
  · rw [decodeHeader_of_ps hps]
    rfl
  by_cases hvs : tok.extractLsb' 16 16 = 0xFFFE#16
  · rw [decodeHeader_of_vs hvs]
    rfl
  · rw [decodeHeader_of_rejected hps hvs]
    simp [Instr.wellFormed, hps, hvs]

/-- A field's bits are a given value when its number is. -/
theorem extractLsb'_eq_iff {lo len : Nat} {v : BitVec len} : tok.extractLsb' lo len = v ↔ field tok lo len = v.toNat := by
  rw [field_eq_toNat, BitVec.toNat_inj]

theorem ofNat_field (tok : Word) (lo len : Nat) : BitVec.ofNat len (field tok lo len) = tok.extractLsb' lo len := by
  rw [field_eq_toNat, BitVec.ofNat_toNat, BitVec.setWidth_eq]

end

/-- Settles O23: bits 31:16 name the program kind, and any other value is rejected. -/
theorem headers : Obligations.Headers := by
  intro tok rest s
  refine ⟨decodeHeader tok, rfl, ?_, ?_⟩
  · intro prog hprog
    refine ⟨_, rfl, ?_⟩
    rw [ofNat_field, ofNat_field, field_eq_toNat, field_eq_toNat]
    obtain ⟨hps, rfl⟩ | ⟨hvs, rfl⟩ := hprog
    · rw [decodeHeader_of_ps (extractLsb'_eq_iff.2 hps)]
      rfl
    · rw [decodeHeader_of_vs (extractLsb'_eq_iff.2 hvs)]
      rfl
  · intro hps hvs
    rw [decodeHeader_of_rejected (mt extractLsb'_eq_iff.1 hps) (mt extractLsb'_eq_iff.1 hvs)]
    rfl

/-! ### Every word decodes -/

theorem decodeFmt_spec (fmt : BitVec 3) :
    (decodeFmt fmt).wellFormed = true ∧ Place.format.admits (decodeFmt fmt) = true := by
  revert fmt
  decide

/-- Nothing a header decodes to stops the machine. -/
theorem exec_header_next {i : Instr} (h : Place.header.admits i = true) (s : State) : ∃ t, exec i s = .next t := by
  obtain ⟨_, he, -⟩ := exec_header_frame h s
  exact ⟨_, he⟩

/-- Nothing an opcode decodes to stops the machine. -/
theorem exec_stream_next {i : Instr} {major minor : BitVec 8} (h : (Place.stream major minor).admits i = true)
    (s : State) : ∃ t, exec i s = .next t := by
  obtain ⟨_, he, -⟩ := exec_stream_frame h s
  exact ⟨_, he⟩

/-- Settles O1, place by place. -/
theorem everyWordDecodes : Obligations.EveryWordDecodes := by
  intro place tok rest
  cases place with
  | format =>
    obtain ⟨hwf, hadm⟩ := decodeFmt_spec (tok.extractLsb' 0 3)
    exact ⟨_, _, rfl, hwf, hadm, fun h => absurd rfl h⟩
  | header =>
    have hadm := admits_decodeHeader tok
    exact ⟨_, _, rfl, wellFormed_decodeHeader tok, hadm, fun _ => exec_header_next hadm⟩
  | stream major minor =>
    have hspec := decodeOpcode_spec (major, minor) tok rest
    exact ⟨_, _, rfl, hspec.wellFormed, hspec.admits, fun _ => exec_stream_next hspec.admits⟩

/-! ### The special opcodes: each selects its line of the decoder -/

section
variable (major minor : BitVec 8) (hi : BitVec 16) (rest : List Word)

theorem decode_dcl :
    decode (.stream major minor) (opTok hi 31 :: rest) = .ok (.dcl hi (declAt rest 0) (dstAt rest 1), rest.drop 2) := by
  rw [decode, decodeOpcode, opTok_opcode, opTok_hi]
  rfl

theorem decode_opcode66 :
    decode (.stream major minor) (opTok hi 66 :: rest) = .ok (decodeTex (major, minor) hi rest) := by
  rw [decode, decodeOpcode, opTok_opcode, opTok_hi]
  rfl

theorem decode_def :
    decode (.stream major minor) (opTok hi 81 :: rest) =
      .ok (.def_ hi (dstAt rest 0) rest[1]? rest[2]? rest[3]? rest[4]?, rest.drop 5) := by
  rw [decode, decodeOpcode, opTok_opcode, opTok_hi]
  rfl

theorem decode_end : decode (.stream major minor) (opTok hi 65535 :: rest) = .ok (.end_ hi, rest) := by
  rw [decode, decodeOpcode, opTok_opcode, opTok_hi]
  rfl

end

/-- Settles O22: END prints as DecodeGeneric does without operands, then the loop ends. -/
theorem endInstruction : Obligations.EndInstruction := by
  intro major minor hi rest s
  refine ⟨decode_end major minor hi rest, _, ?_, rfl⟩
  have hline := Host.Outcome.next.inj (generic_bare "END" 65535 hi s)
  exact congrArg (fun t => Host.Outcome.next (endLoop .ok t)) hline

/-- Settles O20: what `renderDcl` prints with both tokens, and without. -/
theorem declarations : Obligations.Declarations := by
  intro major minor hi tu td rest s
  have hdecode := decode_dcl major minor hi
  have hexec : ∀ u d, exec (.dcl hi u d) s = .next (emit (renderDcl (opTok hi 31) u d) s) := fun _ _ => rfl
  exact ⟨hdecode (tu :: td :: rest), hdecode [tu], hdecode [], fun u d => hexec (some u) (some d),
    fun u => hexec (some u) none, hexec none none⟩

/-! ### Opcode 66 by version -/

section
variable {major minor : BitVec 8}

theorem texForm_of_below_14 (h : major = 0 ∨ major = 1 ∧ minor.toNat < 4) : texForm (major, minor) = .tex := by
  obtain rfl | ⟨rfl, hminor⟩ := h
  · rfl
  · exact if_pos hminor

theorem texForm_of_from_14_below_2 (h : 4 ≤ minor.toNat) : texForm (1, minor) = .texld14 :=
  if_neg (Nat.not_lt.2 h)

theorem texForm_of_from_2 (h : 2 ≤ major.toNat) : texForm (major, minor) = .texld20 := by
  have h0 : major ≠ 0 := by
    rintro rfl
    exact absurd h (by decide)
  have h1 : major ≠ 1 := by
    rintro rfl
    exact absurd h (by decide)
  rw [texForm, if_neg h0, if_neg h1]

variable (hi : BitVec 16) (rest : List Word)

theorem decode_tex (h : texForm (major, minor) = .tex) :
    decode (.stream major minor) (opTok hi 66 :: rest) = .ok (.tex hi (dstAt rest 0), rest.drop 1) := by
  rw [decode_opcode66, decodeTex, h]

theorem decode_texld14 (h : texForm (major, minor) = .texld14) :
    decode (.stream major minor) (opTok hi 66 :: rest) =
      .ok (.texld14 hi (dstAt rest 0) (srcAt rest 1), rest.drop 2) := by
  rw [decode_opcode66, decodeTex, h]

theorem decode_texld20 (h : texForm (major, minor) = .texld20) :
    decode (.stream major minor) (opTok hi 66 :: rest) =
      .ok (.texld20 hi (dstAt rest 0) (srcAt rest 1) (srcAt rest 2), rest.drop 3) := by
  rw [decode_opcode66, decodeTex, h]

end

/-- Settles O19: the version selects the form, and each form is DecodeGeneric under its mnemonic. -/
theorem textureInstructions : Obligations.TextureInstructions := by
  intro hi td ta tb rest s
  have htex : ∀ d, exec (.tex hi d) s = generic "TEX" 66 hi (some d) [] s := fun _ => rfl
  have htexld14 : ∀ d a, exec (.texld14 hi d a) s = generic "TEXLD" 66 hi (some d) [a] s := fun _ _ => rfl
  have htexld20 : ∀ d a b, exec (.texld20 hi d a b) s = generic "TEXLD" 66 hi (some d) [a, b] s := fun _ _ _ => rfl
  refine ⟨fun major minor hversion => ?_, fun minor hversion => ?_, fun major minor hversion => ?_,
    fun d => (htex _).trans (generic_printed _ _ hi s d []),
    (htex _).trans (generic_cutOff_dst ..),
    fun d a => (htexld14 ..).trans (generic_printed _ _ hi s d [a]),
    fun d => (htexld14 ..).trans (generic_cutOff_source _ _ hi s d [] []),
    (htexld14 ..).trans (generic_cutOff_dst ..),
    fun d a b => (htexld20 ..).trans (generic_printed _ _ hi s d [a, b]),
    fun d a => (htexld20 ..).trans (generic_cutOff_source _ _ hi s d [a] []),
    fun d => (htexld20 ..).trans (generic_cutOff_source _ _ hi s d [] [none]),
    (htexld20 ..).trans (generic_cutOff_dst ..)⟩
  · have hdecode := fun rest => decode_tex hi rest (texForm_of_below_14 hversion)
    exact ⟨hdecode (td :: rest), hdecode []⟩
  · have hdecode := fun rest => decode_texld14 hi rest (texForm_of_from_14_below_2 hversion)
    exact ⟨hdecode (td :: ta :: rest), hdecode [td], hdecode []⟩
  · have hdecode := fun rest => decode_texld20 hi rest (texForm_of_from_2 (minor := minor) hversion)
    exact ⟨hdecode (td :: ta :: tb :: rest), hdecode [td, ta], hdecode [td], hdecode []⟩

/-! ### DecodeDEF, complete and truncated -/

/-- A text followed by literals, a comma before each. -/
def appendLiterals (text : Bytes) (literals : List Word) : Bytes :=
  literals.foldl (fun text x => text ++ ascii ", " ++ floatText x) text

/-- Literals that are all there: each printed, one token each. -/
theorem renderLiterals_done (tok : Word) (ops : List Bytes) (body : Bytes) (used : Nat) (literals : List Word) :
    renderLiterals tok ops body used (literals.map some) =
      .done (ops ++ literals.map floatText) (mkline (appendLiterals body literals) tok) (used + literals.length) := by
  induction literals generalizing ops body used with
  | nil => simp [renderLiterals, appendLiterals]
  | cons x literals ih => simp [renderLiterals, appendLiterals, ih, Nat.add_assoc, Nat.add_comm 1]

/-- A literal that is missing: what is there before it is printed. -/
theorem renderLiterals_truncated (tok : Word) (ops : List Bytes) (body : Bytes) (used : Nat) (literals : List Word)
    (missing : List (Option Word)) :
    renderLiterals tok ops body used (literals.map some ++ none :: missing) =
      .truncated (ops ++ literals.map floatText) (appendLiterals body literals) := by
  induction literals generalizing ops body used with
  | nil => simp [renderLiterals, appendLiterals]
  | cons x literals ih => simp [renderLiterals, appendLiterals, ih]

section
variable (tok : Word) (d : DstOp) (literals : List Word) (s : State)

/-- The destination and every literal are there (R201, R141). -/
theorem emit_renderDef_printed :
    emit (renderDef tok (some d) (literals.map some)) s =
      s.printed (regname d.reg d.num :: literals.map floatText)
        (mkline (appendLiterals (ascii "DEF" ++ ascii " " ++ regname d.reg d.num) literals) tok)
        (2 + literals.length) := by
  rw [renderDef, renderLiterals_done, List.singleton_append, emit_done]

/-- The tokens run out after the destination and the literals that are there (R143). -/
theorem emit_renderDef_cutOff (missing : List (Option Word)) :
    emit (renderDef tok (some d) (literals.map some ++ none :: missing)) s =
      s.cutOff (regname d.reg d.num :: literals.map floatText)
        (appendLiterals (ascii "DEF" ++ ascii " " ++ regname d.reg d.num) literals) := by
  rw [renderDef, renderLiterals_truncated, List.singleton_append, emit_truncated]

end

/-- Settles O21: complete, without its last literal and on down to no destination. -/
theorem definitions : Obligations.Definitions := by
  intro major minor hi td f0 f1 f2 f3 rest s
  have hdecode := decode_def major minor hi
  have hexec : ∀ d g0 g1 g2 g3, exec (.def_ hi d g0 g1 g2 g3) s =
      .next (emit (renderDef (opTok hi 81) d [g0, g1, g2, g3]) s) := fun _ _ _ _ _ => rfl
  have hprinted := fun d literals =>
    congrArg (.next : State → Result) (emit_renderDef_printed (opTok hi 81) d literals s)
  have hcutOff := fun d literals missing =>
    congrArg (.next : State → Result) (emit_renderDef_cutOff (opTok hi 81) d literals s missing)
  exact ⟨hdecode (td :: f0 :: f1 :: f2 :: f3 :: rest), hdecode [td, f0, f1, f2], hdecode [td, f0, f1],
    hdecode [td, f0], hdecode [td], hdecode [], hexec none none none none none,
    fun d => ⟨_, rfl,
      (hexec ..).trans (hprinted d [f0, f1, f2, f3]),
      (hexec ..).trans (hcutOff d [f0, f1, f2] []),
      (hexec ..).trans (hcutOff d [f0, f1] [none]),
      (hexec ..).trans (hcutOff d [f0] [none, none]),
      (hexec ..).trans (hcutOff d [] [none, none, none])⟩⟩

/-! ### The text of a literal -/

/-- A natural nearest to a rational, the even one of a tie (R202). -/
def NearestEven (q : ℕ) (v : ℚ) : Prop := |(q : ℚ) - v| ≤ 1 / 2 ∧ (|(q : ℚ) - v| = 1 / 2 → q % 2 = 0)

theorem nearestEven_self (q : ℕ) : NearestEven q q := by simp [NearestEven]

/-- Nearer than a half there is no tie. -/
theorem nearestEven_of_abs_lt {q : ℕ} {v : ℚ} (h : |(q : ℚ) - v| < 1 / 2) : NearestEven q v :=
  ⟨h.le, fun heq => absurd heq h.ne⟩

theorem nearestEven_of_even {q : ℕ} {v : ℚ} (h : |(q : ℚ) - v| = 1 / 2) (heven : q % 2 = 0) : NearestEven q v :=
  ⟨h.le, fun _ => heven⟩

theorem div_eq_quotient_add (num : ℕ) {den : ℕ} (hden : 0 < den) :
    (num : ℚ) / den = (num / den : ℕ) + (num % den : ℕ) / den := by
  have hne : (den : ℚ) ≠ 0 := by exact_mod_cast hden.ne'
  rw [div_eq_iff hne, add_mul, div_mul_cancel₀ _ hne]
  exact_mod_cast (Nat.div_add_mod' num den).symm

section
variable {r den : ℕ} (hden : 0 < den)
include hden

theorem two_mul_lt_iff : 2 * r < den ↔ (r : ℚ) / den < 1 / 2 := by
  rw [div_lt_div_iff₀ (by exact_mod_cast hden) two_pos]
  norm_cast
  omega

theorem lt_two_mul_iff : den < 2 * r ↔ 1 / 2 < (r : ℚ) / den := by
  rw [div_lt_div_iff₀ two_pos (by exact_mod_cast hden)]
  norm_cast
  omega

end

/-- The remainder against half the divisor says which neighbour is nearer. -/
theorem nearestEven_roundHalfEven (num : ℕ) {den : ℕ} (hden : 0 < den) :
    NearestEven (roundHalfEven num den) (num / den) := by
  have hnonneg : (0 : ℚ) ≤ (num % den : ℕ) / den := by positivity
  have hlt : ((num % den : ℕ) : ℚ) / den < 1 := by
    rw [div_lt_one (by exact_mod_cast hden)]
    exact_mod_cast Nat.mod_lt num hden
  rw [div_eq_quotient_add num hden]
  simp only [roundHalfEven, two_mul_lt_iff hden, lt_two_mul_iff hden]
  generalize ((num % den : ℕ) : ℚ) / den = t at *
  generalize num / den = q
  have hdown : |(q : ℚ) - (q + t)| = t := by rw [sub_add_cancel_left, abs_neg, abs_of_nonneg hnonneg]
  have hup : |((q + 1 : ℕ) : ℚ) - (q + t)| = 1 - t := by
    rw [Nat.cast_add_one, add_sub_add_left_eq_sub, abs_of_pos (sub_pos.2 hlt)]
  split_ifs with hlow hhigh heven
  · exact nearestEven_of_abs_lt (hdown.trans_lt hlow)
  · exact nearestEven_of_abs_lt (by linarith)
  · exact nearestEven_of_even (by linarith) heven
  · exact nearestEven_of_even (by linarith) (by omega)

/-- The significand of a finite binary32: the fraction alone where the exponent field is 0 (R89). -/
def significand (expo frac : ℕ) : ℕ := if expo = 0 then frac else 2 ^ 23 + frac

/-- The exponent of a finite binary32, biased: that of exponent field 1 where the field is 0 (R89). -/
def biasedExponent (expo : ℕ) : ℕ := if expo = 0 then 1 else expo

theorem floatMillionths_eq (expo frac : ℕ) :
    floatMillionths expo frac =
      if 150 ≤ biasedExponent expo then significand expo frac * 10 ^ 6 * 2 ^ (biasedExponent expo - 150)
      else roundHalfEven (significand expo frac * 10 ^ 6) (2 ^ (150 - biasedExponent expo)) := rfl

theorem floatMagnitude_eq (x : Word) :
    floatMagnitude x = significand (field x 23 8) (field x 0 23) * 2 ^ biasedExponent (field x 23 8) / 2 ^ 150 := by
  unfold floatMagnitude significand biasedExponent
  split_ifs
  · ring
  · push_cast
    ring

/-- From exponent 150 on the magnitude is a natural; below it, it is divided by a power of two. -/
theorem nearestEven_floatMillionths (x : Word) :
    NearestEven (floatMillionths (field x 23 8) (field x 0 23)) (floatMagnitude x * 10 ^ 6) := by
  rw [floatMillionths_eq, floatMagnitude_eq]
  generalize significand (field x 23 8) (field x 0 23) = m
  generalize biasedExponent (field x 23 8) = e
  split
  case isTrue hle =>
    obtain ⟨k, rfl⟩ := Nat.exists_eq_add_of_le hle
    have hval : (m : ℚ) * 2 ^ (150 + k) / 2 ^ 150 * 10 ^ 6 = (m * 10 ^ 6 * 2 ^ k : ℕ) := by
      push_cast
      ring
    rw [hval, Nat.add_sub_cancel_left]
    exact nearestEven_self _
  case isFalse hlt =>
    obtain ⟨k, hk⟩ := Nat.exists_eq_add_of_le (Nat.le_of_not_le hlt)
    have hval : (m : ℚ) * 2 ^ e / 2 ^ 150 * 10 ^ 6 = (m * 10 ^ 6 : ℕ) / (2 ^ k : ℕ) := by
      rw [hk, pow_add, mul_comm (m : ℚ), mul_div_mul_left _ _ (pow_ne_zero e two_ne_zero), div_mul_eq_mul_div]
      norm_cast
    rw [hval, show 150 - e = k by omega]
    exact nearestEven_roundHalfEven _ (Nat.two_pow_pos k)

/-- The text of R202, its fields as numbers. -/
theorem floatText_eq (x : Word) :
    floatText x = (if field x 31 1 = 1 then ascii "-" else []) ++
      if field x 23 8 = 255 then (if field x 0 23 = 0 then ascii "inf" else ascii "nan")
      else dec (floatMillionths (field x 23 8) (field x 0 23) / 10 ^ 6) ++ ascii "." ++
        decFixed 6 (floatMillionths (field x 23 8) (field x 0 23) % 10 ^ 6) := by
  rw [ite_field_one, decFixed_mod, field_eq_toNat, field_eq_toNat, floatText]

/-- Settles O10: the digits are those of the rounded millionths. -/
theorem floatText_spec : Obligations.FloatText := by
  intro x
  refine ⟨_, rfl, fun hexpo => ?_, fun hexpo => ?_⟩
  · rw [floatText_eq, if_pos hexpo]
  · obtain ⟨hnear, htie⟩ := nearestEven_floatMillionths x
    refine ⟨floatMillionths (field x 23 8) (field x 0 23), ?_, hnear, htie⟩
    rw [floatText_eq, if_neg hexpo]
    simp only [List.append_assoc]

end Sys2Proof.Machine

/-! Settles the statements about START, the clearing of DONE, the interrupt lines and the engines' independence
(60_exceptions.md R227, R228, R230, R233, R235). -/

namespace Sys2Proof.Machine

/-! ### An engine's turn -/

/-- All that the BCD's turn can do: nothing, or complete with some memory and internal state (R226, R229). -/
theorem runBcd_next {s t : State} (h : runBcd s = .next t) :
    t = s ∨ ∃ st len mem int, t = { bcdComplete st len mem s with bcdInt := int } := by
  cases hb : s.bcd.busy with
  | false => exact .inl (Host.Outcome.next.inj ((runBcd_of_idle hb).symm.trans h)).symm
  | true =>
    right
    rw [runBcd, if_pos hb, bcdStep] at h
    obtain ⟨row, -, he⟩ | he := exec_decodeFmt s.bcdLatch.fmt s
    · rw [he] at h
      obtain ⟨-, rfl⟩ | ⟨p, -, -, rfl⟩ := bcdCommand_next h
      · exact ⟨.insufficientData, 0, s.mem, s.bcdInt, rfl⟩
      · exact ⟨_, _, _, _, rfl⟩
    · obtain rfl := Host.Outcome.next.inj (he.symm.trans h)
      exact ⟨.unsupportedFormat, 0, s.mem, s.bcdInt, rfl⟩

/-- All that the SBD's turn can do: change its internals alone, by a header or an instruction, or complete (R129,
R229). -/
theorem runSbd_next {s t : State} (h : runSbd s = .next t) :
    (∃ int, t = { s with sbdInt := int }) ∨ ∃ st c, t = sbdComplete st c s := by
  cases hb : s.sbd.busy with
  | false => exact .inl ⟨s.sbdInt, (Host.Outcome.next.inj ((runSbd_of_idle hb).symm.trans h)).symm⟩
  | true =>
    rw [runSbd_of_busy hb] at h
    obtain ⟨-, ⟨st, c, -, hfin⟩ | ⟨-, -, he⟩ | ⟨-, -, he⟩⟩ := sbdStep_next h
    · exact .inr ⟨st, c, (sbdFinish_next hfin).1⟩
    · obtain ⟨int, hint, -⟩ := exec_header_frame (admits_decodeHeader (tokenAt s 0)) s
      exact .inl ⟨int, (Host.Outcome.next.inj (hint.symm.trans he)).symm⟩
    · obtain ⟨int, hint, -⟩ := exec_stream_frame (decodeOpcode_spec _ _ _).admits s
      exact .inl ⟨int, (Host.Outcome.next.inj (hint.symm.trans he)).symm⟩

/-- Settles O53, by what each engine's turn can do. -/
theorem enginesIndependent : Obligations.EnginesIndependent := by
  refine fun s t => ⟨fun h => ?_, fun h => ?_⟩
  · obtain rfl | ⟨st, len, mem, int, rfl⟩ := runBcd_next h
    · exact ⟨rfl, rfl, rfl⟩
    · exact ⟨rfl, rfl, rfl⟩
  · obtain ⟨int, rfl⟩ | ⟨st, c, rfl⟩ := runSbd_next h
    · exact ⟨rfl, rfl, rfl⟩
    · exact ⟨rfl, rfl, rfl⟩

/-! ### Writes of CTRL and STATUS -/

theorem hostAct_bcdCtrl (v : Word) (s : State) :
    hostAct (.regWrite (.window .bcd 0) 4 v) s = .next (bcdWriteCtrl v s) :=
  hostAct_regWrite_window rfl v s

theorem hostAct_sbdCtrl (v : Word) (s : State) :
    hostAct (.regWrite (.window .sbd 0) 4 v) s = .next (sbdWriteCtrl v s) :=
  hostAct_regWrite_window rfl v s

/-- START of the idle BCD: the other fields of CTRL are applied first (R227, R232). -/
theorem bcdWriteCtrl_of_start {v : Word} {s : State} (hstart : v.getLsbD 0 = true) (hidle : s.bcd.busy = false) :
    bcdWriteCtrl v s = bcdStart { s with bcd := { s.bcd with ie := v.getLsbD 1, bc5Fix := v.getLsbD 2 } } :=
  if_pos (by simp only [hstart, hidle]; rfl)

/-- START of the idle SBD (R227, R232). -/
theorem sbdWriteCtrl_of_start {v : Word} {s : State} (hstart : v.getLsbD 0 = true) (hidle : s.sbd.busy = false) :
    sbdWriteCtrl v s = sbdStart { s with sbd := { s.sbd with ie := v.getLsbD 1 } } :=
  if_pos (by simp only [hstart, hidle]; rfl)

/-- Settles O41: the state after the write is `bcdStart` or `sbdStart`. -/
theorem startCommand : Obligations.StartCommand := by
  refine fun s v hstart => ⟨fun hidle => ?_, fun hidle => ?_⟩
  · refine ⟨_, (hostAct_bcdCtrl v s).trans (congrArg _ (bcdWriteCtrl_of_start hstart hidle)), ?_⟩
    simp
  · refine ⟨_, (hostAct_sbdCtrl v s).trans (congrArg _ (sbdWriteCtrl_of_start hstart hidle)), ?_⟩
    simp [SbdInternal.reset, tokenCount]

/-- START is effective in an idle engine alone (R228). -/
theorem start_ineffective {start busy : Bool} (h : busy = true ∨ start = false) : ¬(start && !busy) = true := by
  obtain rfl | rfl := h
  · simp
  · simp

/-- Without an effective START a write of BCD CTRL sets IE and BC5_FIX alone (R228). -/
theorem bcdWriteCtrl_of_no_start {v : Word} {s : State} (h : s.bcd.busy = true ∨ v.getLsbD 0 = false) :
    bcdWriteCtrl v s = { s with bcd := { s.bcd with ie := v.getLsbD 1, bc5Fix := v.getLsbD 2 } } :=
  if_neg (start_ineffective h)

/-- Without an effective START a write of SBD CTRL sets IE alone (R228). -/
theorem sbdWriteCtrl_of_no_start {v : Word} {s : State} (h : s.sbd.busy = true ∨ v.getLsbD 0 = false) :
    sbdWriteCtrl v s = { s with sbd := { s.sbd with ie := v.getLsbD 1 } } :=
  if_neg (start_ineffective h)

/-- Settles O42, window by window. -/
theorem startIgnored : Obligations.StartIgnored := fun s v =>
  ⟨fun h => (hostAct_bcdCtrl v s).trans (congrArg _ (bcdWriteCtrl_of_no_start h)),
    fun h => (hostAct_sbdCtrl v s).trans (congrArg _ (sbdWriteCtrl_of_no_start h))⟩

/-- A bit cleared by writing 1 to it, as a choice on the bit written (R230). -/
theorem and_not_eq_ite (old written : Bool) : (old && !written) = if written then false else old := by
  cases written with
  | false => exact Bool.and_true old
  | true => exact Bool.and_false old

/-- Settles O43: STATUS is at the aligned offset 4, and its write is the clearing of one bit. -/
theorem clearDone : Obligations.ClearDone := by
  intro s v
  rw [← and_not_eq_ite, ← and_not_eq_ite]
  exact ⟨hostAct_regWrite_window rfl v s, hostAct_regWrite_window rfl v s⟩

/-! ### Interrupt lines -/

/-- DONE is bit 1 of STATUS (R18). -/
theorem BcdRegs.getLsbD_status_done (r : BcdRegs) : r.status.getLsbD 1 = r.done := by
  unfold BcdRegs.status
  cases r.done <;> cases r.busy <;> cases r.err <;> rfl

/-- IE is bit 1 of CTRL (R17). -/
theorem BcdRegs.getLsbD_ctrl_ie (r : BcdRegs) : r.ctrl.getLsbD 1 = r.ie := by
  unfold BcdRegs.ctrl
  cases r.ie <;> cases r.bc5Fix <;> rfl

/-- DONE is bit 1 of STATUS (R27). -/
theorem SbdRegs.getLsbD_status_done (r : SbdRegs) : r.status.getLsbD 1 = r.done := by
  unfold SbdRegs.status
  cases r.done <;> cases r.busy <;> cases r.err <;> cases r.ovf <;> rfl

/-- IE is bit 1 of CTRL (R26). -/
theorem SbdRegs.getLsbD_ctrl_ie (r : SbdRegs) : r.ctrl.getLsbD 1 = r.ie := by
  unfold SbdRegs.ctrl
  cases r.ie <;> rfl

/-- A line's level from the words the host reads of its window (R233). -/
theorem irq_eq_readReg (win : Window) (s : State) :
    irq win s = ((readReg win 4 s).getLsbD 1 && (readReg win 0 s).getLsbD 1) := by
  cases win with
  | bcd => exact (congrArg₂ and s.bcd.getLsbD_status_done s.bcd.getLsbD_ctrl_ie).symm
  | sbd => exact (congrArg₂ and s.sbd.getLsbD_status_done s.sbd.getLsbD_ctrl_ie).symm

theorem hostObserveIrq_lastRead (win : Window) (s : State) :
    (hostObserveIrq win s).lastRead = if irq win s then 1 else 0 := by
  unfold hostObserveIrq
  cases irq win s with
  | false => rfl
  | true => exact observe_lastRead win _

/-- Settles O48: the level from the registers, and the frame of a look at a line. -/
theorem interruptLines : Obligations.InterruptLines := by
  refine fun win s => ⟨hostObserveIrq win s, rfl, ?_, ?_⟩
  · simp only [hostObserveIrq_lastRead, irq_eq_readReg, Bool.and_eq_true]
  · obtain ⟨v, he | ⟨-, he⟩⟩ := hostObserveIrq_cases win s
    · exact ⟨readReg_congr (by rw [he]) (by rw [he]), fun a => by rw [he]⟩
    · exact ⟨readReg_congr (by simp [he]) (by simp [he]), fun a => by simp [he]⟩

end Sys2Proof.Machine

/-! Settles the statements about reading back what the encoder writes, and about words written out from the encodings
(30_encoding.md sections 1 to 6). -/

namespace Sys2Proof

/-! ### Slots

An instruction's parameter tokens as slots, one a token its opcode takes, each holding the token or missing (R143). What
stands in the stream are the slots' tokens with the missing ones dropped. -/

/-- `toks` begins with the tokens of the slots, slot for slot, and `rest` is what follows them. -/
structure FillsSlots (toks : List Word) (slots : List (Option Word)) (rest : List Word) : Prop where
  get : ∀ k (hk : k < slots.length), toks[k]? = slots[k]
  left : toks.drop slots.length = rest

/-- No token is missing before one that is there, nor at all before the end of the stream: so each token stands at its
slot's index. -/
theorem fillsSlots_reduceOption {slots : List (Option Word)} {rest : List Word}
    (hpresent : present (slots.map Option.isSome) = true) (hend : slots.all Option.isSome = true ∨ rest = []) :
    FillsSlots (slots.reduceOption ++ rest) slots rest := by
  induction slots with
  | nil => exact ⟨fun _ hk => absurd hk (Nat.not_lt_zero _), rfl⟩
  | cons slot slots ih =>
    cases slot with
    | some w =>
      have htail := ih hpresent (by simpa using hend)
      rw [List.reduceOption_cons_of_some]
      refine ⟨fun k hk => ?_, htail.left⟩
      cases k with
      | zero => rfl
      | succ k => exact htail.get k (Nat.lt_of_succ_lt_succ hk)
    | none =>
      have hnone : ∀ slot ∈ none :: slots, slot = none := by simpa [present] using hpresent
      obtain rfl : rest = [] := by simpa using hend
      have hempty : (none :: slots).reduceOption = [] := by
        rw [List.eq_replicate_of_mem hnone, List.reduceOption_replicate_none]
      rw [hempty]
      exact ⟨fun k hk => (hnone _ (List.getElem_mem hk)).symm, rfl⟩

section
variable {toks : List Word} {k : Nat}

theorem dstAt_eq {d : Option DstOp} (hget : toks[k]? = d.map DstOp.toToken)
    (hwf : presentWf DstOp.wellFormed d = true) : dstAt toks k = d := by
  rw [dstAt, hget]
  cases d with
  | none => rfl
  | some d => exact congrArg some (DstOp.ofToken_toToken hwf)

theorem srcAt_eq {a : Option SrcOp} (hget : toks[k]? = a.map SrcOp.toToken)
    (hwf : presentWf SrcOp.wellFormed a = true) : srcAt toks k = a := by
  rw [srcAt, hget]
  cases a with
  | none => rfl
  | some a => exact congrArg some (SrcOp.ofToken_toToken hwf)

theorem declAt_eq {u : Option Decl} (hget : toks[k]? = u.map Decl.toToken)
    (hwf : presentWf Decl.wellFormed u = true) : declAt toks k = u := by
  rw [declAt, hget]
  cases u with
  | none => rfl
  | some u => exact congrArg some (Decl.ofToken_toToken hwf)

end

/-! ### Reading back -/

/-- The words of `i`, before any others or at the end of the stream when `i` is truncated, decode to `i` and leave the
others. -/
def ReadsBack (place : Place) (i : Instr) : Prop :=
  ∀ rest, i.complete = true ∨ rest = [] → decode place (encode i ++ rest) = .ok (i, rest)

section
variable {place : Place} {i : Instr} {hi op : BitVec 16}

/-- An instruction is read back if it is decoded from any tokens that fill its slots. -/
theorem readsBack_of_slots {slots : List (Option Word)} (hencode : encode i = opTok hi op :: slots.reduceOption)
    (hpresent : present (slots.map Option.isSome) = true) (hcomplete : i.complete = slots.all Option.isSome)
    (hdecode : ∀ toks rest, FillsSlots toks slots rest → decode place (opTok hi op :: toks) = .ok (i, rest)) :
    ReadsBack place i := by
  intro rest hend
  rw [hcomplete] at hend
  rw [hencode]
  exact hdecode _ rest (fillsSlots_reduceOption hpresent hend)

/-- The slots of a generic instruction's operands. -/
def operandSlots (d : Option (Option DstOp)) (srcs : List (Option SrcOp)) : List (Option Word) :=
  d.toList.map (Option.map DstOp.toToken) ++ srcs.map (Option.map SrcOp.toToken)

theorem operandToks_eq_reduceOption (d : Option (Option DstOp)) (srcs : List (Option SrcOp)) :
    operandToks d srcs = (operandSlots d srcs).reduceOption := by
  have hsrcs : srcs.filterMap (Option.map SrcOp.toToken) = (srcs.map (Option.map SrcOp.toToken)).reduceOption := by
    rw [List.reduceOption, List.filterMap_map]
    rfl
  rw [operandSlots, List.reduceOption_append, ← hsrcs]
  rcases d with _ | _ | d <;> rfl

/-- What `operandsWf` says of the operands: each is well formed, and none follows a missing one. -/
theorem operandsWf_iff {d : Option (Option DstOp)} {srcs : List (Option SrcOp)} :
    operandsWf d srcs = true ↔
      (∀ d' ∈ d, presentWf DstOp.wellFormed d' = true) ∧ (∀ a ∈ srcs, presentWf SrcOp.wellFormed a = true) ∧
        present ((operandSlots d srcs).map Option.isSome) = true := by
  cases d <;> simp [operandsWf, operandSlots, and_assoc, Function.comp_def]

/-- An instruction whose tokens are its operands' is read back if its opcode decodes to it wherever the tokens hold
them. -/
theorem readsBack_of_sources {srcs : List (Option SrcOp)} (hencode : encode i = opTok hi op :: operandToks none srcs)
    (hwf : operandsWf none srcs = true) (hcomplete : i.complete = srcs.all Option.isSome)
    (hdecode : ∀ toks, (∀ k (hk : k < srcs.length), srcAt toks k = srcs[k]) →
      decode place (opTok hi op :: toks) = .ok (i, toks.drop srcs.length)) : ReadsBack place i := by
  obtain ⟨-, hsrcs, hpresent⟩ := operandsWf_iff.1 hwf
  rw [operandToks_eq_reduceOption] at hencode
  refine readsBack_of_slots hencode hpresent (by simp [hcomplete, operandSlots, Function.comp_def]) ?_
  intro toks rest hfills
  rw [hdecode toks fun k hk => srcAt_eq ?_ (hsrcs _ (List.getElem_mem hk))]
  · simpa [operandSlots] using hfills.left
  · simpa [operandSlots] using hfills.get k (by simpa [operandSlots] using hk)

theorem readsBack_of_operands {d : Option DstOp} {srcs : List (Option SrcOp)}
    (hencode : encode i = opTok hi op :: operandToks (some d) srcs) (hwf : operandsWf (some d) srcs = true)
    (hcomplete : i.complete = (d.isSome && srcs.all Option.isSome))
    (hdecode : ∀ toks, dstAt toks 0 = d → (∀ k (hk : k < srcs.length), srcAt toks (k + 1) = srcs[k]) →
      decode place (opTok hi op :: toks) = .ok (i, toks.drop (srcs.length + 1))) : ReadsBack place i := by
  obtain ⟨hd, hsrcs, hpresent⟩ := operandsWf_iff.1 hwf
  rw [operandToks_eq_reduceOption] at hencode
  refine readsBack_of_slots hencode hpresent (by simp [hcomplete, operandSlots, Function.comp_def]) ?_
  intro toks rest hfills
  rw [hdecode toks (dstAt_eq ?_ (hd d rfl)) fun k hk => srcAt_eq ?_ (hsrcs _ (List.getElem_mem hk))]
  · simpa [operandSlots] using hfills.left
  · simpa [operandSlots] using hfills.get 0 (by simp [operandSlots])
  · simpa [operandSlots] using hfills.get (k + 1) (by simpa [operandSlots] using hk)

end

/-! ### Generic instructions, by the rows of R91 -/

section
open Machine
variable {major minor : BitVec 8} {hi : BitVec 16}

theorem readsBack_bare {make : BitVec 16 → Instr} (hmake : make ∈ bareRows.map (·.2.2)) :
    ReadsBack (.stream major minor) (make hi) := by
  obtain ⟨row, hrow, rfl⟩ := List.mem_map.1 hmake
  have hencode : encode (row.2.2 hi) = [opTok hi row.2.1] := by fin_cases hrow <;> rfl
  intro rest _
  rw [hencode]
  exact decode_bareRow hrow major minor hi rest

theorem readsBack_oneSource {make : BitVec 16 → Option SrcOp → Instr} {a : Option SrcOp}
    (hmake : make ∈ oneSourceRows.map (·.2.2)) (hwf : (make hi a).wellFormed = true) :
    ReadsBack (.stream major minor) (make hi a) := by
  obtain ⟨row, hrow, rfl⟩ := List.mem_map.1 hmake
  refine readsBack_of_sources (hi := hi) (op := row.2.1) (srcs := [a]) ?_ ?_ ?_ fun toks hsrcs => ?_
  · fin_cases hrow <;> rfl
  · fin_cases hrow <;> exact hwf
  · fin_cases hrow <;> simp [Instr.complete]
  · rw [decode_oneSourceRow hrow, hsrcs 0 (by simp)]
    rfl

theorem readsBack_twoSource {make : BitVec 16 → Option SrcOp → Option SrcOp → Instr} {a b : Option SrcOp}
    (hmake : make ∈ twoSourceRows.map (·.2.2)) (hwf : (make hi a b).wellFormed = true) :
    ReadsBack (.stream major minor) (make hi a b) := by
  obtain ⟨row, hrow, rfl⟩ := List.mem_map.1 hmake
  refine readsBack_of_sources (hi := hi) (op := row.2.1) (srcs := [a, b]) ?_ ?_ ?_ fun toks hsrcs => ?_
  · fin_cases hrow <;> rfl
  · fin_cases hrow <;> exact hwf
  · fin_cases hrow <;> simp [Instr.complete]
  · rw [decode_twoSourceRow hrow, hsrcs 0 (by simp), hsrcs 1 (by simp)]
    rfl

theorem readsBack_unary {make : BitVec 16 → Option DstOp → Option SrcOp → Instr} {d : Option DstOp}
    {a : Option SrcOp} (hmake : make ∈ unaryRows.map (·.2.2)) (hwf : (make hi d a).wellFormed = true) :
    ReadsBack (.stream major minor) (make hi d a) := by
  obtain ⟨row, hrow, rfl⟩ := List.mem_map.1 hmake
  refine readsBack_of_operands (hi := hi) (op := row.2.1) (d := d) (srcs := [a]) ?_ ?_ ?_ fun toks hd hsrcs => ?_
  · fin_cases hrow <;> rfl
  · fin_cases hrow <;> exact hwf
  · fin_cases hrow <;> simp [Instr.complete]
  · rw [decode_unaryRow hrow, hd, hsrcs 0 (by simp)]
    rfl

theorem readsBack_binary {make : BitVec 16 → Option DstOp → Option SrcOp → Option SrcOp → Instr} {d : Option DstOp}
    {a b : Option SrcOp} (hmake : make ∈ (binaryRows ++ matrixRows).map (·.2.2))
    (hwf : (make hi d a b).wellFormed = true) : ReadsBack (.stream major minor) (make hi d a b) := by
  obtain ⟨row, hrow, rfl⟩ := List.mem_map.1 hmake
  refine readsBack_of_operands (hi := hi) (op := row.2.1) (d := d) (srcs := [a, b]) ?_ ?_ ?_ fun toks hd hsrcs => ?_
  · fin_cases hrow <;> rfl
  · fin_cases hrow <;> exact hwf
  · fin_cases hrow <;> simp [Instr.complete, Bool.and_assoc]
  · rw [decode_binaryRow hrow, hd, hsrcs 0 (by simp), hsrcs 1 (by simp)]
    rfl

theorem readsBack_ternary {make : BitVec 16 → Option DstOp → Option SrcOp → Option SrcOp → Option SrcOp → Instr}
    {d : Option DstOp} {a b c : Option SrcOp} (hmake : make ∈ ternaryRows.map (·.2.2))
    (hwf : (make hi d a b c).wellFormed = true) : ReadsBack (.stream major minor) (make hi d a b c) := by
  obtain ⟨row, hrow, rfl⟩ := List.mem_map.1 hmake
  refine readsBack_of_operands (hi := hi) (op := row.2.1) (d := d) (srcs := [a, b, c]) ?_ ?_ ?_
    fun toks hd hsrcs => ?_
  · fin_cases hrow <;> rfl
  · fin_cases hrow <;> exact hwf
  · fin_cases hrow <;> simp [Instr.complete, Bool.and_assoc]
  · rw [decode_ternaryRow hrow, hd, hsrcs 0 (by simp), hsrcs 1 (by simp), hsrcs 2 (by simp)]
    rfl

/-! ### Special and unrecognised opcodes -/

theorem readsBack_end : ReadsBack (.stream major minor) (.end_ hi) := fun rest _ => decode_end major minor hi rest

theorem readsBack_tex {d : Option DstOp} (hform : texForm (major, minor) = .tex)
    (hwf : (Instr.tex hi d).wellFormed = true) : ReadsBack (.stream major minor) (.tex hi d) := by
  refine readsBack_of_operands (srcs := []) rfl hwf (by simp [Instr.complete]) fun toks hd _ => ?_
  rw [decode_tex hi toks hform, hd]
  rfl

theorem readsBack_texld14 {d : Option DstOp} {a : Option SrcOp} (hform : texForm (major, minor) = .texld14)
    (hwf : (Instr.texld14 hi d a).wellFormed = true) : ReadsBack (.stream major minor) (.texld14 hi d a) := by
  refine readsBack_of_operands (srcs := [a]) rfl hwf (by simp [Instr.complete]) fun toks hd hsrcs => ?_
  rw [decode_texld14 hi toks hform, hd, hsrcs 0 (by simp)]
  rfl

theorem readsBack_texld20 {d : Option DstOp} {a b : Option SrcOp} (hform : texForm (major, minor) = .texld20)
    (hwf : (Instr.texld20 hi d a b).wellFormed = true) : ReadsBack (.stream major minor) (.texld20 hi d a b) := by
  refine readsBack_of_operands (srcs := [a, b]) rfl hwf (by simp [Instr.complete, Bool.and_assoc])
    fun toks hd hsrcs => ?_
  rw [decode_texld20 hi toks hform, hd, hsrcs 0 (by simp), hsrcs 1 (by simp)]
  rfl

theorem readsBack_dcl {u : Option Decl} {d : Option DstOp} (hwf : (Instr.dcl hi u d).wellFormed = true) :
    ReadsBack (.stream major minor) (.dcl hi u d) := by
  simp only [Instr.wellFormed, Bool.and_eq_true] at hwf
  obtain ⟨⟨hu, hd⟩, hpresent⟩ := hwf
  refine readsBack_of_slots (hi := hi) (op := 31) (slots := [u.map Decl.toToken, d.map DstOp.toToken]) ?_ ?_ ?_
    fun toks rest hfills => ?_
  · cases u <;> cases d <;> rfl
  · simpa using hpresent
  · simp [Instr.complete]
  · rw [decode_dcl, declAt_eq (hfills.get 0 (by simp)) hu, dstAt_eq (hfills.get 1 (by simp)) hd, ← hfills.left]
    rfl

theorem readsBack_def {d : Option DstOp} {f0 f1 f2 f3 : Option Word}
    (hwf : (Instr.def_ hi d f0 f1 f2 f3).wellFormed = true) :
    ReadsBack (.stream major minor) (.def_ hi d f0 f1 f2 f3) := by
  simp only [Instr.wellFormed, Bool.and_eq_true] at hwf
  obtain ⟨hd, hpresent⟩ := hwf
  refine readsBack_of_slots (hi := hi) (op := 81) (slots := [d.map DstOp.toToken, f0, f1, f2, f3]) ?_ ?_ ?_
    fun toks rest hfills => ?_
  · simp [encode, List.reduceOption, List.filterMap_eq_flatMap_toList, Option.toList_map]
  · simpa using hpresent
  · simp [Instr.complete, Bool.and_assoc]
  · rw [decode_def, dstAt_eq (hfills.get 0 (by simp)) hd, hfills.get 1 (by simp), hfills.get 2 (by simp),
      hfills.get 3 (by simp), hfills.get 4 (by simp), ← hfills.left]
    rfl

theorem readsBack_unrecognised {tok : Word} (hwf : (Instr.unrecognised tok).wellFormed = true) :
    ReadsBack (.stream major minor) (.unrecognised tok) := by
  intro rest _
  exact decode_stream_eq_unrecognised_iff.2 ⟨by simpa [Instr.wellFormed] using hwf, rfl⟩

end

/-! ### Every instruction, place by place -/

theorem readsBack_format {i : Instr} (hadm : Place.format.admits i = true) : ReadsBack .format i := by
  cases i with
  | decodeBc1 | decodeBc2 | decodeBc3 | decodeBc4 | decodeBc5 | unsupportedFormat5 | unsupportedFormat6
  | unsupportedFormat7 => exact fun _ _ => rfl
  | _ => simp [Place.admits] at hadm

theorem extractLsb'_headerToken (kind : BitVec 16) (major minor : BitVec 8) :
    (kind ++ major ++ minor).extractLsb' 16 16 = kind ∧ (kind ++ major ++ minor).extractLsb' 8 8 = major ∧
      (kind ++ major ++ minor).extractLsb' 0 8 = minor := by
  refine ⟨extract_eq fun i hi => ?_, extract_eq fun i hi => ?_, extract_eq fun i hi => ?_⟩
  all_goals rw [BitVec.getLsbD_append, BitVec.getLsbD_append]
  · rw [if_neg (by omega), if_neg (by omega), show 16 + i - 8 - 8 = i by omega]
  · simp [hi]
  · simp [hi]

theorem readsBack_header {i : Instr} (hwf : i.wellFormed = true) (hadm : Place.header.admits i = true) :
    ReadsBack .header i := by
  refine fun rest _ => ?_
  cases i with
  | headerPs major minor =>
    obtain ⟨hkind, hmajor, hminor⟩ := extractLsb'_headerToken 0xFFFF#16 major minor
    rw [encode, List.singleton_append, decode, Machine.decodeHeader_of_ps hkind, hmajor, hminor]
  | headerVs major minor =>
    obtain ⟨hkind, hmajor, hminor⟩ := extractLsb'_headerToken 0xFFFE#16 major minor
    rw [encode, List.singleton_append, decode, Machine.decodeHeader_of_vs hkind, hmajor, hminor]
  | headerRejected tok =>
    obtain ⟨hps, hvs⟩ : tok.extractLsb' 16 16 ≠ 0xFFFF#16 ∧ tok.extractLsb' 16 16 ≠ 0xFFFE#16 := by
      simpa [Instr.wellFormed] using hwf
    rw [encode, List.singleton_append, decode, Machine.decodeHeader_of_rejected hps hvs]
  | _ => simp [Place.admits] at hadm

theorem readsBack_stream {i : Instr} {major minor : BitVec 8} (hwf : i.wellFormed = true)
    (hadm : (Place.stream major minor).admits i = true) : ReadsBack (.stream major minor) i := by
  cases i with
  | nop hi | ret hi | endloop hi | endrep hi | phase hi => exact readsBack_bare (by simp [Machine.bareRows])
  | call hi a | label hi a | rep hi a => exact readsBack_oneSource (by simp [Machine.oneSourceRows]) hwf
  | callnz hi a b | loop hi a b => exact readsBack_twoSource (by simp [Machine.twoSourceRows]) hwf
  | mov hi d a | rcp hi d a | rsq hi d a | exp hi d a | log hi d a | lit hi d a | frc hi d a | abs hi d a | nrm hi d a
  | mova hi d a => exact readsBack_unary (by simp [Machine.unaryRows]) hwf
  | add hi d a b | sub hi d a b | mul hi d a b | dp3 hi d a b | dp4 hi d a b | min hi d a b | max hi d a b
  | slt hi d a b | sge hi d a b | dst hi d a b | m4x4 hi d a b | m4x3 hi d a b | m3x4 hi d a b | m3x3 hi d a b
  | m3x2 hi d a b | pow hi d a b | crs hi d a b =>
    exact readsBack_binary (by simp [Machine.binaryRows, Machine.matrixRows]) hwf
  | mad hi d a b c | lrp hi d a b c | sgn hi d a b c | sincos hi d a b c =>
    exact readsBack_ternary (by simp [Machine.ternaryRows]) hwf
  | end_ hi => exact readsBack_end
  | dcl hi u d => exact readsBack_dcl hwf
  | tex hi d => exact readsBack_tex (by simpa [Place.admits] using hadm) hwf
  | texld14 hi d a => exact readsBack_texld14 (by simpa [Place.admits] using hadm) hwf
  | texld20 hi d a b => exact readsBack_texld20 (by simpa [Place.admits] using hadm) hwf
  | def_ hi d f0 f1 f2 f3 => exact readsBack_def hwf
  | unrecognised tok => exact readsBack_unrecognised hwf
  | _ => simp [Place.admits] at hadm

theorem readsBack_of_admits {place : Place} {i : Instr} (hwf : i.wellFormed = true) (hadm : place.admits i = true) :
    ReadsBack place i := by
  cases place with
  | format => exact readsBack_format hadm
  | header => exact readsBack_header hwf hadm
  | stream major minor => exact readsBack_stream hwf hadm

/-- Settles O2: whatever follows a complete instruction, and nothing following a truncated one, is left. -/
theorem decodeEncode : Obligations.DecodeEncode := by
  intro place i hwf hadm
  have hreads := readsBack_of_admits hwf hadm
  exact ⟨by simpa using hreads [] (.inr rfl), fun hcomplete rest => hreads rest (.inl hcomplete)⟩

/-- Settles O6: each list of words is what its instruction is encoded in, and the encoding is read back. -/
theorem decodedWords : Obligations.DecodedWords := by
  have hreads : ∀ {place words i}, encode i = words → i.wellFormed = true → place.admits i = true →
      decode place words = .ok (i, []) := by
    rintro place _ i rfl hwf hadm
    exact (decodeEncode place i hwf hadm).1
  exact ⟨hreads rfl rfl rfl, hreads rfl rfl rfl, hreads rfl rfl rfl, hreads rfl rfl rfl, hreads rfl rfl rfl⟩

end Sys2Proof
